-- ==== Sys2Proof/Word.lean ====
section
/-! DEFINITION. The two word types of nvt CORE: the memory byte and the 32-bit register word (R6). -/

namespace Sys2Proof

/-- A memory byte, 8 bits (R6). -/
abbrev Byte := BitVec 8

/-- A register, 32 bits (R6, R22, R30). -/
abbrev Word := BitVec 32

end Sys2Proof
end

