-- ==== Sys2Proof/Config.lean ====
section
/-! DEFINITION. The parameters of an instance (R6) and the free values the spec leaves open. -/

namespace Sys2Proof

/-- One `(FormatId, Name)` pair of the registry (R120): the name is its bytes, without the zero padding. -/
structure Entry where
  id   : Word
  name : List Byte
  deriving DecidableEq, Repr

/-- `BAYER_NARROW` (R6, R183): how a Bayer sample above 255 is narrowed to 8 bits. -/
inductive Narrow
  | sat
  | trunc
  deriving DecidableEq, Repr

/-- The parameters R6 marks OPEN. A model takes them as arguments: here they ride in State (`State.cfg`), no step
changes them, and a claim about every state is a claim about every instance. `NREG` is `registry.length`. -/
structure Config where
  inSize   : Nat
  outSize  : Nat
  registry : List Entry
  narrow   : Narrow
  deriving DecidableEq, Repr

/-- Free value: the FormatId a numeric literal of `2^32` or more resolves to (R128, U1), the draw's number given.
DESIGN CHOICE (notes/assumptions/7.md), safe. -/
opaque Config.numOverflow : Nat → Word

/-- Free value: the byte of IN at an address nobody has written since draw `era` (R281, U6). DESIGN CHOICE
(notes/assumptions/6.md), safe. -/
opaque Config.unwrittenIn : Nat → Nat → Byte

/-- Free value: the byte of OUT at an address nothing has written since draw `era` (R281, U6), or since a failed
`hexdec` or a reset left it unspecified (R217, R280, U3, U8). DESIGN CHOICE (notes/assumptions/6.md), safe. -/
opaque Config.unwrittenOut : Nat → Nat → Byte

/-- Free value: the STATUS bits other than BUSY that a read returns while a command runs (R286, U10). DESIGN CHOICE
(notes/assumptions/12.md), safe. -/
opaque Config.statusWhileBusy : Nat → Word

end Sys2Proof
end

