-- ==== Sys2Proof/Machine/Bytes.lean ====
section
/-! DEFINITION. Helpers over bytes: the character classes of R15, `clamp8` of R16, little-endian words of R13 and R62. -/

namespace Sys2Proof.Machine

/-- `is_digit` (R15). -/
def isDigit (c : Byte) : Bool := 0x30 ≤ c.toNat && c.toNat ≤ 0x39

/-- `is_alpha` (R15). -/
def isAlpha (c : Byte) : Bool :=
  (0x41 ≤ c.toNat && c.toNat ≤ 0x5A) || (0x61 ≤ c.toNat && c.toNat ≤ 0x7A)

/-- `is_word` (R15): digit, letter or underscore. -/
def isWord (c : Byte) : Bool := isDigit c || isAlpha c || c.toNat == 0x5F

/-- `is_hex` (R15). -/
def isHex (c : Byte) : Bool :=
  isDigit c || (0x41 ≤ c.toNat && c.toNat ≤ 0x46) || (0x61 ≤ c.toNat && c.toNat ≤ 0x66)

/-- `is_octal` (R15). -/
def isOctal (c : Byte) : Bool := 0x30 ≤ c.toNat && c.toNat ≤ 0x37

/-- The value of a decimal or octal digit: `c - 0x30` (R126). -/
def digitVal (c : Byte) : Nat := c.toNat - 0x30

/-- `hexval` (R15). -/
def hexVal (c : Byte) : Nat :=
  if isDigit c then c.toNat - 0x30
  else if c.toNat ≤ 0x46 then c.toNat - 0x41 + 10
  else c.toNat - 0x61 + 10

/-- `fold` (R15): ASCII upper-casing. -/
def fold (c : Byte) : Byte :=
  if 0x61 ≤ c.toNat && c.toNat ≤ 0x7A then c - 0x20 else c

/-- `NL` (R15). -/
def newline : Byte := 0x0A

/-- `clamp8` (R16). -/
def clamp8 (v : Int) : Byte := BitVec.ofNat 8 (max 0 (min 255 v)).toNat

/-- Byte `i` of a word, `v[8*i+7 : 8*i]` (R13). -/
def byteOf (v : Word) (i : Nat) : Byte := BitVec.ofNat 8 (v.toNat >>> (8 * i))

/-- The little-endian number made of a list of bytes (`MemRead` of R13). -/
def leNat : List Byte → Nat
  | [] => 0
  | b :: bs => b.toNat + 256 * leNat bs

/-- The little-endian number of a list of bytes as a word, zero-extended (R62, R64). -/
def leWord (bs : List Byte) : Word := BitVec.ofNat 32 (leNat bs)

/-- The low `n` bytes of a word, lowest first (`MemWrite` of R13). -/
def leBytes (v : Word) (n : Nat) : List Byte := (List.range n).map (byteOf v)

end Sys2Proof.Machine
end

