-- ==== Sys2Proof/Machine/Registry.lean ====
section
/-! DEFINITION. The registry: its ROM image (R120), the default instance (R122), the six dispatch constants (R124). -/

namespace Sys2Proof.Machine

/-- The six formats `decode` supports (R162). -/
inductive Format
  | nv12
  | grey
  | sbggr10
  | sgbrg10
  | srggb10
  | sgrbg10
  deriving DecidableEq, Repr

/-- The registry name of each supported format (R96, R121 (c)), as ASCII bytes. -/
def formatName : Format → List Byte
  | .nv12 => [0x4E, 0x56, 0x31, 0x32]
  | .grey => [0x47, 0x52, 0x45, 0x59]
  | .sbggr10 => [0x53, 0x42, 0x47, 0x47, 0x52, 0x31, 0x30]
  | .sgbrg10 => [0x53, 0x47, 0x42, 0x52, 0x47, 0x31, 0x30]
  | .srggb10 => [0x53, 0x52, 0x47, 0x47, 0x42, 0x31, 0x30]
  | .sgrbg10 => [0x53, 0x47, 0x52, 0x42, 0x47, 0x31, 0x30]

/-- The six formats in the order of R162. -/
def allFormats : List Format := [.nv12, .grey, .sbggr10, .sgbrg10, .srggb10, .sgrbg10]

/-- The four compressed tags the registry must hold (R121 (c)): MJPEG, JPEG, DV, MPEG. -/
def compressedNames : List (List Byte) :=
  [[0x4D, 0x4A, 0x50, 0x45, 0x47], [0x4A, 0x50, 0x45, 0x47], [0x44, 0x56], [0x4D, 0x50, 0x45, 0x47]]

/-- The default `REGISTRY` of R122. PRESUMED (notes/assumptions/5.md), unsafe if relied on: the ids are the spec's
default numbers, from general knowledge (G1). -/
def standardRegistry : List Entry :=
  [⟨0x3231564E, formatName .nv12⟩, ⟨0x59455247, formatName .grey⟩, ⟨0x30314742, formatName .sbggr10⟩,
    ⟨0x30314247, formatName .sgbrg10⟩, ⟨0x30314752, formatName .srggb10⟩, ⟨0x30314142, formatName .sgrbg10⟩] ++
  List.zipWith Entry.mk [0x47504A4D, 0x4745504A, 0x64737664, 0x4745504D] compressedNames

/-- The instance the vectors use: `IN_SIZE = OUT_SIZE = 65536`, the default registry, `BAYER_NARROW = SAT`.
DESIGN CHOICE (notes/assumptions/4.md), unsafe for a claim about `State.reset` alone. -/
def standardConfig : Config :=
  { inSize := 65536, outSize := 65536, registry := standardRegistry, narrow := .sat }

/-- The 32 bytes of one ROM entry: the id little-endian, then the name padded with zeros (R120). -/
def entryImage (e : Entry) : List Byte := leBytes e.id 4 ++ (e.name ++ List.replicate 28 0).take 28

/-- The ROM contents: the entries in order (R45, R120). -/
def romImage (reg : List Entry) : List Byte := reg.flatMap entryImage

/-- The FormatId the registry gives to a name (R124). -/
def idOfName (reg : List Entry) (nm : List Byte) : Option Word :=
  (reg.find? fun e => e.name == nm).map Entry.id

/-- The dispatch constant of a format: `ID_NV12` and so on (R124). -/
def formatId (cfg : Config) (f : Format) : Option Word := idOfName cfg.registry (formatName f)

/-- The dispatch of R96: the supported format whose constant equals FMT, or none. -/
def formatOf (cfg : Config) (fmt : Word) : Option Format :=
  allFormats.find? fun f => formatId cfg f == some fmt

end Sys2Proof.Machine
end

