-- ==== Sys2Proof/Machine/State.lean ====
section
/-! DEFINITION. The state of nvt CORE (R20), all plain data, and its reset (R58, R280). -/

namespace Sys2Proof.Machine

/-- STATUS (R24): bits 0 to 4 and the field ECODE. The reserved bits have no storage and read as 0. -/
structure Status where
  busy  : Bool
  done  : Bool
  err   : Bool
  short : Bool
  found : Bool
  ecode : BitVec 4
  deriving DecidableEq, Repr

/-- The fourteen operand and result registers (R30). -/
structure Regs where
  fmt    : Word
  width  : Word
  height : Word
  stride : Word
  slen   : Word
  rlen   : Word
  tpos   : Word
  tend   : Word
  roww   : Word
  rowc   : Word
  sampw  : Word
  ridx   : Word
  ycc    : Word
  rgb    : Word
  deriving DecidableEq, Repr

/-- One of the two data memories (R46, R47): the bytes written, sorted by address, no address twice. An unlisted
address has no stored value: it reads as the free byte of draw `era` (notes/assumptions/6.md). -/
structure Memory where
  cells : List Host.Cell
  era   : Nat
  deriving DecidableEq, Repr

/-- The symbol parser's registers (R50): cursor, 32-bit accumulator, registry index. `past32` is the model's own: the
value of the literal has reached `2^32`, which R128 tells apart and 32 bits cannot (notes/assumptions/15.md). -/
structure FrsRegs where
  p      : Nat
  acc    : Word
  past32 : Bool
  index  : Nat
  deriving DecidableEq, Repr

/-- The hex decoder's registers (R51). -/
structure HexRegs where
  p        : Nat
  runLen   : Nat
  runVal   : Byte
  rowBytes : Nat
  firstW   : Nat
  rows     : Nat
  outPtr   : Nat
  deriving DecidableEq, Repr

/-- The 10-bit unpacker's position (R52): row and sample. -/
structure UnpkRegs where
  r : Nat
  k : Nat
  deriving DecidableEq, Repr

/-- The pixel decoder's position (R53), hold registers and phase bits (R54). -/
structure PxdRegs where
  r        : Nat
  c        : Nat
  hR       : Byte
  hG       : Byte
  hB       : Byte
  oddRow   : Bool
  oddPixel : Bool
  deriving DecidableEq, Repr

/-- The internal state of the running command (R20 (e)). It does not exist when no command runs (R58): `idle`. -/
inductive UnitState
  | idle
  | frs (f : FrsRegs)
  | hex (h : HexRegs)
  | unpk (u : UnpkRegs)
  | pxd (p : PxdRegs)
  deriving DecidableEq, Repr

/-- The eighteen registers by name (R22, R30). -/
inductive RegName
  | cmd | status | ctrl | nreg
  | fmt | width | height | stride | slen | rlen | tpos | tend | roww | rowc | sampw | ridx | ycc | rgb
  deriving DecidableEq, Repr

/-- The width of a host access (R63, R64). -/
inductive Width
  | byte
  | half
  | word
  deriving DecidableEq, Repr

/-- What the outside world does to the block, one event at a time. Offsets are byte offsets from the block's base
(R60). -/
inductive HostOp
  /-- Read `w` at offset `off`. -/
  | read (w : Width) (off : Nat)
  /-- Write the low bytes of `v` at offset `off`. -/
  | write (w : Width) (off : Nat) (v : Word)
  /-- Read the byte at `src` and write it at `dst`: the step of the host's copy (R78, R101). -/
  | move (dst src : Nat)
  /-- The reset line (R280). -/
  | reset
  deriving DecidableEq, Repr

/-- An event and whether it falls before the running command has ended (it matters only while BUSY = 1;
notes/assumptions/3.md). -/
structure HostEvent where
  op    : HostOp
  early : Bool
  deriving DecidableEq, Repr

/-- The errors a command can raise (R241). -/
inductive Error
  | emptySymbol
  | symbolNotFound
  | numericOnlyExpected
  | unsupportedFormat
  | geometryInvalid
  | invalidValueWidth
  | inconsistentRowWidth
  | allocationFailed
  | illegalCommand
  deriving DecidableEq, Repr

/-- The state of the block (R20) and, after it, the model's own fields (INVENTORY.md). -/
structure State where
  /-- The instance's parameters (R6). No step changes them. -/
  cfg    : Config
  /-- CMD (R23). -/
  cmd    : Word
  /-- STATUS (R24). -/
  status : Status
  /-- CTRL (R27): bit 0 is IE, the other bits are 0. -/
  ctrl   : Word
  /-- The operand and result registers (R30). -/
  regs   : Regs
  /-- The registry ROM (R45). -/
  rom    : List Byte
  /-- The input memory IN (R46). -/
  inMem  : Memory
  /-- The output memory OUT (R47). -/
  outMem : Memory
  /-- The internal state of the running command (R50 to R54). -/
  unit   : UnitState
  /-- The model's own: how many free values have been numbered so far (notes/assumptions/21.md). -/
  draws  : Nat
  /-- The model's own: the host's events still to come, oldest first (R70 (a)). -/
  host   : List HostEvent
  /-- The model's own: the word the host's last read returned. -/
  reply  : Option Word
  deriving DecidableEq, Repr

/-- Reasons the machine stops with a fault. There are none: every command ends, with or without an error in STATUS
(R94, R97), and the spec gives nothing the treatment `fault` or `stuck` (notes/assumptions/19.md). Safe. -/
inductive Fault : Type
  deriving DecidableEq, Repr

/-- Reasons a step is refused. -/
inductive Refusal
  /-- Raised by an arm of `exec` that has no meaning yet; no arm of this model raises it. Safe. -/
  | notModelled (mnemonic : String)
  /-- Raised by `step` when the host does anything but read STATUS while BUSY = 1: outside the contract (R286, U7).
  Safe: the model gives the host no such move. -/
  | hostWhileBusy
  /-- Raised by `step` for a host access to REGS that is not an aligned 32-bit word (R63, U9). Safe. -/
  | hostRegisterAccess
  /-- Raised by `step` for a misaligned wide host access, or one that crosses the end of its memory (R64, U9). Safe. -/
  | hostWideAccess
  deriving DecidableEq, Repr

/-- STATUS after reset: idle, not done, no error, no flag (R58). -/
def Status.reset : Status :=
  { busy := false, done := false, err := false, short := false, found := false, ecode := 0 }

/-- The operand and result registers after reset: 0, and RIDX all ones (R30, R58). -/
def Regs.reset : Regs :=
  { fmt := 0, width := 0, height := 0, stride := 0, slen := 0, rlen := 0, tpos := 0, tend := 0, roww := 0, rowc := 0,
    sampw := 0, ridx := 0xFFFFFFFF, ycc := 0, rgb := 0 }

/-- A memory whose every byte is unspecified, filled by draw `era` (R281). -/
def Memory.unspecified (era : Nat) : Memory := { cells := [], era := era }

/-- An instance right after reset (R58, R280), its unspecified bytes filled by draw `d`. -/
def State.resetOf (cfg : Config) (d : Nat) : State :=
  { cfg := cfg, cmd := 0, status := Status.reset, ctrl := 0, regs := Regs.reset, rom := romImage cfg.registry,
    inMem := Memory.unspecified d, outMem := Memory.unspecified d, unit := .idle, draws := d + 1, host := [],
    reply := none }

/-- The standard instance right after reset (R58, R280). DESIGN CHOICE for the instance (notes/assumptions/4.md) and for
the model's own fields (notes/assumptions/21.md). -/
def State.reset : State := State.resetOf standardConfig 0

end Sys2Proof.Machine
end

