-- ==== Sys2Proof/Machine/Ops.lean ====
section
/-! DEFINITION. The named operations over memories, registers and the unit state; the end of a command, with and
without an error. -/

namespace Sys2Proof.Machine

/-! ### Memories -/

/-- The byte listed at an address. -/
def cellsGet : List Host.Cell → Nat → Option Byte
  | [], _ => none
  | (x, b) :: t, a => if x = a then some b else cellsGet t a

/-- List a byte at an address, keeping the addresses rising. -/
def cellsPut : List Host.Cell → Nat → Byte → List Host.Cell
  | [], a, v => [(a, v)]
  | (x, b) :: t, a, v =>
    if a < x then (a, v) :: (x, b) :: t
    else if a = x then (a, v) :: t
    else (x, b) :: cellsPut t a v

/-- The stored byte, or none where nothing has been written: what an unlisted address reads as is no value
(notes/assumptions/6.md). -/
def Memory.get? (m : Memory) (a : Nat) : Option Byte := cellsGet m.cells a

/-- Write one byte. -/
def Memory.put (m : Memory) (a : Nat) (v : Byte) : Memory := { m with cells := cellsPut m.cells a v }

/-- Write bytes at increasing addresses. -/
def Memory.putBytes (m : Memory) (a : Nat) : List Byte → Memory
  | [] => m
  | b :: bs => (m.put a b).putBytes (a + 1) bs

/-- The canonical form: addresses strictly rising. An unlisted address has no value, so no entry can equal it. -/
abbrev Memory.wf (m : Memory) : Prop := (m.cells.map Prod.fst).Pairwise (· < ·)

/-- Every listed address lies below the memory's size. -/
abbrev Memory.within (m : Memory) (size : Nat) : Prop := ∀ c ∈ m.cells, c.1 < size

/-- `IN[a]` (R13, R46): the stored byte, else the free byte of the memory's draw (U6). -/
def State.inByte (s : State) (a : Nat) : Byte := (s.inMem.get? a).getD (Config.unwrittenIn s.inMem.era a)

/-- `OUT[a]` (R13, R47): the stored byte, else the free byte of the memory's draw (U6). -/
def State.outByte (s : State) (a : Nat) : Byte := (s.outMem.get? a).getD (Config.unwrittenOut s.outMem.era a)

/-- `ROM[a]` (R13, R45). -/
def State.romByte (s : State) (a : Nat) : Byte := s.rom.getD a 0

/-- The bytes `IN[a .. a+n-1]`, in address order. -/
def State.inBytes (s : State) (a : Nat) : Nat → List Byte
  | 0 => []
  | n + 1 => s.inByte a :: s.inBytes (a + 1) n

/-- `SrcRead` (R66): the conditioned source read. -/
def State.srcRead (s : State) (lim a : Nat) : Byte := if a < lim then s.inByte a else 0

/-- Every byte of OUT becomes unspecified: a fresh draw fills them (R217, R252 (d), U3). -/
def State.spoilOut (s : State) : State :=
  { s with outMem := Memory.unspecified s.draws, draws := s.draws + 1 }

/-! ### ROM entries (R120) -/

/-- `NREG` (R28). -/
def State.nreg (s : State) : Nat := s.cfg.registry.length

/-- `id(i)` (R120). -/
def State.entryId (s : State) (i : Nat) : Word :=
  leWord [s.romByte (32 * i), s.romByte (32 * i + 1), s.romByte (32 * i + 2), s.romByte (32 * i + 3)]

/-- `name(i)`: the bytes 4 to 31 of the entry before the first zero (R120). -/
def State.entryName (s : State) (i : Nat) : List Byte :=
  ((List.range 28).map fun k => s.romByte (32 * i + 4 + k)).takeWhile fun b => b != 0

/-! ### The unit state (R50 to R54) -/

/-- Load or update the running command's internal state. -/
def State.setUnit (s : State) (u : UnitState) : State := { s with unit := u }

/-- The symbol parser's registers. -/
def State.frs (s : State) : FrsRegs :=
  match s.unit with
  | .frs f => f
  | _ => { p := 0, acc := 0, past32 := false, index := 0 }

/-- The hex decoder's registers. -/
def State.hex (s : State) : HexRegs :=
  match s.unit with
  | .hex h => h
  | _ => { p := 0, runLen := 0, runVal := 0, rowBytes := 0, firstW := 0, rows := 0, outPtr := 0 }

/-- The 10-bit unpacker's registers. -/
def State.unpk (s : State) : UnpkRegs :=
  match s.unit with
  | .unpk u => u
  | _ => { r := 0, k := 0 }

/-- The pixel decoder's registers. -/
def State.pxd (s : State) : PxdRegs :=
  match s.unit with
  | .pxd p => p
  | _ => { r := 0, c := 0, hR := 0, hG := 0, hB := 0, oddRow := false, oddPixel := false }

/-! ### The start and the end of a command -/

/-- The host's write of `w` to CMD while the block is idle (R23): CMD, then BUSY, then DONE. -/
def State.startCommand (s : State) (w : Word) : State :=
  { s with cmd := w, status := { s.status with busy := true, done := false } }

/-- The ECODE of each error (R241). -/
def errorCode : Error → BitVec 4
  | .emptySymbol => 1
  | .symbolNotFound => 2
  | .numericOnlyExpected => 3
  | .unsupportedFormat => 4
  | .geometryInvalid => 5
  | .invalidValueWidth => 6
  | .inconsistentRowWidth => 7
  | .allocationFailed => 8
  | .illegalCommand => 9

/-- STATUS as the engine writes it when a command ends, all at once (R25). -/
def endStatus (ecode : BitVec 4) (short found : Bool) : Status :=
  { busy := false, done := true, err := ecode != 0, short := short, found := found, ecode := ecode }

/-- The end of a command: STATUS is written and the internal state ceases to exist (R20 (e), R25). -/
def State.finish (s : State) (ecode : BitVec 4) (short found : Bool) : State :=
  { s with status := endStatus ecode short found, unit := .idle }

/-- A command ends without error (R25). -/
def complete (s : State) (short found : Bool) : Host.Outcome State Fault Refusal := .next (s.finish 0 short found)

/-- TAKING AN EXCEPTION: `raise` (R14, R252). The command ends at once; STATUS takes the error's code with ERR = 1,
SHORT = 0, FOUND = 0, DONE = 1, BUSY = 0; nothing else is saved or changed. There is no handler, no saved pc and no
return instruction (R252 (f), R254): what follows is the host's next access. -/
def raise (s : State) (e : Error) : Host.Outcome State Fault Refusal := .next (s.finish (errorCode e) false false)

/-- The host acknowledges the completion: a STATUS write with bit 1 set clears DONE and nothing else (R24). It is the
nearest thing to a return; nothing is restored (R254). -/
def State.ackDone (s : State) : State := { s with status := { s.status with done := false } }

/-! ### Registers by name (R22, R30) -/

/-- A register's byte offset (R22, R30). -/
def regOffset : RegName → Nat
  | .cmd => 0x00
  | .status => 0x04
  | .ctrl => 0x08
  | .nreg => 0x0C
  | .fmt => 0x10
  | .width => 0x14
  | .height => 0x18
  | .stride => 0x1C
  | .slen => 0x20
  | .rlen => 0x24
  | .tpos => 0x28
  | .tend => 0x2C
  | .roww => 0x30
  | .rowc => 0x34
  | .sampw => 0x38
  | .ridx => 0x3C
  | .ycc => 0x40
  | .rgb => 0x44

/-- All eighteen registers (R20 (a)). -/
def allRegs : List RegName :=
  [.cmd, .status, .ctrl, .nreg, .fmt, .width, .height, .stride, .slen, .rlen, .tpos, .tend, .roww, .rowc, .sampw,
    .ridx, .ycc, .rgb]

/-- The register at an offset; the offsets from `0x48` on are reserved (R29). -/
def regAt (off : Nat) : Option RegName := allRegs.find? fun r => regOffset r == off

/-- STATUS as a 32-bit word (R24). -/
def statusWord (t : Status) : Word :=
  BitVec.ofNat 32 (t.busy.toNat + 2 * t.done.toNat + 4 * t.err.toNat + 8 * t.short.toNat + 16 * t.found.toNat +
    256 * t.ecode.toNat)

/-- The 32-bit value a host read of a register returns (R22, R28, R30). Reading has no side effect (R38). -/
def State.readReg (s : State) : RegName → Word
  | .cmd => s.cmd
  | .status => statusWord s.status
  | .ctrl => s.ctrl
  | .nreg => BitVec.ofNat 32 s.nreg
  | .fmt => s.regs.fmt
  | .width => s.regs.width
  | .height => s.regs.height
  | .stride => s.regs.stride
  | .slen => s.regs.slen
  | .rlen => s.regs.rlen
  | .tpos => s.regs.tpos
  | .tend => s.regs.tend
  | .roww => s.regs.roww
  | .rowc => s.regs.rowc
  | .sampw => s.regs.sampw
  | .ridx => s.regs.ridx
  | .ycc => s.regs.ycc
  | .rgb => s.regs.rgb

/-- What a host write of a register does while the block is idle (R22 to R24, R27 to R30, R37). Writes to read-only
registers and to reserved bits are ignored. -/
def State.writeReg (s : State) (v : Word) : RegName → State
  | .cmd => s.startCommand v
  | .status => if v.getLsbD 1 then s.ackDone else s
  | .ctrl => { s with ctrl := v &&& 1 }
  | .nreg => s
  | .fmt => { s with regs := { s.regs with fmt := v } }
  | .width => { s with regs := { s.regs with width := v } }
  | .height => { s with regs := { s.regs with height := v } }
  | .stride => { s with regs := { s.regs with stride := v } }
  | .slen => { s with regs := { s.regs with slen := v } }
  | .rlen => { s with regs := { s.regs with rlen := v } }
  | .tpos => { s with regs := { s.regs with tpos := v } }
  | .tend => { s with regs := { s.regs with tend := v } }
  | .roww => { s with regs := { s.regs with roww := v } }
  | .rowc => { s with regs := { s.regs with rowc := v } }
  | .sampw => s
  | .ridx => s
  | .ycc => { s with regs := { s.regs with ycc := v &&& 0x00FFFFFF } }
  | .rgb => s

/-- The reset line (R58, R280, R281): registers and STATUS at their reset values, the ROM the registry's image, IN and
OUT unspecified (a fresh draw), no command running. The outside world's own fields are not the block's and stay. -/
def State.resetBlock (s : State) : State :=
  { State.resetOf s.cfg s.draws with host := s.host, reply := s.reply }

end Sys2Proof.Machine
end

