-- ==== Sys2Proof/Machine/Flags.lean ====
section
/-! DEFINITION. The flags the commands compute, and the interrupt output. BUSY, DONE, ERR and ECODE are the same for
every command (R25) and stand in `endStatus`; SHORT and FOUND are each command's own. -/

namespace Sys2Proof.Machine

/-- SHORT of `cond` and `decode`: the required length exceeds the declared length (R152, R169). -/
def shortFlag (declared required : Nat) : Bool := decide (declared < required)

/-- FOUND of `lkname` and `lkid`: an entry matched (R132, R133). -/
def foundFlag (i : Option Nat) : Bool := i.isSome

/-- The interrupt output: `irq = CTRL.IE and STATUS.DONE` (R26). -/
def State.irq (s : State) : Bool := s.ctrl.getLsbD 0 && s.status.done

end Sys2Proof.Machine
end

