-- ==== Sys2Proof/Machine/Operands.lean ====
section
/-! DEFINITION. The operand forms of the commands: signed and unsigned registers (R11), the text window (R34), the
fields of YCC (R37), the geometry of a frame (R165). -/

namespace Sys2Proof.Machine

/-- `u32` (R11). -/
def u32 (v : Word) : Nat := v.toNat

/-- `s32` (R11): two's complement. -/
def s32 (v : Word) : Int := v.toInt

/-- The value RIDX takes when no entry matched (R36). -/
def noIndex : Word := 0xFFFFFFFF

/-- The check every text command makes first (R250): a non-empty text that runs beyond IN. -/
def State.textTooLong (s : State) : Bool :=
  decide (u32 s.regs.tpos < u32 s.regs.tend ∧ s.cfg.inSize < u32 s.regs.tend)

/-- The text: the bytes `IN[p]`, `TPOS <= p < TEND` (R34). Empty when `TPOS >= TEND`. -/
def State.text (s : State) : List Byte := s.inBytes (u32 s.regs.tpos) (u32 s.regs.tend - u32 s.regs.tpos)

/-- `YCC.Y`, bits 7:0 (R37). -/
def yccY (v : Word) : Byte := byteOf v 0

/-- `YCC.CB`, bits 15:8 (R37). -/
def yccCb (v : Word) : Byte := byteOf v 1

/-- `YCC.CR`, bits 23:16 (R37). -/
def yccCr (v : Word) : Byte := byteOf v 2

/-- What a scanner is given: width, height, effective stride, required length, read limit (R161, R165). -/
structure Geometry where
  w      : Nat
  h      : Nat
  stride : Nat
  req    : Nat
  lim    : Nat
  deriving DecidableEq, Repr

/-- Bytes per pixel of a format's first plane (R162). -/
def bytesPerPixel : Format → Nat
  | .nv12 | .grey => 1
  | .sbggr10 | .sgbrg10 | .srggb10 | .sgrbg10 => 2

/-- The effective stride (R165, R166): STRIDE when positive, else `w * bpp`. -/
def effStride (f : Format) (w : Nat) (st : Int) : Nat := if 0 < st then st.toNat else bytesPerPixel f * w

/-- The required length (R165): `S * h`, and for NV12 `S * (h + ceil(h / 2))`. -/
def requiredLen : Format → Nat → Nat → Nat
  | .nv12, stride, h => stride * (h + (h + 1) / 2)
  | .grey, stride, h | .sbggr10, stride, h | .sgbrg10, stride, h | .srggb10, stride, h | .sgrbg10, stride, h =>
    stride * h

/-- The geometry of `decode` for a format, with WIDTH and HEIGHT positive (R165). -/
def State.geometry (s : State) (f : Format) : Geometry :=
  let w := (s32 s.regs.width).toNat
  let h := (s32 s.regs.height).toNat
  let stride := effStride f w (s32 s.regs.stride)
  let req := requiredLen f stride h
  { w := w, h := h, stride := stride, req := req, lim := min (u32 s.regs.slen) req }

end Sys2Proof.Machine
end

