-- ==== Sys2Proof/Machine/BitUnpacker.lean ====
section
/-! DEFINITION. Unit BUP: `hexdec` (R214) and `unpk10` (R224). -/

namespace Sys2Proof.Machine

/-! ### Hex text to bytes -/

/-- A point of the decoder's walk: its registers and OUT, or the error that ended it. -/
inductive HexRun
  | going (h : HexRegs) (out : Memory)
  | failed (e : Error)
  deriving DecidableEq, Repr

/-- The decoder's registers when `hexdec` starts (R51). -/
def hexStart (p : Nat) : HexRegs :=
  { p := p, runLen := 0, runVal := 0, rowBytes := 0, firstW := 0, rows := 0, outPtr := 0 }

/-- A hex digit extends the run (R212, R214). -/
def hexDigit (c : Byte) (h : HexRegs) : HexRegs :=
  { h with runLen := min (h.runLen + 1) 3, runVal := BitVec.ofNat 8 (16 * h.runVal.toNat + hexVal c) }

/-- Close the run, if any (R213, R214): two digits are a byte, any other number is `InvalidValueWidth`. -/
def closeRun (outSize : Nat) (h : HexRegs) (out : Memory) : HexRun :=
  if h.runLen = 2 then
    if outSize ≤ h.outPtr then .failed .allocationFailed
    else
      .going { h with outPtr := h.outPtr + 1, rowBytes := h.rowBytes + 1, runLen := 0, runVal := 0 }
        (out.put h.outPtr h.runVal)
  else if h.runLen ≠ 0 then .failed .invalidValueWidth
  else .going { h with runLen := 0, runVal := 0 } out

/-- Close the row (R213 to R215): empty rows are skipped, the first other row sets the width. -/
def closeRow (h : HexRegs) (out : Memory) : HexRun :=
  if h.rowBytes = 0 then .going { h with rowBytes := 0 } out
  else if h.firstW = 0 then .going { h with firstW := h.rowBytes, rows := 1, rowBytes := 0 } out
  else if h.rowBytes = h.firstW then .going { h with rows := h.rows + 1, rowBytes := 0 } out
  else .failed .inconsistentRowWidth

/-- A row closer closes the run first, then the row (R213). -/
def closeBoth (outSize : Nat) (h : HexRegs) (out : Memory) : HexRun :=
  match closeRun outSize h out with
  | .going h' out' => closeRow h' out'
  | .failed e => .failed e

/-- One character of the text (R211, R214). -/
def hexChar (outSize : Nat) (c : Byte) (h : HexRegs) (out : Memory) : HexRun :=
  if isHex c then .going (hexDigit c h) out
  else if c = newline then closeBoth outSize h out
  else closeRun outSize h out

/-- The walk over the text; after its last byte comes the end-of-stream event (R211, R214). -/
def hexLoop (outSize : Nat) : List Byte → HexRegs → Memory → HexRun
  | [], h, out => closeBoth outSize h out
  | c :: t, h, out =>
    match hexChar outSize c h out with
    | .going h' out' => hexLoop outSize t { h' with p := h'.p + 1 } out'
    | .failed e => .failed e

/-- `hexdec` ends with an error: ROWW and ROWC keep their values and every byte of OUT is unspecified (R217). -/
def hexFail (s : State) (e : Error) : Host.Outcome State Fault Refusal := raise s.spoilOut e

/-- `hexdec` (R214). -/
def execHexdec (s : State) : Host.Outcome State Fault Refusal :=
  if s.textTooLong then hexFail s .allocationFailed
  else
    let s1 := s.setUnit (.hex (hexStart (u32 s.regs.tpos)))
    match hexLoop s.cfg.outSize s.text s1.hex s.outMem with
    | .failed e => hexFail s e
    | .going h out =>
      complete
        { s1.setUnit (.hex h) with
          outMem := out
          regs := { s.regs with roww := BitVec.ofNat 32 h.firstW, rowc := BitVec.ofNat 32 h.rows } }
        false false

/-! ### 10-bit samples -/

/-- `SW`: samples in a row of `rw` bytes (R221). -/
def sampleWidth (rw : Nat) : Nat := 8 * rw / 10

/-- Sample `k` of the row that starts at `IN[base]` (R222): ten bits of a big-endian pair of bytes. -/
def State.sample (s : State) (base k : Nat) : Nat :=
  let i := 10 * k / 8
  let j := 10 * k % 8
  let pair := 256 * (s.inByte (base + i)).toNat + (s.inByte (base + i + 1)).toNat
  (pair >>> (6 - j)) &&& 0x3FF

/-- The next sample position (R52). -/
def unpkNext (sw : Nat) (u : UnpkRegs) : UnpkRegs :=
  if u.k + 1 < sw then { u with k := u.k + 1 } else { r := u.r + 1, k := 0 }

/-- `n` sample steps from a position: each writes one 16-bit little-endian word (R224). -/
def unpkLoop (s : State) (rw sw : Nat) : Nat → UnpkRegs → Memory → UnpkRegs × Memory
  | 0, u, out => (u, out)
  | n + 1, u, out =>
    let v := s.sample (u.r * rw) u.k
    unpkLoop s rw sw n (unpkNext sw u)
      (out.putBytes (2 * (u.r * sw + u.k)) [BitVec.ofNat 8 (v % 256), BitVec.ofNat 8 (v >>> 8)])

/-- `unpk10` (R224): `ROWC * SW` samples; SAMPW is set also when there are none. -/
def execUnpk10 (s : State) : Host.Outcome State Fault Refusal :=
  let rw := u32 s.regs.roww
  let rc := u32 s.regs.rowc
  let sw := sampleWidth rw
  if s.cfg.inSize < rw * rc ∨ s.cfg.outSize < 2 * sw * rc then raise s .allocationFailed
  else
    let s1 := s.setUnit (.unpk { r := 0, k := 0 })
    let e := unpkLoop s rw sw (rc * sw) s1.unpk s.outMem
    complete
      { s1.setUnit (.unpk e.1) with outMem := e.2, regs := { s.regs with sampw := BitVec.ofNat 32 sw } } false false

end Sys2Proof.Machine
end

