-- ==== Sys2Proof/Machine/Conditioner.lean ====
section
/-! DEFINITION. Unit CND: `cond` (R152). Its other half, the conditioned read, is `State.srcRead` (R66). -/

namespace Sys2Proof.Machine

/-- Write `rd a` at `a`, for `n` addresses from `a` on, in increasing order. -/
def copyLoop (rd : Nat → Byte) : Nat → Nat → Memory → Memory
  | 0, _, m => m
  | n + 1, a, m => copyLoop rd n (a + 1) (m.put a (rd a))

/-- `cond` (R152): RLEN bytes of the conditioned source to OUT; SHORT says that zeros were added. -/
def execCond (s : State) : Host.Outcome State Fault Refusal :=
  let d := u32 s.regs.slen
  let q := u32 s.regs.rlen
  if s.cfg.inSize < d ∨ s.cfg.outSize < q then raise s .allocationFailed
  else complete { s with outMem := copyLoop (s.srcRead (min d q)) q 0 s.outMem } (shortFlag d q) false

end Sys2Proof.Machine
end

