-- ==== Sys2Proof/Machine/Colorimetric.lean ====
section
/-! DEFINITION. Unit CSC: the fixed-point YCbCr to RGB transform (R201) and `csc` (R202). -/

namespace Sys2Proof.Machine

/-- An RGB pixel: three bytes in the order R, G, B. -/
structure Rgb where
  r : Byte
  g : Byte
  b : Byte
  deriving DecidableEq, Repr

/-- `ycbcr_to_rgb` (R201), in exact signed integers; `>> 8` is the floor of the quotient by 256 (R10). -/
def ycbcrToRgb (y cb cr : Byte) : Rgb :=
  let c : Int := y.toNat - 16
  let d : Int := cb.toNat - 128
  let e : Int := cr.toNat - 128
  { r := clamp8 ((298 * c + 409 * e + 128) / 256)
    g := clamp8 ((298 * c - 100 * d - 208 * e + 128) / 256)
    b := clamp8 ((298 * c + 516 * d + 128) / 256) }

/-- `R + 256*G + 65536*B` (R202). -/
def rgbWord (px : Rgb) : Word := BitVec.ofNat 32 (px.r.toNat + 256 * px.g.toNat + 65536 * px.b.toNat)

/-- `csc` (R202): one pixel, YCC to RGB. No error. -/
def execCsc (s : State) : Host.Outcome State Fault Refusal :=
  let px := ycbcrToRgb (yccY s.regs.ycc) (yccCb s.regs.ycc) (yccCr s.regs.ycc)
  complete { s with regs := { s.regs with rgb := rgbWord px } } false false

end Sys2Proof.Machine
end

