-- ==== Sys2Proof/Machine/PixelDecoder.lean ====
section
/-! DEFINITION. Unit PXD: `decode` (R161) with its six scanners (R170, R171, R180, R186 to R189). -/

namespace Sys2Proof.Machine

/-- `HOLD_INIT` (R6): what the hold registers start from at every `decode`. -/
def holdInit : Byte := 0

/-- The phase origin `(oddRow0, oddPixel0)` of a Bayer format (R162); NV12 and GREY have none and do not use it. -/
def phaseOrigin : Format → Bool × Bool
  | .sbggr10 => (true, false)
  | .sgbrg10 => (true, true)
  | .srggb10 => (false, true)
  | .sgrbg10 => (false, false)
  | .nv12 | .grey => (false, false)

/-- The decoder's registers when `decode` starts (R53, R54). -/
def pxdStart (f : Format) : PxdRegs :=
  { r := 0, c := 0, hR := holdInit, hG := holdInit, hB := holdInit, oddRow := (phaseOrigin f).1,
    oddPixel := (phaseOrigin f).2 }

/-- To the next pixel in row-major order: the pixel parity toggles once per sample and restarts at the row's start, the
row parity toggles once per completed row (R180, R185). -/
def pxdNext (f : Format) (w : Nat) (p : PxdRegs) : PxdRegs :=
  if p.c + 1 < w then { p with c := p.c + 1, oddPixel := !p.oddPixel }
  else { p with r := p.r + 1, c := 0, oddRow := !p.oddRow, oddPixel := (phaseOrigin f).2 }

/-- `narrow8` (R183). -/
def narrow8 (n : Narrow) (t : Nat) : Byte :=
  match n with
  | .sat => BitVec.ofNat 8 (min t 255)
  | .trunc => BitVec.ofNat 8 (t % 256)

/-- The 16-bit little-endian word of a Bayer site, through the conditioned read (R180, R183). -/
def State.bayerWord (s : State) (g : Geometry) (r c : Nat) : Nat :=
  let a := r * g.stride + 2 * c
  (s.srcRead g.lim a).toNat + 256 * (s.srcRead g.lim (a + 1)).toNat

/-- The 8-bit sample of a Bayer site (R183). -/
def State.bayerSample (s : State) (g : Geometry) (r c : Nat) : Byte := narrow8 s.cfg.narrow (s.bayerWord g r c >>> 2)

/-- The hold register a site's sample goes to (R181). -/
def holdSample (p : PxdRegs) (v : Byte) : PxdRegs :=
  match p.oddRow, p.oddPixel with
  | false, false => { p with hG := v }
  | false, true => { p with hR := v }
  | true, false => { p with hB := v }
  | true, true => { p with hG := v }

/-- A Bayer pixel: update one hold register, then put out all three (R180, R184). -/
def bayerPixel (s : State) (g : Geometry) (p : PxdRegs) : PxdRegs × Rgb :=
  let p' := holdSample p (s.bayerSample g p.r p.c)
  (p', { r := p'.hR, g := p'.hG, b := p'.hB })

/-- A GREY pixel: `(v, v, v)` (R170). -/
def greyPixel (s : State) (g : Geometry) (p : PxdRegs) : PxdRegs × Rgb :=
  let v := s.srcRead g.lim (p.r * g.stride + p.c)
  (p, { r := v, g := v, b := v })

/-- The address of a pixel's Cb byte (R171). -/
def chromaAddr (g : Geometry) (r c : Nat) : Nat := g.stride * g.h + r / 2 * g.stride + 2 * (c / 2)

/-- An NV12 pixel: luma, the chroma pair of its 2x2 block, the colour converter (R171). -/
def nv12Pixel (s : State) (g : Geometry) (p : PxdRegs) : PxdRegs × Rgb :=
  let ca := chromaAddr g p.r p.c
  (p, ycbcrToRgb (s.srcRead g.lim (p.r * g.stride + p.c)) (s.srcRead g.lim ca) (s.srcRead g.lim (ca + 1)))

/-- The scanner of each format (R162): SBGGR10 R186, SGBRG10 R187, SRGGB10 R188, SGRBG10 R189 are the Bayer scanner
with their own phase origin. -/
def pixelOf : Format → State → Geometry → PxdRegs → PxdRegs × Rgb
  | .nv12 => nv12Pixel
  | .grey => greyPixel
  | .sbggr10 => bayerPixel
  | .sgbrg10 => bayerPixel
  | .srggb10 => bayerPixel
  | .sgrbg10 => bayerPixel

/-- `n` pixel steps: each writes R, G, B at `OUT[3*(r*w + c)]` (R168). -/
def scanLoop (f : Format) (s : State) (g : Geometry) : Nat → PxdRegs → Memory → PxdRegs × Memory
  | 0, p, out => (p, out)
  | n + 1, p, out =>
    let e := pixelOf f s g p
    scanLoop f s g n (pxdNext f g.w e.1) (out.putBytes (3 * (p.r * g.w + p.c)) [e.2.r, e.2.g, e.2.b])

/-- The whole scan of a frame: `h * w` pixel steps from the start position (R97, R168). -/
def scanFrame (f : Format) (s : State) (g : Geometry) : State :=
  let s1 := s.setUnit (.pxd (pxdStart f))
  let e := scanLoop f s g (g.h * g.w) s1.pxd s.outMem
  { s1.setUnit (.pxd e.1) with outMem := e.2 }

/-- `decode` (R161): the format, the geometry, the capacity, then the scanner. -/
def execDecode (s : State) : Host.Outcome State Fault Refusal :=
  match formatOf s.cfg s.regs.fmt with
  | none => raise s .unsupportedFormat
  | some f =>
    let g := s.geometry f
    if s32 s.regs.width ≤ 0 ∨ s32 s.regs.height ≤ 0 then raise s .geometryInvalid
    else if s.cfg.inSize < u32 s.regs.slen ∨ s.cfg.outSize < 3 * g.w * g.h then raise s .allocationFailed
    else complete (scanFrame f s g) (shortFlag (u32 s.regs.slen) g.req) false

end Sys2Proof.Machine
end

