-- ==== Sys2Proof/Machine/SymbolParser.lean ====
section
/-! DEFINITION. Unit FRS: `parse.n` (R130), `parse.r` (R131), `lkname` (R132), `lkid` (R133). -/

namespace Sys2Proof.Machine

/-- One digit taken (R126): `v <- base*v + digit` in the 32-bit accumulator (R50), the cursor one on. `past32` keeps that
the value has passed 32 bits: it never falls below `2^32` again. -/
def FrsRegs.takeDigit (base d : Nat) (f : FrsRegs) : FrsRegs :=
  let v := base * f.acc.toNat + d
  { f with p := f.p + 1, acc := BitVec.ofNat 32 v, past32 := f.past32 || decide (2 ^ 32 ≤ v) }

/-- One radix of R126: while the next byte is a digit of the radix it is taken. -/
def numLoop (base : Nat) (ok : Byte → Bool) (val : Byte → Nat) : List Byte → FrsRegs → FrsRegs
  | [], f => f
  | b :: t, f =>
    if ok b then numLoop base ok val t (f.takeDigit base (val b)) else f

/-- The text starts with `0x` or `0X` and a hex digit (R126). -/
def hasHexPrefix (t : List Byte) : Bool :=
  t[0]? == some 0x30 && (t[1]? == some 0x78 || t[1]? == some 0x58) && t[2]?.any isHex

/-- `numeric` (R126) on the text from the cursor: hexadecimal, octal or decimal, the longest valid literal. The
value is `acc`, exact unless `past32`. -/
def numeric (t : List Byte) (f : FrsRegs) : FrsRegs :=
  if hasHexPrefix t then numLoop 16 isHex hexVal (t.drop 2) { f with p := f.p + 2, acc := 0, past32 := false }
  else if t[0]? == some 0x30 then
    numLoop 8 isOctal digitVal (t.drop 1) { f with p := f.p + 1, acc := 0, past32 := false }
  else numLoop 10 isDigit digitVal t { f with acc := 0, past32 := false }

/-- `matches` (R129): same length and equal under `fold`, byte for byte. -/
def nameMatches (tok nm : List Byte) : Bool := tok.map fold == nm.map fold

/-- `lookup_name` (R129): the least entry whose name matches. -/
def State.lookupName (s : State) (tok : List Byte) : Option Nat :=
  (List.range s.nreg).find? fun i => nameMatches tok (s.entryName i)

/-- `lookup_by_id` (R133): the least entry with this id. -/
def State.lookupId (s : State) (id : Word) : Option Nat :=
  (List.range s.nreg).find? fun i => s.entryId i == id

/-- The value of RIDX for a lookup's answer (R36). -/
def ridxOf : Option Nat → Word
  | none => noIndex
  | some i => BitVec.ofNat 32 i

/-- The parser's registers when a command starts: cursor at TPOS, accumulator and index 0 (R50). -/
def State.startFrs (s : State) : State :=
  s.setUnit (.frs { p := u32 s.regs.tpos, acc := 0, past32 := false, index := 0 })

/-- The three results of a successful parse: FMT, TPOS, RIDX (R130, R131). -/
def State.resolve (s : State) (fmt : Word) (p : Nat) (ridx : Word) : State :=
  { s with regs := { s.regs with fmt := fmt, tpos := BitVec.ofNat 32 p, ridx := ridx } }

/-- The numeric path (R130, R131): FMT is the literal's value, or a draw when it is `2^32` or more (R128). -/
def takeNumber (t : List Byte) (s : State) : Host.Outcome State Fault Refusal :=
  let f := numeric t s.startFrs.frs
  let s1 := s.startFrs.setUnit (.frs f)
  if !f.past32 then complete (s1.resolve f.acc f.p noIndex) false false
  else complete { s1.resolve (Config.numOverflow s.draws) f.p noIndex with draws := s.draws + 1 } false false

/-- The name token at the start of a text: the longest run of word bytes (R125 (c)). -/
def nameToken (t : List Byte) : List Byte := t.takeWhile isWord

/-- The name path of `parse.r` (R131): the whole token is looked up. -/
def takeName (t : List Byte) (s : State) : Host.Outcome State Fault Refusal :=
  let f := { s.startFrs.frs with p := s.startFrs.frs.p + (nameToken t).length }
  match s.lookupName (nameToken t) with
  | none => raise s .symbolNotFound
  | some i =>
    complete ((s.startFrs.setUnit (.frs { f with index := i })).resolve (s.entryId i) f.p (BitVec.ofNat 32 i)) false true

/-- The part `parse.n` and `parse.r` share (R125, R130, R131): the text check, the empty symbol, the numeric path; a
text that starts with a letter or underscore goes to `onName`. -/
def parseToken (onName : List Byte → State → Host.Outcome State Fault Refusal) (s : State) :
    Host.Outcome State Fault Refusal :=
  if s.textTooLong then raise s .allocationFailed
  else
    match s.text with
    | [] => raise s .emptySymbol
    | b :: t =>
      if !isWord b then raise s .emptySymbol
      else if isDigit b then takeNumber (b :: t) s
      else onName (b :: t) s

/-- `parse.n` (R130): with no registry supplied a name is `NumericOnlyExpected`. -/
def execParseN (s : State) : Host.Outcome State Fault Refusal :=
  parseToken (fun _ s => raise s .numericOnlyExpected) s

/-- `parse.r` (R131): with the registry supplied a name is looked up. -/
def execParseR (s : State) : Host.Outcome State Fault Refusal := parseToken takeName s

/-- `lkname` (R132): the whole text is the name; not found is not an error. -/
def execLkname (s : State) : Host.Outcome State Fault Refusal :=
  if s.textTooLong then raise s .allocationFailed
  else
    let i := if s.text = [] then none else s.lookupName s.text
    let fmt := match i with
      | none => s.regs.fmt
      | some j => s.entryId j
    complete { s.startFrs with regs := { s.regs with fmt := fmt, ridx := ridxOf i } } false (foundFlag i)

/-- `lkid` (R133): not found is not an error, FMT is not changed. -/
def execLkid (s : State) : Host.Outcome State Fault Refusal :=
  let i := s.lookupId s.regs.fmt
  complete { s with regs := { s.regs with ridx := ridxOf i } } false (foundFlag i)

end Sys2Proof.Machine
end

