-- ==== Sys2Proof/Syntax.lean ====
section
/-! DEFINITION. The nine commands of R92, one constructor per row of the command table. A command has no operand
fields (R90, R93): every operand is a fixed register. -/

namespace Sys2Proof

/-- A command of the engine (R92). -/
inductive Instr
  /-- `parse.n` (R130): a numeric literal, no registry supplied. -/
  | parseN
  /-- `parse.r` (R131): a registry name or a numeric literal. -/
  | parseR
  /-- `lkname` (R132): look a name up. -/
  | lkname
  /-- `lkid` (R133): look an id up. -/
  | lkid
  /-- `cond` (R152): the conditioned copy of IN to OUT. -/
  | cond
  /-- `hexdec` (R214): hex text to bytes. -/
  | hexdec
  /-- `unpk10` (R224): packed 10-bit samples to 16-bit words. -/
  | unpk10
  /-- `decode` (R161): a source frame to an RGB raster. -/
  | decode
  /-- `csc` (R202): one YCbCr triple to RGB. -/
  | csc
  deriving DecidableEq, Repr

end Sys2Proof
end

