-- ==== Sys2Proof/Machine/Dispatch.lean ====
section
/-! DEFINITION. One arm per command (R92). -/

namespace Sys2Proof.Machine

def exec (i : Instr) (s : State) : Host.Outcome State Fault Refusal :=
  match i with
  | .parseN => Sys2Proof.Machine.execParseN s
  | .parseR => Sys2Proof.Machine.execParseR s
  | .lkname => Sys2Proof.Machine.execLkname s
  | .lkid => Sys2Proof.Machine.execLkid s
  | .cond => Sys2Proof.Machine.execCond s
  | .hexdec => Sys2Proof.Machine.execHexdec s
  | .unpk10 => Sys2Proof.Machine.execUnpk10 s
  | .decode => Sys2Proof.Machine.execDecode s
  | .csc => Sys2Proof.Machine.execCsc s

end Sys2Proof.Machine
end

