-- ==== Sys2Proof/WellFormed.lean ====
section
/-! DEFINITION. Well-formedness. A command has no fields, so every term of `Instr` is well-formed (R90, R93). An
instance's parameters are checked against R6 and R121, check by check. -/

namespace Sys2Proof

/-- Every command is well-formed: it carries no register numbers and no immediates (R90, R93). -/
def Instr.wf : Instr → Bool
  | .parseN | .parseR | .lkname | .lkid | .cond | .hexdec | .unpk10 | .decode | .csc => true

/-- `1 <= IN_SIZE <= 2^24` and the same for `OUT_SIZE` (R6). -/
def Config.sizesOk (c : Config) : Bool :=
  decide (1 ≤ c.inSize ∧ c.inSize ≤ 2 ^ 24 ∧ 1 ≤ c.outSize ∧ c.outSize ≤ 2 ^ 24)

/-- `10 <= NREG <= 128` (R6). -/
def Config.countOk (c : Config) : Bool := decide (10 ≤ c.registry.length ∧ c.registry.length ≤ 128)

/-- `1 <= len(i) <= NAME_MAX = 27` (R120). -/
def Config.lengthsOk (c : Config) : Bool := c.registry.all fun e => decide (1 ≤ e.name.length ∧ e.name.length ≤ 27)

/-- Every byte of every name is a word byte, letters upper case (R121 (b)). -/
def Config.lettersOk (c : Config) : Bool :=
  c.registry.all fun e => e.name.all fun b => Machine.isWord b && Machine.fold b == b

/-- No two entries have equal names; names are upper case, so this is uniqueness under `fold` (R121 (a)). -/
def Config.namesUnique (c : Config) : Bool :=
  decide ((c.registry.map fun e => e.name.map Machine.fold).Nodup)

/-- The ten names of R121 (c) are there. -/
def Config.namesPresent (c : Config) : Bool :=
  (Machine.allFormats.map Machine.formatName ++ Machine.compressedNames).all fun nm =>
    c.registry.any fun e => e.name == nm

/-- The six supported ids differ from each other and from every other entry's id (R121 (d)): each is the id of one
entry only. -/
def Config.idsDistinct (c : Config) : Bool :=
  Machine.allFormats.all fun f =>
    c.registry.countP (fun e => some e.id == Machine.formatId c f) == 1

/-- The constraints every instance meets (R6, R120, R121). -/
def Config.wf (c : Config) : Bool :=
  c.sizesOk && c.countOk && c.lengthsOk && c.lettersOk && c.namesUnique && c.namesPresent && c.idsDistinct

end Sys2Proof
end

