-- ==== Sys2Proof/Decode.lean ====
section
/-! DEFINITION. The command decoder (R91, R94) and the encoder (R90, R92). -/

namespace Sys2Proof

/-- Why a command word is illegal: the classes R94 lists. The engine treats them alike (IllegalCommand). -/
inductive IllegalWord
  /-- `OP = 0`, the all-zero word among them. -/
  | opZero
  /-- `OP` in 9 to 15. -/
  | opReserved
  /-- A bit of 7:4 or 31:9 is set. -/
  | reservedBits
  /-- `REG = 1` with `OP` other than 1. -/
  | regMisused
  deriving DecidableEq, Repr

/-- What the decoder answers for a word. -/
inductive Decoded
  | ok (i : Instr)
  | illegal (why : IllegalWord)
  deriving DecidableEq, Repr

/-- The command table: each `match` word with its command (R92). -/
def commandTable : List (Word × Instr) :=
  [(0x00000001, .parseN), (0x00000101, .parseR), (0x00000002, .lkname), (0x00000003, .lkid), (0x00000004, .cond),
    (0x00000005, .hexdec), (0x00000006, .unpk10), (0x00000007, .decode), (0x00000008, .csc)]

/-- OP, bits 3:0 of a command word (R90). -/
def opField (w : Word) : Nat := w.toNat % 16

/-- Bits 7:4 and 31:9, which must be 0 (R90). -/
def reservedField (w : Word) : Word := w &&& 0xFFFFFEF0

/-- The class of R94 a word outside the table belongs to. -/
def illegalClass (w : Word) : IllegalWord :=
  if reservedField w ≠ 0 then .reservedBits
  else if opField w = 0 then .opZero
  else if 9 ≤ opField w then .opReserved
  else .regMisused

/-- R91: a word is a command if and only if all 32 bits equal a `match` value. -/
def decode (w : Word) : Decoded :=
  match commandTable.find? fun row => row.1 == w with
  | some row => .ok row.2
  | none => .illegal (illegalClass w)

/-- OP and REG of each command (R92). -/
def opReg : Instr → Nat × Nat
  | .parseN => (1, 0)
  | .parseR => (1, 1)
  | .lkname => (2, 0)
  | .lkid => (3, 0)
  | .cond => (4, 0)
  | .hexdec => (5, 0)
  | .unpk10 => (6, 0)
  | .decode => (7, 0)
  | .csc => (8, 0)

/-- The word of a command, laid out as R90 says: OP in bits 3:0, REG in bit 8, all else 0. -/
def encode (i : Instr) : Word := BitVec.ofNat 32 (opReg i).1 ||| (BitVec.ofNat 32 (opReg i).2 <<< 8)

/-- The host's question: the command the decoder reads from an instruction whose low `nbits` bits are `w`. A command
is one 32-bit word (R95). -/
def decodeTableWord (nbits w : Nat) : Option Instr :=
  match decode (BitVec.ofNat 32 (w % 2 ^ nbits)) with
  | .ok i => some i
  | .illegal _ => none

end Sys2Proof
end

