-- ==== Sys2Proof/Machine/HostAccess.lean ====
section
/-! DEFINITION. What the host can do to the block: the flat window (R60), its access rules (R63, R64), the busy rule
(R286), reset (R280), and the host notation of R100 to R102 as lists of events. -/

namespace Sys2Proof.Machine

/-! ### The flat window -/

/-- The four address spaces (R60). -/
inductive Space
  | regs
  | rom
  | input
  | output
  deriving DecidableEq, Repr

/-- Which space an offset lies in, and where in it; none where the window is unmapped (R60). -/
def locate (cfg : Config) (off : Nat) : Option (Space × Nat) :=
  if off < 0x1000 then some (.regs, off)
  else if off < 0x1000 + 32 * cfg.registry.length then some (.rom, off - 0x1000)
  else if 0x1000000 ≤ off ∧ off < 0x1000000 + cfg.inSize then some (.input, off - 0x1000000)
  else if 0x2000000 ≤ off ∧ off < 0x2000000 + cfg.outSize then some (.output, off - 0x2000000)
  else none

/-- The bytes of an access (R63, R64). -/
def widthBytes : Width → Nat
  | .byte => 1
  | .half => 2
  | .word => 4

/-- How an access is served (R60, R63, R64). -/
inductive Route
  /-- Every byte is unmapped: a read returns 0, a write is ignored (R60). -/
  | unmapped
  /-- The register at an aligned word offset, or a reserved offset (R29, R63). -/
  | register (off : Nat)
  /-- Bytes of ROM, IN or OUT from an address on, all inside the memory (R64). -/
  | bytes (sp : Space) (a : Nat)
  /-- Outside the contract (U9). -/
  | refused (why : Refusal)
  deriving DecidableEq, Repr

/-- Route an access of `n` bytes at `off` (R60, R63, R64, U9; notes/assumptions/11.md, notes/assumptions/13.md). -/
def route (cfg : Config) (n off : Nat) : Route :=
  if (List.range n).all fun i => (locate cfg (off + i)).isNone then .unmapped
  else
    match locate cfg off with
    | some (.regs, o) => if n = 4 ∧ o % 4 = 0 then .register o else .refused .hostRegisterAccess
    | some (sp, a) =>
      if off % n = 0 ∧ ((List.range n).all fun i => locate cfg (off + i) == some (sp, a + i)) then .bytes sp a
      else .refused .hostWideAccess
    | none => .refused .hostWideAccess

/-- One byte of a memory as the host reads it (R60). REGS is never read by bytes. -/
def State.spaceByte (s : State) (sp : Space) (a : Nat) : Byte :=
  match sp with
  | .rom => s.romByte a
  | .input => s.inByte a
  | .output => s.outByte a
  | .regs => 0

/-- The word a host read returns (R13, R64): registers whole, memories little-endian, zero-extended. -/
def State.hostReadValue (s : State) (n off : Nat) : Except Refusal Word :=
  match route s.cfg n off with
  | .unmapped => .ok 0
  | .register o => .ok ((regAt o).elim 0 s.readReg)
  | .bytes sp a => .ok (leWord ((List.range n).map fun i => s.spaceByte sp (a + i)))
  | .refused why => .error why

/-- A host read while the block is idle: the value goes to the host, nothing else changes (R38). -/
def hostRead (n off : Nat) (s : State) : Host.Outcome State Fault Refusal :=
  match s.hostReadValue n off with
  | .ok v => .next { s with reply := some v }
  | .error why => .refused why

/-- A host write while the block is idle: registers by name, IN by bytes; ROM, OUT, reserved and unmapped offsets
ignore it (R29, R60; notes/assumptions/10.md). -/
def hostWrite (n off : Nat) (v : Word) (s : State) : Host.Outcome State Fault Refusal :=
  match route s.cfg n off with
  | .unmapped => .next s
  | .register o => .next ((regAt o).elim s (s.writeReg v))
  | .bytes .input a => .next { s with inMem := s.inMem.putBytes a (leBytes v n) }
  | .bytes _ _ => .next s
  | .refused why => .refused why

/-- The host reads a byte and writes it elsewhere (R78, R101 `copy`). -/
def hostMove (dst src : Nat) (s : State) : Host.Outcome State Fault Refusal :=
  match s.hostReadValue 1 src with
  | .ok v => hostWrite 1 dst v { s with reply := some v }
  | .error why => .refused why

/-- A host event while the block is idle (R79, R280). -/
def hostIdle (op : HostOp) (s : State) : Host.Outcome State Fault Refusal :=
  match op with
  | .read w off => hostRead (widthBytes w) off s
  | .write w off v => hostWrite (widthBytes w) off v s
  | .move dst src => hostMove dst src s
  | .reset => .next s.resetBlock

/-- What a STATUS read returns while a command runs: BUSY = 1, the other bits unspecified, a draw (R286, U10). -/
def State.busyStatus (s : State) : Word := Config.statusWhileBusy s.draws ||| 1

/-- A host event while a command runs (R286): a STATUS read, or the reset that abandons the command (R280); anything
else is outside the contract (U7). -/
def hostBusy (op : HostOp) (s : State) : Host.Outcome State Fault Refusal :=
  match op with
  | .read .word 0x04 => .next { s with reply := some s.busyStatus, draws := s.draws + 1 }
  | .reset => .next s.resetBlock
  | _ => .refused .hostWhileBusy

/-! ### Host notation (R100 to R102) -/

/-- An event that falls after the running command has ended. -/
def lateEvent (op : HostOp) : HostEvent := { op := op, early := false }

/-- `wr NAME, value` (R101). -/
def wrReg (r : RegName) (v : Word) : HostEvent := lateEvent (.write .word (regOffset r) v)

/-- `rd NAME` (R101). -/
def rdReg (r : RegName) : HostEvent := lateEvent (.read .word (regOffset r))

/-- `in off, b0 b1 ...` and, the text given as its ASCII bytes, `intext off, "text"` (R101). -/
def inBytesAt (off : Nat) : List Byte → List HostEvent
  | [] => []
  | b :: bs => lateEvent (.write .byte (0x1000000 + off) (b.setWidth 32)) :: inBytesAt (off + 1) bs

/-- `copy d, s, n` (R78, R101). -/
def copyOut (d s n : Nat) : List HostEvent :=
  (List.range n).map fun i => lateEvent (.move (0x1000000 + d + i) (0x2000000 + s + i))

/-- `wait` (R101): `n` reads of STATUS that find BUSY = 1, then one that finds BUSY = 0. The spec leaves `n` open (R292)
and the model leaves it to the caller (notes/assumptions/3.md). -/
def waitDone (n : Nat) : List HostEvent :=
  List.replicate n { rdReg .status with early := true } ++ [rdReg .status]

/-- `ack` (R101). -/
def ackEvent : HostEvent := wrReg .status 2

/-- A command line (R100): the CMD write of the command's `match` word. -/
def commandLine (i : Instr) : HostEvent := wrReg .cmd (encode i)

/-- `run <mnemonic>` (R102), its `wait` polling `n` times in vain: `n` is open (notes/assumptions/3.md). -/
def runCmd (i : Instr) (n : Nat) : List HostEvent := commandLine i :: waitDone n

/-- `parse "text"` (R102), its `run` polling `n` times in vain: `n` is open (notes/assumptions/3.md). -/
def parseText (t : List Byte) (n : Nat) : List HostEvent :=
  inBytesAt 0 t ++ [wrReg .tpos 0, wrReg .tend (BitVec.ofNat 32 t.length)] ++ runCmd .parseR n

/-- `geom w, h, s` (R102). -/
def geomRegs (w h st : Int) : List HostEvent :=
  [wrReg .width (BitVec.ofInt 32 w), wrReg .height (BitVec.ofInt 32 h), wrReg .stride (BitVec.ofInt 32 st)]

/-- `ycc y, cb, cr` (R102). -/
def yccReg (y cb cr : Nat) : HostEvent := wrReg .ycc (BitVec.ofNat 32 (y + cb * 256 + cr * 65536))

/-- `list()` (R123): NREG, then the 32 bytes of each of `n` entries of the ROM window. -/
def listRegistry (n : Nat) : List HostEvent :=
  rdReg .nreg :: (List.range (32 * n)).map fun a => lateEvent (.read .byte (0x1000 + a))

end Sys2Proof.Machine
end

