-- ==== Sys2Proof/Machine/Engine.lean ====
section
/-! DEFINITION. Whose turn it is: the engine runs the word in CMD (R91), or the host's next event happens. -/

namespace Sys2Proof.Machine

/-- The engine's turn: execute the command CMD encodes, or end with `IllegalCommand` (R23, R91, R94). -/
def runCommand (s : State) : Host.Outcome State Fault Refusal :=
  match decode s.cmd with
  | .ok i => exec i s
  | .illegal _ => raise s .illegalCommand

/-- One step while a command runs: an event that falls before the command's end, else the engine's turn. -/
def busyStep (s : State) : Host.Outcome State Fault Refusal :=
  match s.host with
  | [] => runCommand s
  | ev :: rest => if ev.early then hostBusy ev.op { s with host := rest } else runCommand s

/-- One step while the block is idle: the host's next event; with none to come the block waits (R282). DESIGN CHOICE
(notes/assumptions/24.md), unsafe: an access after a command's end is served as idle, also when the host has not yet
read STATUS with BUSY = 0, which R70 (d) and R286 ask of it first and of which the spec says nothing. -/
def idleStep (s : State) : Host.Outcome State Fault Refusal :=
  match s.host with
  | [] => .next s
  | ev :: rest => hostIdle ev.op { s with host := rest }

/-- The events with the first one moved after the running command's end. -/
def engineFirst : List HostEvent → List HostEvent
  | [] => []
  | ev :: rest => { ev with early := false } :: rest

end Sys2Proof.Machine
end

