-- ==== Sys2Proof/Machine/Step.lean ====
section
/-! DEFINITION. One step of the machine, and how the host's question places a command. -/

namespace Sys2Proof.Machine

/-- One step: a command is one atomic step of the engine (R69, R292; notes/assumptions/2.md), a host event is one
step of the host (R70). -/
def step (s : State) : Host.Outcome State Fault Refusal := if s.status.busy then busyStep s else idleStep s

/-- The word `w` handed to the engine as the CMD write of R23 hands it, so that the very next step runs it
(notes/assumptions/1.md). -/
def State.withFetchWord (s : State) (nbits w : Nat) : State :=
  { s.startCommand (BitVec.ofNat 32 (w % 2 ^ nbits)) with host := engineFirst s.host }

end Sys2Proof.Machine
end

