-- ==== Sys2Proof/Safety.lean ====
section
/-! DEFINITION. What counts as a safe state and a safe step: the invariant every step keeps, whose turn it is, and what
a host inside the contract does. -/

namespace Sys2Proof.Machine

/-- The invariant of the block. Each field is a promise of the spec that holds between any two steps. -/
structure State.Inv (s : State) : Prop where
  /-- The instance meets R6 and R121. -/
  cfgWf : s.cfg.wf = true
  /-- The ROM holds the registry's image (R45). -/
  romImage : s.rom = romImage s.cfg.registry
  /-- IN is in canonical form. -/
  inWf : s.inMem.wf
  /-- OUT is in canonical form. -/
  outWf : s.outMem.wf
  /-- Nothing is written outside IN (R46, R60). -/
  inWithin : s.inMem.within s.cfg.inSize
  /-- Nothing is written outside OUT: the capacity checks (R47, R250). -/
  outWithin : s.outMem.within s.cfg.outSize
  /-- ERR is 1 exactly when ECODE is not 0 (R24, R25). -/
  errIff : s.status.err = (s.status.ecode != 0)
  /-- Codes 10 to 15 are never produced (R241). -/
  ecodeLe : s.status.ecode.toNat ≤ 9
  /-- DONE is cleared when a command starts and set when it ends (R23, R25). -/
  busyNotDone : s.status.busy = true → s.status.done = false
  /-- SHORT and FOUND are 0 after an error (R25). -/
  errNoFlags : s.status.err = true → s.status.short = false ∧ s.status.found = false
  /-- Bits 31:1 of CTRL read as 0 (R27). -/
  ctrlReserved : s.ctrl.toNat < 2
  /-- Bits 31:24 of YCC read as 0 (R37). -/
  yccReserved : s.regs.ycc.toNat < 2 ^ 24
  /-- Bits 31:24 of RGB read as 0 (R37). -/
  rgbReserved : s.regs.rgb.toNat < 2 ^ 24
  /-- The internal state of a command exists only inside its step (R20 (e), R58). -/
  unitIdle : s.unit = .idle
  /-- The unspecified bytes of both memories come from draws already numbered (the model's own). -/
  erasDrawn : s.inMem.era < s.draws ∧ s.outMem.era < s.draws

/-- A command runs and no host event falls before its end: the next step is the engine's. -/
def State.engineTurn (s : State) : Bool :=
  s.status.busy &&
    match s.host with
    | [] => true
    | ev :: _ => !ev.early

/-- The block is idle and `op` is the host's next event, `rest` the ones after it. -/
def State.idleEvent (s : State) (op : HostOp) (rest : List HostEvent) : Prop :=
  s.status.busy = false ∧ ∃ early, s.host = { op := op, early := early } :: rest

/-- A command runs and `op` is a host event that falls before its end. -/
def State.busyEvent (s : State) (op : HostOp) (rest : List HostEvent) : Prop :=
  s.status.busy = true ∧ s.host = { op := op, early := true } :: rest

end Sys2Proof.Machine
end

