-- ==== Sys2Proof/Laws/State.lean ====
section
/-! SUPPORT. One lemma per field per named update of State, and the readers of the unit state. -/

namespace Sys2Proof.Machine

variable (s : State)

/-! ### `setUnit` -/

@[simp] theorem setUnit_cfg (u : UnitState) : (s.setUnit u).cfg = s.cfg := rfl
@[simp] theorem setUnit_cmd (u : UnitState) : (s.setUnit u).cmd = s.cmd := rfl
@[simp] theorem setUnit_status (u : UnitState) : (s.setUnit u).status = s.status := rfl
@[simp] theorem setUnit_ctrl (u : UnitState) : (s.setUnit u).ctrl = s.ctrl := rfl
@[simp] theorem setUnit_regs (u : UnitState) : (s.setUnit u).regs = s.regs := rfl
@[simp] theorem setUnit_rom (u : UnitState) : (s.setUnit u).rom = s.rom := rfl
@[simp] theorem setUnit_inMem (u : UnitState) : (s.setUnit u).inMem = s.inMem := rfl
@[simp] theorem setUnit_outMem (u : UnitState) : (s.setUnit u).outMem = s.outMem := rfl
@[simp] theorem setUnit_unit (u : UnitState) : (s.setUnit u).unit = u := rfl
@[simp] theorem setUnit_draws (u : UnitState) : (s.setUnit u).draws = s.draws := rfl
@[simp] theorem setUnit_host (u : UnitState) : (s.setUnit u).host = s.host := rfl
@[simp] theorem setUnit_reply (u : UnitState) : (s.setUnit u).reply = s.reply := rfl

/-! ### `finish` -/

@[simp] theorem finish_cfg (e : BitVec 4) (sh fo : Bool) : (s.finish e sh fo).cfg = s.cfg := rfl
@[simp] theorem finish_cmd (e : BitVec 4) (sh fo : Bool) : (s.finish e sh fo).cmd = s.cmd := rfl
@[simp] theorem finish_status (e : BitVec 4) (sh fo : Bool) : (s.finish e sh fo).status = endStatus e sh fo := rfl
@[simp] theorem finish_ctrl (e : BitVec 4) (sh fo : Bool) : (s.finish e sh fo).ctrl = s.ctrl := rfl
@[simp] theorem finish_regs (e : BitVec 4) (sh fo : Bool) : (s.finish e sh fo).regs = s.regs := rfl
@[simp] theorem finish_rom (e : BitVec 4) (sh fo : Bool) : (s.finish e sh fo).rom = s.rom := rfl
@[simp] theorem finish_inMem (e : BitVec 4) (sh fo : Bool) : (s.finish e sh fo).inMem = s.inMem := rfl
@[simp] theorem finish_outMem (e : BitVec 4) (sh fo : Bool) : (s.finish e sh fo).outMem = s.outMem := rfl
@[simp] theorem finish_unit (e : BitVec 4) (sh fo : Bool) : (s.finish e sh fo).unit = .idle := rfl
@[simp] theorem finish_draws (e : BitVec 4) (sh fo : Bool) : (s.finish e sh fo).draws = s.draws := rfl
@[simp] theorem finish_host (e : BitVec 4) (sh fo : Bool) : (s.finish e sh fo).host = s.host := rfl
@[simp] theorem finish_reply (e : BitVec 4) (sh fo : Bool) : (s.finish e sh fo).reply = s.reply := rfl

/-! ### `startCommand` -/

@[simp] theorem startCommand_cfg (w : Word) : (s.startCommand w).cfg = s.cfg := rfl
@[simp] theorem startCommand_cmd (w : Word) : (s.startCommand w).cmd = w := rfl
@[simp] theorem startCommand_status (w : Word) : (s.startCommand w).status = { s.status with busy := true, done := false } := rfl
@[simp] theorem startCommand_ctrl (w : Word) : (s.startCommand w).ctrl = s.ctrl := rfl
@[simp] theorem startCommand_regs (w : Word) : (s.startCommand w).regs = s.regs := rfl
@[simp] theorem startCommand_rom (w : Word) : (s.startCommand w).rom = s.rom := rfl
@[simp] theorem startCommand_inMem (w : Word) : (s.startCommand w).inMem = s.inMem := rfl
@[simp] theorem startCommand_outMem (w : Word) : (s.startCommand w).outMem = s.outMem := rfl
@[simp] theorem startCommand_unit (w : Word) : (s.startCommand w).unit = s.unit := rfl
@[simp] theorem startCommand_draws (w : Word) : (s.startCommand w).draws = s.draws := rfl
@[simp] theorem startCommand_host (w : Word) : (s.startCommand w).host = s.host := rfl
@[simp] theorem startCommand_reply (w : Word) : (s.startCommand w).reply = s.reply := rfl

/-! ### `spoilOut` -/

@[simp] theorem spoilOut_cfg : (s.spoilOut).cfg = s.cfg := rfl
@[simp] theorem spoilOut_cmd : (s.spoilOut).cmd = s.cmd := rfl
@[simp] theorem spoilOut_status : (s.spoilOut).status = s.status := rfl
@[simp] theorem spoilOut_ctrl : (s.spoilOut).ctrl = s.ctrl := rfl
@[simp] theorem spoilOut_regs : (s.spoilOut).regs = s.regs := rfl
@[simp] theorem spoilOut_rom : (s.spoilOut).rom = s.rom := rfl
@[simp] theorem spoilOut_inMem : (s.spoilOut).inMem = s.inMem := rfl
@[simp] theorem spoilOut_outMem : (s.spoilOut).outMem = Memory.unspecified s.draws := rfl
@[simp] theorem spoilOut_unit : (s.spoilOut).unit = s.unit := rfl
@[simp] theorem spoilOut_draws : (s.spoilOut).draws = s.draws + 1 := rfl
@[simp] theorem spoilOut_host : (s.spoilOut).host = s.host := rfl
@[simp] theorem spoilOut_reply : (s.spoilOut).reply = s.reply := rfl

/-! ### `resolve` -/

@[simp] theorem resolve_cfg (fmt : Word) (p : Nat) (ridx : Word) : (s.resolve fmt p ridx).cfg = s.cfg := rfl
@[simp] theorem resolve_cmd (fmt : Word) (p : Nat) (ridx : Word) : (s.resolve fmt p ridx).cmd = s.cmd := rfl
@[simp] theorem resolve_status (fmt : Word) (p : Nat) (ridx : Word) : (s.resolve fmt p ridx).status = s.status := rfl
@[simp] theorem resolve_ctrl (fmt : Word) (p : Nat) (ridx : Word) : (s.resolve fmt p ridx).ctrl = s.ctrl := rfl
@[simp] theorem resolve_regs (fmt : Word) (p : Nat) (ridx : Word) : (s.resolve fmt p ridx).regs = { s.regs with fmt := fmt, tpos := BitVec.ofNat 32 p, ridx := ridx } := rfl
@[simp] theorem resolve_rom (fmt : Word) (p : Nat) (ridx : Word) : (s.resolve fmt p ridx).rom = s.rom := rfl
@[simp] theorem resolve_inMem (fmt : Word) (p : Nat) (ridx : Word) : (s.resolve fmt p ridx).inMem = s.inMem := rfl
@[simp] theorem resolve_outMem (fmt : Word) (p : Nat) (ridx : Word) : (s.resolve fmt p ridx).outMem = s.outMem := rfl
@[simp] theorem resolve_unit (fmt : Word) (p : Nat) (ridx : Word) : (s.resolve fmt p ridx).unit = s.unit := rfl
@[simp] theorem resolve_draws (fmt : Word) (p : Nat) (ridx : Word) : (s.resolve fmt p ridx).draws = s.draws := rfl
@[simp] theorem resolve_host (fmt : Word) (p : Nat) (ridx : Word) : (s.resolve fmt p ridx).host = s.host := rfl
@[simp] theorem resolve_reply (fmt : Word) (p : Nat) (ridx : Word) : (s.resolve fmt p ridx).reply = s.reply := rfl

/-! ### `ackDone` -/

@[simp] theorem ackDone_cfg : (s.ackDone).cfg = s.cfg := rfl
@[simp] theorem ackDone_cmd : (s.ackDone).cmd = s.cmd := rfl
@[simp] theorem ackDone_status : (s.ackDone).status = { s.status with done := false } := rfl
@[simp] theorem ackDone_ctrl : (s.ackDone).ctrl = s.ctrl := rfl
@[simp] theorem ackDone_regs : (s.ackDone).regs = s.regs := rfl
@[simp] theorem ackDone_rom : (s.ackDone).rom = s.rom := rfl
@[simp] theorem ackDone_inMem : (s.ackDone).inMem = s.inMem := rfl
@[simp] theorem ackDone_outMem : (s.ackDone).outMem = s.outMem := rfl
@[simp] theorem ackDone_unit : (s.ackDone).unit = s.unit := rfl
@[simp] theorem ackDone_draws : (s.ackDone).draws = s.draws := rfl
@[simp] theorem ackDone_host : (s.ackDone).host = s.host := rfl
@[simp] theorem ackDone_reply : (s.ackDone).reply = s.reply := rfl

/-! ### The unit state -/

@[simp] theorem setUnit_read_frs (f : FrsRegs) : (s.setUnit (.frs f)).frs = f := rfl
@[simp] theorem setUnit_read_hex (h : HexRegs) : (s.setUnit (.hex h)).hex = h := rfl
@[simp] theorem setUnit_read_unpk (u : UnpkRegs) : (s.setUnit (.unpk u)).unpk = u := rfl
@[simp] theorem setUnit_read_pxd (p : PxdRegs) : (s.setUnit (.pxd p)).pxd = p := rfl
@[simp] theorem startFrs_read : s.startFrs.frs = { p := u32 s.regs.tpos, acc := 0, past32 := false, index := 0 } := rfl

/-! ### Reading memories -/

/-- Reading a byte of IN looks at IN only. -/
theorem inByte_congr (t : State) (h : t.inMem = s.inMem) (a : Nat) : t.inByte a = s.inByte a := by
  simp only [State.inByte, h]

/-- Reading a byte of OUT looks at OUT only. -/
theorem outByte_congr (t : State) (h : t.outMem = s.outMem) (a : Nat) : t.outByte a = s.outByte a := by
  simp only [State.outByte, h]

/-- The bytes `IN[a .. a+n-1]` look at IN only. -/
theorem inBytes_congr (t : State) (h : t.inMem = s.inMem) (n a : Nat) : t.inBytes a n = s.inBytes a n := by
  induction n generalizing a with
  | zero => rfl
  | succ n ih => simp only [State.inBytes, ih, inByte_congr s t h]

theorem inBytes_length (n a : Nat) : (s.inBytes a n).length = n := by
  induction n generalizing a with
  | zero => rfl
  | succ n ih => simp only [State.inBytes, List.length_cons, ih]

/-- Byte `k` of `IN[a .. a+n-1]` is `IN[a + k]`. -/
theorem inBytes_getElem? (n a k : Nat) : (s.inBytes a n)[k]? = if k < n then some (s.inByte (a + k)) else none := by
  induction n generalizing a k with
  | zero => simp [State.inBytes]
  | succ n ih =>
    cases k with
    | zero => simp [State.inBytes]
    | succ k => simp [State.inBytes, ih, Nat.add_assoc, Nat.add_comm 1 k]

/-- The text has as many bytes as the window (R34). -/
theorem text_length : s.text.length = u32 s.regs.tend - u32 s.regs.tpos := inBytes_length s _ _

end Sys2Proof.Machine
end

