-- ==== Sys2Proof/Laws/Memory.lean ====
section
/-! SUPPORT. What the memory operations do: read after write, canonical form, bounds. -/

namespace Sys2Proof.Machine

/-! ### One byte -/

/-- Read after write: the byte written at its address, every other address as before. -/
theorem cellsGet_cellsPut (l : List Host.Cell) (a x : Nat) (v : Byte) :
    cellsGet (cellsPut l a v) x = if a = x then some v else cellsGet l x := by
  induction l with
  | nil => simp [cellsPut, cellsGet]
  | cons c t ih =>
    obtain ⟨y, b⟩ := c
    unfold cellsPut
    split
    · simp [cellsGet]
    · split
      · rename_i h; subst h; simp only [cellsGet]; split <;> simp_all
      · simp only [cellsGet, ih]; split <;> simp_all

@[simp] theorem get?_put (m : Memory) (a x : Nat) (v : Byte) :
    (m.put a v).get? x = if a = x then some v else m.get? x := cellsGet_cellsPut m.cells a x v

@[simp] theorem put_era (m : Memory) (a : Nat) (v : Byte) : (m.put a v).era = m.era := rfl

theorem mem_cellsPut (l : List Host.Cell) (a : Nat) (v : Byte) (c : Host.Cell) (h : c ∈ cellsPut l a v) :
    c = (a, v) ∨ c ∈ l := by
  induction l with
  | nil => simpa [cellsPut] using h
  | cons d t ih =>
    obtain ⟨y, b⟩ := d
    unfold cellsPut at h
    split at h
    · simpa using h
    · split at h
      · rcases List.mem_cons.1 h with h | h
        · exact .inl h
        · exact .inr (List.mem_cons_of_mem _ h)
      · rcases List.mem_cons.1 h with h | h
        · exact .inr (h ▸ List.mem_cons_self)
        · exact (ih h).imp_right (List.mem_cons_of_mem _)

/-- A write keeps the addresses strictly rising. -/
theorem cellsPut_rising (l : List Host.Cell) (a : Nat) (v : Byte) (h : (l.map Prod.fst).Pairwise (· < ·)) :
    ((cellsPut l a v).map Prod.fst).Pairwise (· < ·) := by
  induction l with
  | nil => simp [cellsPut]
  | cons d t ih =>
    obtain ⟨y, b⟩ := d
    simp only [List.map_cons, List.pairwise_cons, List.mem_map] at h
    unfold cellsPut
    split
    · rename_i hlt
      simp only [List.map_cons, List.pairwise_cons, List.mem_cons, List.mem_map]
      refine ⟨?_, h⟩
      rintro x (rfl | ⟨c, hc, rfl⟩)
      · exact hlt
      · exact Nat.lt_trans hlt (h.1 _ ⟨c, hc, rfl⟩)
    · split
      · rename_i heq; subst heq
        simpa only [List.map_cons, List.pairwise_cons, List.mem_map] using h
      · simp only [List.map_cons, List.pairwise_cons, List.mem_map]
        refine ⟨?_, ih h.2⟩
        rintro x ⟨c, hc, rfl⟩
        rcases mem_cellsPut t a v c hc with rfl | hc
        · omega
        · exact h.1 _ ⟨c, hc, rfl⟩

/-- A write keeps the canonical form. -/
theorem put_wf (m : Memory) (a : Nat) (v : Byte) (h : m.wf) : (m.put a v).wf := cellsPut_rising m.cells a v h

/-- A write below the size stays below the size. -/
theorem put_within (m : Memory) (a size : Nat) (v : Byte) (h : m.within size) (ha : a < size) :
    (m.put a v).within size := fun c hc =>
  match mem_cellsPut m.cells a v c hc with
  | .inl e => e ▸ ha
  | .inr h' => h c h'

/-- A memory with nothing listed is in canonical form. -/
theorem unspecified_wf (d : Nat) : (Memory.unspecified d).wf := List.Pairwise.nil

theorem unspecified_within (d size : Nat) : (Memory.unspecified d).within size := by
  intro c hc; simp [Memory.unspecified] at hc

/-! ### Runs of bytes -/

@[simp] theorem putBytes_era (m : Memory) (a : Nat) (bs : List Byte) : (m.putBytes a bs).era = m.era := by
  induction bs generalizing m a with
  | nil => rfl
  | cons b bs ih => exact ih (m.put a b) (a + 1)

/-- Read after a run of writes. -/
theorem get?_putBytes (m : Memory) (a x : Nat) (bs : List Byte) :
    (m.putBytes a bs).get? x = if a ≤ x ∧ x < a + bs.length then bs[x - a]? else m.get? x := by
  induction bs generalizing m a with
  | nil => simp [Memory.putBytes]
  | cons b bs ih =>
    rw [Memory.putBytes, ih, get?_put]
    rcases Nat.lt_trichotomy a x with h | h | h
    · have e : x - a = x - (a + 1) + 1 := by omega
      have hne : a ≠ x := by omega
      by_cases h2 : x < a + 1 + bs.length
      · rw [if_pos ⟨h, h2⟩, if_pos (by simp only [List.length_cons]; omega), e, List.getElem?_cons_succ]
      · rw [if_neg (by omega), if_neg hne, if_neg (by simp only [List.length_cons]; omega)]
    · subst h; simp
    · rw [if_neg (by omega), if_neg (by omega), if_neg (by omega)]

/-- A run of writes keeps the canonical form. -/
theorem putBytes_wf (m : Memory) (a : Nat) (bs : List Byte) (h : m.wf) : (m.putBytes a bs).wf := by
  induction bs generalizing m a with
  | nil => exact h
  | cons b bs ih => exact ih (m.put a b) (a + 1) (put_wf m a b h)

theorem putBytes_within (m : Memory) (a size : Nat) (bs : List Byte) (h : m.within size)
    (hb : a + bs.length ≤ size) : (m.putBytes a bs).within size := by
  induction bs generalizing m a with
  | nil => exact h
  | cons b bs ih =>
    simp only [List.length_cons] at hb
    exact ih (m.put a b) (a + 1) (put_within m a size b h (by omega)) (by omega)

/-! ### Bytes of OUT and IN after a write -/

/-- A byte of OUT after a run of writes: what was written there, else what was there. -/
theorem outByte_putBytes (s : State) (a x : Nat) (bs : List Byte) :
    State.outByte { s with outMem := s.outMem.putBytes a bs } x
      = if a ≤ x ∧ x < a + bs.length then bs.getD (x - a) 0 else s.outByte x := by
  simp only [State.outByte, get?_putBytes, putBytes_era]
  split
  · rename_i h
    have : x - a < bs.length := by omega
    simp [List.getD, this]
  · rfl

/-- A byte of IN after a run of writes: what was written there, else what was there. -/
theorem inByte_putBytes (s : State) (a x : Nat) (bs : List Byte) :
    State.inByte { s with inMem := s.inMem.putBytes a bs } x
      = if a ≤ x ∧ x < a + bs.length then bs.getD (x - a) 0 else s.inByte x := by
  simp only [State.inByte, get?_putBytes, putBytes_era]
  split
  · rename_i h
    have : x - a < bs.length := by omega
    simp [List.getD, this]
  · rfl

/-! ### The copy of `cond` -/

@[simp] theorem copyLoop_era (rd : Nat → Byte) (n a : Nat) (m : Memory) : (copyLoop rd n a m).era = m.era := by
  induction n generalizing a m with
  | zero => rfl
  | succ n ih => simp only [copyLoop, ih, put_era]

/-- What the copy leaves: `rd x` at every copied address, every other address as before. -/
theorem get?_copyLoop (rd : Nat → Byte) (n a x : Nat) (m : Memory) :
    (copyLoop rd n a m).get? x = if a ≤ x ∧ x < a + n then some (rd x) else m.get? x := by
  induction n generalizing a m with
  | zero => simp [copyLoop]
  | succ n ih =>
    rw [copyLoop, ih, get?_put]
    by_cases h : a = x
    · subst h; simp
    · by_cases h2 : a + 1 ≤ x ∧ x < a + 1 + n
      · rw [if_pos h2, if_pos (by omega)]
      · rw [if_neg h2, if_neg h, if_neg (by omega)]

theorem copyLoop_wf (rd : Nat → Byte) (n a : Nat) (m : Memory) (h : m.wf) : (copyLoop rd n a m).wf := by
  induction n generalizing a m with
  | zero => exact h
  | succ n ih => exact ih (a + 1) _ (put_wf m a _ h)

theorem copyLoop_within (rd : Nat → Byte) (n a size : Nat) (m : Memory) (h : m.within size) (hb : a + n ≤ size) :
    (copyLoop rd n a m).within size := by
  induction n generalizing a m with
  | zero => exact h
  | succ n ih => exact ih (a + 1) _ (put_within m a size _ h (by omega)) (by omega)

end Sys2Proof.Machine
end

