-- ==== Sys2Proof/Laws/Loops.lean ====
section
/-! SUPPORT. What the two raster loops do: the position and phase of each step, the bytes they leave in OUT. -/

namespace Sys2Proof.Machine

/-! ### `unpk10`: positions and bytes -/

/-- The position of sample step `m` when a row has `sw` samples. -/
def unpkAt (sw m : Nat) : UnpkRegs := { r := m / sw, k := m % sw }

/-- The next index in the same row. -/
theorem next_in_row (m w : Nat) (h : m % w + 1 < w) : (m + 1) / w = m / w ∧ (m + 1) % w = m % w + 1 := by
  have hm := Nat.div_add_mod m w
  have e : m + 1 = m % w + 1 + w * (m / w) := by omega
  constructor
  · rw [e, Nat.add_mul_div_left _ _ (by omega), Nat.div_eq_of_lt h]; omega
  · rw [e, Nat.add_mul_mod_self_left, Nat.mod_eq_of_lt h]

/-- The next index starts the next row. -/
theorem next_new_row (m w : Nat) (h0 : 0 < w) (h : ¬ m % w + 1 < w) :
    (m + 1) / w = m / w + 1 ∧ (m + 1) % w = 0 := by
  have hl := Nat.mod_lt m h0
  have hm := Nat.div_add_mod m w
  have e : m + 1 = w * (m / w + 1) := by rw [Nat.mul_add]; omega
  constructor
  · rw [e, Nat.mul_div_cancel_left _ h0]
  · rw [e, Nat.mul_mod_right]

theorem unpkNext_at (sw m : Nat) (h : 0 < sw) : unpkNext sw (unpkAt sw m) = unpkAt sw (m + 1) := by
  unfold unpkNext unpkAt
  split
  · rename_i hc; rw [(next_in_row m sw hc).1, (next_in_row m sw hc).2]
  · rename_i hc; rw [(next_new_row m sw h hc).1, (next_new_row m sw h hc).2]

theorem index_of_div_mod (m w : Nat) : m / w * w + m % w = m := by
  rw [Nat.mul_comm]; exact Nat.div_add_mod m w

/-- The two bytes of sample `m` of the raster. -/
def unpkPair (s : State) (rw sw m : Nat) : List Byte :=
  let v := s.sample (m / sw * rw) (m % sw)
  [BitVec.ofNat 8 (v % 256), BitVec.ofNat 8 (v >>> 8)]

/-- What `n` sample steps leave in OUT: both bytes of every sample, every other byte as before (R224). -/
theorem get?_unpkLoop (s : State) (rw sw n m x : Nat) (out : Memory) (h : 0 < sw) :
    (unpkLoop s rw sw n (unpkAt sw m) out).2.get? x
      = if 2 * m ≤ x ∧ x < 2 * (m + n) then (unpkPair s rw sw (x / 2))[x % 2]? else out.get? x := by
  induction n generalizing m out with
  | zero => simp only [unpkLoop]; rw [if_neg (by omega)]
  | succ n ih =>
    simp only [unpkLoop, unpkNext_at sw m h]
    rw [ih, get?_putBytes]
    simp only [unpkAt, index_of_div_mod, List.length_cons, List.length_nil]
    by_cases h1 : 2 * (m + 1) ≤ x ∧ x < 2 * (m + 1 + n)
    · rw [if_pos h1, if_pos (by omega)]
    · rw [if_neg h1]
      by_cases h2 : 2 * m ≤ x ∧ x < 2 * m + (0 + 1 + 1)
      · have e : x / 2 = m := by omega
        have e2 : x - 2 * m = x % 2 := by omega
        rw [if_pos h2, if_pos (by omega), e, e2]; rfl
      · rw [if_neg h2, if_neg (by omega)]

theorem unpkLoop_era (s : State) (rw sw n : Nat) (u : UnpkRegs) (out : Memory) :
    (unpkLoop s rw sw n u out).2.era = out.era := by
  induction n generalizing u out with
  | zero => rfl
  | succ n ih => simp only [unpkLoop, ih, putBytes_era]

theorem unpkLoop_wf (s : State) (rw sw n : Nat) (u : UnpkRegs) (out : Memory) (h : out.wf) :
    (unpkLoop s rw sw n u out).2.wf := by
  induction n generalizing u out with
  | zero => exact h
  | succ n ih => exact ih _ _ (putBytes_wf _ _ _ h)

/-- The sample steps write inside `2 * sw * rows` bytes. -/
theorem unpkLoop_within (s : State) (rw sw n m size : Nat) (out : Memory) (hs : 0 < sw) (h : out.within size)
    (hb : 2 * (m + n) ≤ size) : (unpkLoop s rw sw n (unpkAt sw m) out).2.within size := by
  induction n generalizing m out with
  | zero => exact h
  | succ n ih =>
    simp only [unpkLoop, unpkNext_at sw m hs]
    refine ih _ _ (putBytes_within _ _ _ _ h ?_) (by omega)
    simp only [unpkAt, index_of_div_mod, List.length_cons, List.length_nil]; omega

/-! ### `decode`: positions, phases, bytes -/

/-- The decoder's registers before pixel step `m` of a frame. -/
def pxdAt (f : Format) (s : State) (g : Geometry) : Nat → PxdRegs
  | 0 => pxdStart f
  | m + 1 => pxdNext f g.w (pixelOf f s g (pxdAt f s g m)).1

/-- The pixel that step `m` of a frame puts out. -/
def pixelAt (f : Format) (s : State) (g : Geometry) (m : Nat) : Rgb := (pixelOf f s g (pxdAt f s g m)).2

/-- A pixel step leaves the position and the phase to `pxdNext`. -/
theorem pixelOf_position (f : Format) (s : State) (g : Geometry) (p : PxdRegs) :
    (pixelOf f s g p).1.r = p.r ∧ (pixelOf f s g p).1.c = p.c ∧ (pixelOf f s g p).1.oddRow = p.oddRow ∧
      (pixelOf f s g p).1.oddPixel = p.oddPixel := by
  cases f <;> simp only [pixelOf, nv12Pixel, greyPixel, bayerPixel, holdSample, and_self] <;> split <;>
    simp_all

/-- Step `m` is at row `m / w`, column `m % w` (R53, R168). -/
theorem pxdAt_position (f : Format) (s : State) (g : Geometry) (m : Nat) (h : 0 < g.w) :
    (pxdAt f s g m).r = m / g.w ∧ (pxdAt f s g m).c = m % g.w := by
  induction m with
  | zero => simp [pxdAt, pxdStart]
  | succ m ih =>
    obtain ⟨h1, h2, -, -⟩ := pixelOf_position f s g (pxdAt f s g m)
    rw [ih.1] at h1; rw [ih.2] at h2
    simp only [pxdAt, pxdNext, h1, h2]
    by_cases hc : m % g.w + 1 < g.w
    · simp only [if_pos hc, (next_in_row m g.w hc).1, (next_in_row m g.w hc).2, and_self]
    · simp only [if_neg hc, (next_new_row m g.w h hc).1, (next_new_row m g.w h hc).2, and_self]

/-- The three bytes of a pixel in the order R, G, B (R168). -/
def rgbBytes (px : Rgb) : List Byte := [px.r, px.g, px.b]

/-- What `n` pixel steps leave in OUT: three bytes for every pixel, every other byte as before (R168). -/
theorem get?_scanLoop (f : Format) (s : State) (g : Geometry) (n m x : Nat) (out : Memory) (h : 0 < g.w) :
    (scanLoop f s g n (pxdAt f s g m) out).2.get? x
      = if 3 * m ≤ x ∧ x < 3 * (m + n) then (rgbBytes (pixelAt f s g (x / 3)))[x % 3]? else out.get? x := by
  induction n generalizing m out with
  | zero => simp only [scanLoop]; rw [if_neg (by omega)]
  | succ n ih =>
    have hp := pxdAt_position f s g m h
    simp only [scanLoop]
    rw [show pxdNext f g.w (pixelOf f s g (pxdAt f s g m)).1 = pxdAt f s g (m + 1) from rfl, ih, get?_putBytes, hp.1,
      hp.2, index_of_div_mod]
    simp only [List.length_cons, List.length_nil]
    by_cases h1 : 3 * (m + 1) ≤ x ∧ x < 3 * (m + 1 + n)
    · rw [if_pos h1, if_pos (by omega)]
    · rw [if_neg h1]
      by_cases h2 : 3 * m ≤ x ∧ x < 3 * m + (0 + 1 + 1 + 1)
      · have e : x / 3 = m := by omega
        have e2 : x - 3 * m = x % 3 := by omega
        rw [if_pos h2, if_pos (by omega), e, e2]; rfl
      · rw [if_neg h2, if_neg (by omega)]

theorem scanLoop_era (f : Format) (s : State) (g : Geometry) (n : Nat) (p : PxdRegs) (out : Memory) :
    (scanLoop f s g n p out).2.era = out.era := by
  induction n generalizing p out with
  | zero => rfl
  | succ n ih => simp only [scanLoop, ih, putBytes_era]

theorem scanLoop_wf (f : Format) (s : State) (g : Geometry) (n : Nat) (p : PxdRegs) (out : Memory) (h : out.wf) :
    (scanLoop f s g n p out).2.wf := by
  induction n generalizing p out with
  | zero => exact h
  | succ n ih => exact ih _ _ (putBytes_wf _ _ _ h)

/-- The pixel steps write inside `3 * w * h` bytes. -/
theorem scanLoop_within (f : Format) (s : State) (g : Geometry) (n m size : Nat) (out : Memory) (hw : 0 < g.w)
    (h : out.within size) (hb : 3 * (m + n) ≤ size) : (scanLoop f s g n (pxdAt f s g m) out).2.within size := by
  induction n generalizing m out with
  | zero => exact h
  | succ n ih =>
    have hp := pxdAt_position f s g m hw
    simp only [scanLoop]
    rw [show pxdNext f g.w (pixelOf f s g (pxdAt f s g m)).1 = pxdAt f s g (m + 1) from rfl, hp.1, hp.2,
      index_of_div_mod]
    exact ih _ _ (putBytes_within _ _ _ _ h (by simp only [List.length_cons, List.length_nil]; omega)) (by omega)

/-- The phase at step `m`: each parity bit is the origin's, flipped on odd rows and odd columns (R185). -/
theorem pxdAt_phase (f : Format) (s : State) (g : Geometry) (m : Nat) (h : 0 < g.w) :
    (pxdAt f s g m).oddRow = ((phaseOrigin f).1 ^^ decide (m / g.w % 2 = 1)) ∧
      (pxdAt f s g m).oddPixel = ((phaseOrigin f).2 ^^ decide (m % g.w % 2 = 1)) := by
  induction m with
  | zero => simp [pxdAt, pxdStart]
  | succ m ih =>
    obtain ⟨-, h2, h3, h4⟩ := pixelOf_position f s g (pxdAt f s g m)
    rw [(pxdAt_position f s g m h).2] at h2; rw [ih.1] at h3; rw [ih.2] at h4
    simp only [pxdAt, pxdNext, h2]
    by_cases hc : m % g.w + 1 < g.w
    · simp only [if_pos hc, h3, h4, (next_in_row m g.w hc).1, (next_in_row m g.w hc).2, true_and]
      rcases Nat.mod_two_eq_zero_or_one (m % g.w) with e | e <;> simp [Nat.add_mod, e]
    · simp only [if_neg hc, h3, (next_new_row m g.w h hc).1, (next_new_row m g.w h hc).2]
      rcases Nat.mod_two_eq_zero_or_one (m / g.w) with e | e <;> simp [Nat.add_mod, e]

/-! ### What the loops look at -/

/-- The pixel steps look at the state only through the pixels they visit. -/
theorem scanLoop_congr (f : Format) (s s' : State) (g : Geometry) (n m : Nat) (out : Memory)
    (h : ∀ k, m ≤ k → k < m + n → pixelOf f s' g (pxdAt f s g k) = pixelOf f s g (pxdAt f s g k)) :
    scanLoop f s' g n (pxdAt f s g m) out = scanLoop f s g n (pxdAt f s g m) out := by
  induction n generalizing m out with
  | zero => rfl
  | succ n ih =>
    simp only [scanLoop, h m (Nat.le_refl m) (by omega)]
    exact ih (m + 1) _ fun k hk hk' => h k (by omega) (by omega)

/-- The sample steps look at the state only through the samples they take. -/
theorem unpkLoop_congr (s s' : State) (rw sw n m : Nat) (out : Memory) (hs : 0 < sw)
    (h : ∀ k, m ≤ k → k < m + n → s'.sample (k / sw * rw) (k % sw) = s.sample (k / sw * rw) (k % sw)) :
    unpkLoop s' rw sw n (unpkAt sw m) out = unpkLoop s rw sw n (unpkAt sw m) out := by
  induction n generalizing m out with
  | zero => rfl
  | succ n ih =>
    have hm := h m (Nat.le_refl m) (by omega)
    simp only [unpkLoop, unpkNext_at sw m hs]
    simp only [unpkAt] at hm ⊢
    rw [hm]
    exact ih (m + 1) _ fun k hk hk' => h k (by omega) (by omega)

/-- The copy looks at its source only at the addresses it copies. -/
theorem copyLoop_congr (rd rd' : Nat → Byte) (n a : Nat) (m : Memory) (h : ∀ x, a ≤ x → x < a + n → rd' x = rd x) :
    copyLoop rd' n a m = copyLoop rd n a m := by
  induction n generalizing a m with
  | zero => rfl
  | succ n ih =>
    simp only [copyLoop, h a (Nat.le_refl a) (by omega)]
    exact ih (a + 1) _ fun x hx hx' => h x (by omega) (by omega)

/-- A pixel looks at the state only through its conditioned reads and the narrowing. -/
theorem pixelOf_congr (f : Format) (s s' : State) (g : Geometry) (p : PxdRegs)
    (h : ∀ a, s'.srcRead g.lim a = s.srcRead g.lim a) (hn : s'.cfg.narrow = s.cfg.narrow) :
    pixelOf f s' g p = pixelOf f s g p := by
  cases f <;> simp only [pixelOf, nv12Pixel, greyPixel, bayerPixel, State.bayerSample, State.bayerWord, h, hn]

end Sys2Proof.Machine
end

