-- ==== Sys2Proof/Laws/Commands.lean ====
section
/-! SUPPORT. What the shared operations of the commands can do, said once each: the end of a command, the text
commands' checks, the numeric path, one character of `hexdec`. -/

namespace Sys2Proof.Machine

/-! ### The end of a command -/

theorem complete_eq (s : State) (sh fo : Bool) :
    complete s sh fo
      = .next { s with
          status := { busy := false, done := true, err := false, short := sh, found := fo, ecode := 0 }
          unit := .idle } := rfl

theorem raise_eq (s : State) (e : Error) :
    raise s e
      = .next { s with
          status :=
            { busy := false, done := true, err := errorCode e != 0, short := false, found := false,
              ecode := errorCode e }
          unit := .idle } := rfl

/-- An error's code is never 0, so ERR is 1 (R25, R241). -/
@[simp] theorem errorCode_bne (e : Error) : (errorCode e != 0) = true := by cases e <;> rfl

theorem errorCode_le (e : Error) : (errorCode e).toNat ≤ 9 := by cases e <;> decide

/-- Different errors have different codes (R241). -/
theorem errorCode_injective (e e' : Error) (h : errorCode e = errorCode e') : e = e' := by
  cases e <;> cases e' <;> first | rfl | exact absurd h (by decide)

/-! ### The text commands -/

/-- Everything `parse.n` and `parse.r` can do before a name is looked at (R130, R131, R251). -/
theorem parseToken_cases (onName : List Byte → State → Host.Outcome State Fault Refusal) (s : State) :
    (s.textTooLong = true ∧ parseToken onName s = raise s .allocationFailed) ∨
    (s.textTooLong = false ∧ (s.text = [] ∨ ∃ b t, s.text = b :: t ∧ isWord b = false) ∧
      parseToken onName s = raise s .emptySymbol) ∨
    (s.textTooLong = false ∧ (∃ b t, s.text = b :: t ∧ isDigit b = true) ∧
      parseToken onName s = takeNumber s.text s) ∨
    (s.textTooLong = false ∧ (∃ b t, s.text = b :: t ∧ isWord b = true ∧ isDigit b = false) ∧
      parseToken onName s = onName s.text s) := by
  unfold parseToken
  by_cases h : s.textTooLong = true
  · exact .inl ⟨h, if_pos h⟩
  · rw [if_neg h, Bool.not_eq_true] at *
    cases ht : s.text with
    | nil => exact .inr (.inl ⟨h, .inl rfl, rfl⟩)
    | cons b t =>
      cases hw : isWord b with
      | false => exact .inr (.inl ⟨h, .inr ⟨b, t, rfl, hw⟩, by simp [hw]⟩)
      | true =>
        cases hd : isDigit b with
        | true => exact .inr (.inr (.inl ⟨h, ⟨b, t, rfl, hd⟩, by simp [hw, hd]⟩))
        | false => exact .inr (.inr (.inr ⟨h, ⟨b, t, rfl, hw, hd⟩, by simp [hw, hd]⟩))

/-- The numeric path always ends without error; FMT is the value when it fits, else some word (R128). -/
theorem takeNumber_eq (t : List Byte) (s : State) :
    ∃ x, (((numeric t s.startFrs.frs).past32 = false → x = (numeric t s.startFrs.frs).acc) ∧
      takeNumber t s
        = .next { s with
            regs := { s.regs with
              fmt := x, tpos := BitVec.ofNat 32 (numeric t s.startFrs.frs).p, ridx := noIndex }
            status := endStatus 0 false false
            unit := .idle
            draws := if (numeric t s.startFrs.frs).past32 then s.draws + 1 else s.draws }) := by
  unfold takeNumber
  cases h : (numeric t s.startFrs.frs).past32 with
  | false => exact ⟨_, fun _ => rfl, by simp only [h]; rfl⟩
  | true => exact ⟨Config.numOverflow s.draws, fun h' => absurd h' (by simp), by simp only [h]; rfl⟩

/-- A digit taken into the 32-bit accumulator keeps what `acc` and `past32` say of the exact value `v` (R50, R126). -/
theorem takeDigit_eq (base d v : Nat) (f : FrsRegs) (hb : 0 < base) (ha : f.acc = BitVec.ofNat 32 v)
    (ho : f.past32 = decide (2 ^ 32 ≤ v)) :
    f.takeDigit base d
      = { f with
          p := f.p + 1, acc := BitVec.ofNat 32 (base * v + d), past32 := decide (2 ^ 32 ≤ base * v + d) } := by
  have hle : v ≤ base * v := Nat.le_mul_of_pos_left v hb
  unfold FrsRegs.takeDigit
  dsimp only
  by_cases h : 2 ^ 32 ≤ v
  · have hacc : BitVec.ofNat 32 (base * f.acc.toNat + d) = BitVec.ofNat 32 (base * v + d) := by
      apply BitVec.eq_of_toNat_eq
      simp only [ha, BitVec.toNat_ofNat, Nat.add_mod, Nat.mul_mod, Nat.mod_mod]
    rw [hacc, ho, decide_eq_true h, Bool.true_or, decide_eq_true (by omega : 2 ^ 32 ≤ base * v + d)]
  · have hv : f.acc.toNat = v := by rw [ha, BitVec.toNat_ofNat, Nat.mod_eq_of_lt (by omega)]
    rw [hv, ho, decide_eq_false h, Bool.false_or]

/-- One radix of R126, said at once: the leading digits are taken, folded into the value, and counted; `acc` is the
value in 32 bits, `past32` that it does not fit. -/
theorem numLoop_eq (base : Nat) (ok : Byte → Bool) (val : Byte → Nat) (t : List Byte) (f : FrsRegs) (v : Nat)
    (hb : 0 < base) (ha : f.acc = BitVec.ofNat 32 v) (ho : f.past32 = decide (2 ^ 32 ≤ v)) :
    numLoop base ok val t f
      = { f with
          p := f.p + (t.takeWhile ok).length
          acc := BitVec.ofNat 32 ((t.takeWhile ok).foldl (fun v b => base * v + val b) v)
          past32 := decide (2 ^ 32 ≤ (t.takeWhile ok).foldl (fun v b => base * v + val b) v) } := by
  induction t generalizing f v with
  | nil => cases f; cases ha; cases ho; rfl
  | cons b t ih =>
    unfold numLoop
    cases h : ok b with
    | true =>
      rw [if_pos rfl, takeDigit_eq base (val b) v f hb ha ho, ih _ (base * v + val b) rfl rfl]
      simp [h, Nat.add_assoc, Nat.add_comm 1]
    | false =>
      rw [if_neg Bool.false_ne_true, List.takeWhile_cons_of_neg (by simp [h])]
      cases f; cases ha; cases ho; rfl

/-! ### One event of `hexdec` -/

/-- Closing a run: nothing to close, one byte written, or an error (R213, R214). -/
theorem closeRun_cases (outSize : Nat) (h : HexRegs) (out : Memory) :
    (h.runLen = 0 ∧ closeRun outSize h out = .going { h with runLen := 0, runVal := 0 } out) ∨
    (h.runLen = 2 ∧ h.outPtr < outSize ∧
      closeRun outSize h out
        = .going { h with outPtr := h.outPtr + 1, rowBytes := h.rowBytes + 1, runLen := 0, runVal := 0 }
            (out.put h.outPtr h.runVal)) ∨
    (h.runLen = 2 ∧ outSize ≤ h.outPtr ∧ closeRun outSize h out = .failed .allocationFailed) ∨
    (h.runLen ≠ 0 ∧ h.runLen ≠ 2 ∧ closeRun outSize h out = .failed .invalidValueWidth) := by
  unfold closeRun
  by_cases h2 : h.runLen = 2
  · by_cases ho : outSize ≤ h.outPtr
    · exact .inr (.inr (.inl ⟨h2, ho, by rw [if_pos h2, if_pos ho]⟩))
    · exact .inr (.inl ⟨h2, Nat.lt_of_not_le ho, by rw [if_pos h2, if_neg ho]⟩)
  · by_cases h0 : h.runLen = 0
    · exact .inl ⟨h0, by rw [if_neg h2, if_neg (fun hn => hn h0)]⟩
    · exact .inr (.inr (.inr ⟨h0, h2, by rw [if_neg h2, if_pos h0]⟩))

/-- Closing a row leaves OUT and the output pointer alone (R213). -/
theorem closeRow_going (h h' : HexRegs) (out out' : Memory) (e : closeRow h out = .going h' out') :
    out' = out ∧ h'.outPtr = h.outPtr := by
  unfold closeRow at e
  repeat' split at e
  all_goals first | (cases e; exact ⟨rfl, rfl⟩) | exact absurd e (by simp)

/-- What the decoder can do to OUT in one event that goes on: nothing, or one byte at the output pointer, inside OUT. -/
def HexMoves (outSize : Nat) (h h' : HexRegs) (out out' : Memory) : Prop :=
  (out' = out ∧ h'.outPtr = h.outPtr) ∨
    (h.outPtr < outSize ∧ out' = out.put h.outPtr h.runVal ∧ h'.outPtr = h.outPtr + 1)

theorem closeRun_moves (outSize : Nat) (h h' : HexRegs) (out out' : Memory)
    (e : closeRun outSize h out = .going h' out') : HexMoves outSize h h' out out' := by
  rcases closeRun_cases outSize h out with ⟨-, c⟩ | ⟨-, ho, c⟩ | ⟨-, -, c⟩ | ⟨-, -, c⟩ <;> rw [c] at e
  · injection e with e1 e2; subst e1 e2; exact .inl ⟨rfl, rfl⟩
  · injection e with e1 e2; subst e1 e2; exact .inr ⟨ho, rfl, rfl⟩
  · exact absurd e (by simp)
  · exact absurd e (by simp)

theorem closeBoth_moves (outSize : Nat) (h h' : HexRegs) (out out' : Memory)
    (e : closeBoth outSize h out = .going h' out') : HexMoves outSize h h' out out' := by
  unfold closeBoth at e
  split at e
  · rename_i h1 out1 e1
    obtain ⟨ho, hp⟩ := closeRow_going _ _ _ _ e
    subst ho
    rcases closeRun_moves _ _ _ _ _ e1 with ⟨a, b⟩ | ⟨a, b, c⟩
    · exact .inl ⟨a, hp.trans b⟩
    · exact .inr ⟨a, b, hp.trans c⟩
  · exact absurd e (by simp)

theorem hexChar_moves (outSize : Nat) (c : Byte) (h h' : HexRegs) (out out' : Memory)
    (e : hexChar outSize c h out = .going h' out') : HexMoves outSize h h' out out' := by
  unfold hexChar at e
  split at e
  · injection e with e1 e2; subst e1 e2; exact .inl ⟨rfl, rfl⟩
  · split at e
    · exact closeBoth_moves _ _ _ _ _ e
    · exact closeRun_moves _ _ _ _ _ e

/-- An induction over the walk of `hexdec`: a property of OUT and the output pointer that every byte written inside OUT
keeps, holds at the end of a walk that does not fail. -/
theorem hexLoop_keeps (outSize : Nat) (P : Nat → Memory → Prop)
    (hput : ∀ a m v, P a m → a < outSize → P (a + 1) (m.put a v)) (t : List Byte) (h h' : HexRegs) (out out' : Memory)
    (e : hexLoop outSize t h out = .going h' out') (hp : P h.outPtr out) : P h'.outPtr out' := by
  have move : ∀ {h h' : HexRegs} {out out' : Memory}, HexMoves outSize h h' out out' → P h.outPtr out →
      P h'.outPtr out' := by
    rintro h h' out out' (⟨a, b⟩ | ⟨a, b, c⟩) hp
    · rw [a, b]; exact hp
    · rw [b, c]; exact hput _ _ _ hp a
  induction t generalizing h out with
  | nil => exact move (closeBoth_moves _ _ _ _ _ e) hp
  | cons c t ih =>
    unfold hexLoop at e
    split at e
    · rename_i h1 out1 e1; exact ih _ _ e (move (h' := h1) (hexChar_moves _ _ _ _ _ _ e1) hp)
    · exact absurd e (by simp)

end Sys2Proof.Machine
end

