-- ==== Sys2Proof/Certificates/Slice0/Obligations.lean ====
section
/-! DEFINITION. The statements for the provers, in the order of OBLIGATIONS.json, and the words they are written in:
what a rule says, put down without the model's own functions where the rule allows it. -/

namespace Sys2Proof.Spec

open Machine

/-! ### STATUS at the end of a command -/

/-- STATUS after a command that ended without error: DONE, and the two flags (R25). -/
def okStatus (short found : Bool) : Status :=
  { busy := false, done := true, err := false, short := short, found := found, ecode := 0 }

/-- STATUS after a command that raised the error of this code (R25, R252 (b)). -/
def errStatus (code : BitVec 4) : Status :=
  { busy := false, done := true, err := true, short := false, found := false, ecode := code }

/-- The state after an error, but for `hexdec`: the state before it with STATUS updated (R252). -/
def failed (s : State) (code : BitVec 4) : State := { s with status := errStatus code, unit := .idle }

/-! ### Text -/

/-- The text a command reads, `IN[TPOS .. TEND-1]`, is `t` (R34). -/
def TextIs (s : State) (t : List Byte) : Prop :=
  t.length = s.regs.tend.toNat - s.regs.tpos.toNat ∧
    ∀ (k : Nat) b, t[k]? = some b → s.inByte (s.regs.tpos.toNat + k) = b

/-- A non-empty text lies inside IN (R250). -/
def WindowFits (s : State) : Prop := s.regs.tpos.toNat < s.regs.tend.toNat → s.regs.tend.toNat ≤ s.cfg.inSize

/-- A letter, a digit or an underscore, by its ASCII code (R15, R244). -/
def WordByte (c : Byte) : Prop :=
  (0x30 ≤ c.toNat ∧ c.toNat ≤ 0x39) ∨ (0x41 ≤ c.toNat ∧ c.toNat ≤ 0x5A) ∨ (0x61 ≤ c.toNat ∧ c.toNat ≤ 0x7A) ∨
    c.toNat = 0x5F

/-- A decimal digit (R15). -/
def DigitByte (c : Byte) : Prop := 0x30 ≤ c.toNat ∧ c.toNat ≤ 0x39

/-- No byte of the class starts `rest`: the run before it is the longest. -/
def Stops (cls : Byte → Bool) (rest : List Byte) : Prop := ∀ d, rest.head? = some d → cls d = false

/-- The numeric literals of R126: prefix, digits, and a rest that does not lengthen the literal. -/
def LiteralAt (base : Nat) (pre ds rest : List Byte) : Prop :=
  (base = 16 ∧ (pre = [0x30, 0x78] ∨ pre = [0x30, 0x58]) ∧ ds ≠ [] ∧ (∀ d ∈ ds, isHex d = true) ∧ Stops isHex rest) ∨
  (base = 8 ∧ pre = [0x30] ∧ (∀ d ∈ ds, isOctal d = true) ∧ Stops isOctal rest ∧
    ¬ (ds = [] ∧ ∃ x d r, rest = x :: d :: r ∧ (x = 0x78 ∨ x = 0x58) ∧ isHex d = true)) ∨
  (base = 10 ∧ pre = [] ∧ ds ≠ [] ∧ ds.head? ≠ some 0x30 ∧ (∀ d ∈ ds, isDigit d = true) ∧ Stops isDigit rest)

/-- The value of a run of digits, most significant first. -/
def literalValue (base : Nat) (ds : List Byte) : Nat := ds.foldl (fun v d => base * v + hexVal d) 0

/-- A name token as R125 (c) cuts it: word bytes, not starting with a digit, as long as possible. -/
def NameAt (tok rest : List Byte) : Prop :=
  (∃ b t, tok = b :: t ∧ isDigit b = false) ∧ (∀ b ∈ tok, isWord b = true) ∧ Stops isWord rest

/-- `matches` of R129: same length, and equal under `fold` at every place. -/
def NameMatches (tok nm : List Byte) : Prop :=
  tok.length = nm.length ∧ ∀ (k : Nat) x y, tok[k]? = some x → nm[k]? = some y → fold x = fold y

/-! ### Hex text -/

/-- The rows of a hex text, each row its maximal runs of hex digits (R210, R213): lines between newlines, cut at the
bytes that are no hex digits. -/
def hexRows (t : List Byte) : List (List (List Byte)) :=
  (t.splitOnP fun c => c == 0x0A).map fun row => (row.splitOnP fun c => !isHex c).filter fun run => run ≠ []

/-- The error the runs of one row meet, in text order, when `n` bytes are out already (R213, R251). -/
def runsVerdict (outSize : Nat) : Nat → List (List Byte) → Option (BitVec 4)
  | _, [] => none
  | n, run :: rest =>
    if run.length ≠ 2 then some 6
    else if outSize ≤ n then some 8
    else runsVerdict outSize (n + 1) rest

/-- The error the rows meet, in text order, when the expected width is `w` (0: none yet) and `n` bytes are out already
(R213, R215, R251). -/
def rowsVerdict (outSize : Nat) : Nat → Nat → List (List (List Byte)) → Option (BitVec 4)
  | _, _, [] => none
  | w, n, row :: rest =>
    match runsVerdict outSize n row with
    | some e => some e
    | none =>
      if row = [] then rowsVerdict outSize w n rest
      else if w = 0 ∨ row.length = w then rowsVerdict outSize row.length (n + row.length) rest
      else some 7

/-- The byte of a run of two digits: the first is the high nibble (R212). -/
def runByte : List Byte → Byte
  | [h1, h2] => BitVec.ofNat 8 (16 * hexVal h1 + hexVal h2)
  | _ => 0

/-- `rowWidthBytes`: the width of the first non-empty row, 0 if there is none (R214). -/
def rowWidth (rows : List (List (List Byte))) : Nat := ((rows.map List.length).find? fun n => n != 0).getD 0

/-- `rowCount`: the non-empty rows (R215). -/
def rowCount (rows : List (List (List Byte))) : Nat := (rows.filter fun row => row ≠ []).length

/-! ### 10-bit samples -/

/-- Bit `t` of the bitstream of a row that starts at `IN[base]`: bit `7 - (t mod 8)` of byte `t / 8` (R222). -/
def streamBit (s : State) (base t : Nat) : Bool := (s.inByte (base + t / 8)).getLsbD (7 - t % 8)

/-- The sample whose bits 9 down to 0 are the stream's bits `10k` to `10k + 9` (R222). -/
def IsSample (s : State) (base k v : Nat) : Prop :=
  v < 1024 ∧ ∀ j, j < 10 → v.testBit (9 - j) = streamBit s base (10 * k + j)

/-! ### Frames -/

/-- FMT holds the id the registry gives to this format's name (R96, R124), in an instance that meets R121. -/
def FormatIs (s : State) (f : Format) : Prop :=
  s.cfg.wf = true ∧ ({ id := s.regs.fmt, name := formatName f } : Entry) ∈ s.cfg.registry

/-- Width as a number (R11). -/
def wid (s : State) : Nat := s.regs.width.toInt.toNat

/-- Height as a number (R11). -/
def hgt (s : State) : Nat := s.regs.height.toInt.toNat

/-- The effective stride with `bpp` bytes per pixel (R165, R166). -/
def strideOf (s : State) (bpp : Nat) : Nat :=
  if 0 < s.regs.stride.toInt then s.regs.stride.toInt.toNat else wid s * bpp

/-- Bytes per pixel (R162): 1 for NV12 and GREY, 2 for the Bayer formats. -/
def bpp (f : Format) : Nat := if f = .nv12 ∨ f = .grey then 1 else 2

/-- The required length (R162, R165). -/
def reqOf (s : State) (f : Format) : Nat :=
  if f = .nv12 then strideOf s 1 * (hgt s + (hgt s + 1) / 2) else strideOf s (bpp f) * hgt s

/-- `decode` executes normally on this format (R161): geometry positive, source inside IN, raster inside OUT. -/
def DecodeFits (s : State) (f : Format) : Prop :=
  FormatIs s f ∧ 0 < s.regs.width.toInt ∧ 0 < s.regs.height.toInt ∧ s.regs.slen.toNat ≤ s.cfg.inSize ∧
    3 * wid s * hgt s ≤ s.cfg.outSize

/-- A byte of the conditioned source (R66, R165). -/
def source (s : State) (f : Format) (a : Nat) : Byte :=
  if a < min s.regs.slen.toNat (reqOf s f) then s.inByte a else 0

/-- What a `decode` that executes normally leaves, but for the raster itself (R161, R168, R169): STATUS, and OUT from
`3*w*h` on as before; every other field as before. -/
def DecodeEnds (s : State) (f : Format) (t : State) : Prop :=
  exec .decode s = .next t ∧
    t = { s with
      outMem := t.outMem
      status := okStatus (decide (s.regs.slen.toNat < reqOf s f)) false
      unit := .idle } ∧
    ∀ a, 3 * wid s * hgt s ≤ a → t.outByte a = s.outByte a

/-- `clamp8` (R16). -/
def clamp (v : Int) : Int := max 0 (min 255 v)

/-- The red channel of R201, `>> 8` the floor of the quotient by 256. -/
def redOf (y cr : Byte) : Int :=
  clamp ((298 * ((y.toNat : Int) - 16) + 409 * ((cr.toNat : Int) - 128) + 128) / 256)

/-- The green channel of R201. -/
def greenOf (y cb cr : Byte) : Int :=
  clamp ((298 * ((y.toNat : Int) - 16) - 100 * ((cb.toNat : Int) - 128) - 208 * ((cr.toNat : Int) - 128) + 128) / 256)

/-- The blue channel of R201. -/
def blueOf (y cb : Byte) : Int :=
  clamp ((298 * ((y.toNat : Int) - 16) + 516 * ((cb.toNat : Int) - 128) + 128) / 256)

/-- A colour channel and its place in an output pixel (R168). -/
inductive Channel
  | red
  | green
  | blue
  deriving DecidableEq, Repr

/-- R first, then G, then B (R168). -/
def Channel.index : Channel → Nat
  | .red => 0
  | .green => 1
  | .blue => 2

/-- The 2x2 tile of each Bayer format, row by row (R182). -/
def tile : Format → List Channel
  | .sbggr10 => [.blue, .green, .green, .red]
  | .sgbrg10 => [.green, .blue, .red, .green]
  | .srggb10 => [.red, .green, .green, .blue]
  | .sgrbg10 => [.green, .red, .blue, .green]
  | .nv12 | .grey => []

/-- The channel of the site at row `r`, column `c` of a Bayer frame (R182). -/
def siteChannel (f : Format) (r c : Nat) : Option Channel := (tile f)[2 * (r % 2) + c % 2]?

/-- The channel of the `n`th site in scan order, row-major (R184 (b)). -/
def channelAt (s : State) (f : Format) (n : Nat) : Option Channel := siteChannel f (n / wid s) (n % wid s)

/-- The 16-bit little-endian word of the `n`th site (R183). -/
def wordAt (s : State) (f : Format) (n : Nat) : Nat :=
  let a := n / wid s * strideOf s 2 + 2 * (n % wid s)
  (source s f a).toNat + 256 * (source s f (a + 1)).toNat

/-- The 8-bit sample of the `n`th site: the word shifted right by 2, narrowed (R183). -/
def sampleAt (s : State) (f : Format) (n : Nat) : Nat :=
  if s.cfg.narrow = .sat then min (wordAt s f n / 4) 255 else wordAt s f n / 4 % 256

/-! ### The host -/

/-- STATUS as a word, bit by bit (R24). -/
def statusValue (t : Status) : Word :=
  BitVec.ofNat 32
    (t.busy.toNat + 2 * t.done.toNat + 4 * t.err.toNat + 8 * t.short.toNat + 16 * t.found.toNat + 256 * t.ecode.toNat)

/-- The register map (R22, R30): each offset and what a read there returns. -/
def registerValues (s : State) : List (Nat × Word) :=
  [(0x00, s.cmd), (0x04, statusValue s.status), (0x08, s.ctrl), (0x0C, BitVec.ofNat 32 s.cfg.registry.length),
    (0x10, s.regs.fmt), (0x14, s.regs.width), (0x18, s.regs.height), (0x1C, s.regs.stride), (0x20, s.regs.slen),
    (0x24, s.regs.rlen), (0x28, s.regs.tpos), (0x2C, s.regs.tend), (0x30, s.regs.roww), (0x34, s.regs.rowc)] ++
  [(0x38, s.regs.sampw), (0x3C, s.regs.ridx), (0x40, s.regs.ycc), (0x44, s.regs.rgb)]

/-- What a write of `v` at each register offset leaves (R27, R28, R30, R37), but for CMD and STATUS: NREG, SAMPW, RIDX
and RGB are read only, CTRL keeps bit 0 and YCC bits 23:0. -/
def registerWrites (s : State) (v : Word) : List (Nat × State) :=
  [(0x08, { s with ctrl := v &&& 1 }), (0x0C, s), (0x10, { s with regs := { s.regs with fmt := v } }),
    (0x14, { s with regs := { s.regs with width := v } }), (0x18, { s with regs := { s.regs with height := v } }),
    (0x1C, { s with regs := { s.regs with stride := v } }), (0x20, { s with regs := { s.regs with slen := v } }),
    (0x24, { s with regs := { s.regs with rlen := v } }), (0x28, { s with regs := { s.regs with tpos := v } })] ++
  [(0x2C, { s with regs := { s.regs with tend := v } }), (0x30, { s with regs := { s.regs with roww := v } }),
    (0x34, { s with regs := { s.regs with rowc := v } }), (0x38, s), (0x3C, s),
    (0x40, { s with regs := { s.regs with ycc := v &&& 0x00FFFFFF } }), (0x44, s)]

/-- The access widths (R63, R64). -/
def accessWidths : List (Width × Nat) := [(.byte, 1), (.half, 2), (.word, 4)]

/-- A memory of the window: its base offset, its size, its byte at an address (R60). -/
def memoryWindow (s : State) : List (Nat × Nat × (Nat → Byte)) :=
  [(0x1000, 32 * s.cfg.registry.length, s.romByte), (0x1000000, s.cfg.inSize, s.inByte),
    (0x2000000, s.cfg.outSize, s.outByte)]

/-- An offset outside REGS, ROM, IN and OUT (R60). -/
def Unmapped (s : State) (off : Nat) : Prop :=
  0x1000 ≤ off ∧ ∀ m ∈ memoryWindow s, off < m.1 ∨ m.1 + m.2.1 ≤ off

/-- The bytes of IN a command may read (R61, R283). -/
def ReadsIn (i : Instr) (s : State) (a : Nat) : Prop :=
  match i with
  | .parseN | .parseR | .lkname | .hexdec => s.regs.tpos.toNat ≤ a ∧ a < s.regs.tend.toNat
  | .lkid | .csc => False
  | .cond => a < min s.regs.slen.toNat s.regs.rlen.toNat
  | .unpk10 => a < s.regs.roww.toNat * s.regs.rowc.toNat
  | .decode =>
    ∃ f, ({ id := s.regs.fmt, name := formatName f } : Entry) ∈ s.cfg.registry ∧
      a < min s.regs.slen.toNat (reqOf s f)

/-- How many bytes of OUT, from `OUT[0]` on, a command that ended without error has written (R47, R287): `t` is the
state it left. -/
def writtenOut (i : Instr) (t : State) : Nat :=
  match i with
  | .cond => t.regs.rlen.toNat
  | .hexdec => t.regs.roww.toNat * t.regs.rowc.toNat
  | .unpk10 => 2 * t.regs.sampw.toNat * t.regs.rowc.toNat
  | .decode => 3 * wid t * hgt t
  | .parseN | .parseR | .lkname | .lkid | .csc => 0

/-- The registers a command may write, the others as in `s` (R30, "written by"). -/
def writtenRegs (i : Instr) (s t : State) : Regs :=
  match i with
  | .parseN | .parseR => { s.regs with fmt := t.regs.fmt, tpos := t.regs.tpos, ridx := t.regs.ridx }
  | .lkname => { s.regs with fmt := t.regs.fmt, ridx := t.regs.ridx }
  | .lkid => { s.regs with ridx := t.regs.ridx }
  | .hexdec => { s.regs with roww := t.regs.roww, rowc := t.regs.rowc }
  | .unpk10 => { s.regs with sampw := t.regs.sampw }
  | .csc => { s.regs with rgb := t.regs.rgb }
  | .cond | .decode => s.regs

end Sys2Proof.Spec

open Sys2Proof Sys2Proof.Machine Sys2Proof.Spec

/-! ## Encoding and the step -/

/-- Each `match` word of the command table decodes to its command (R92). -/
def Obligations.CommandWordsDecode : Prop :=
  decode 0x00000001 = .ok .parseN ∧ decode 0x00000101 = .ok .parseR ∧ decode 0x00000002 = .ok .lkname ∧
  decode 0x00000003 = .ok .lkid ∧ decode 0x00000004 = .ok .cond ∧ decode 0x00000005 = .ok .hexdec ∧
  decode 0x00000006 = .ok .unpk10 ∧ decode 0x00000007 = .ok .decode ∧ decode 0x00000008 = .ok .csc

/-- Decode and encode agree, both ways, on every word and every command (R90, R91, R92). -/
def Obligations.DecodeAgreesWithEncode : Prop := ∀ (w : Word) (i : Instr), decode w = .ok i ↔ w = encode i

/-- R94: the words with `OP = 0`, `OP` in 9 to 15, a bit of 7:4 or 31:9 set, or `REG = 1` with `OP` other than 1, and
no others, are illegal; and on the engine's turn an illegal word ends with `IllegalCommand`, nothing else changed. -/
def Obligations.IllegalWordsEndWithIllegalCommand : Prop :=
  (∀ w : Word, (∀ i, w ≠ encode i) ↔
    (w.toNat % 16 = 0 ∨ 9 ≤ w.toNat % 16 ∨ (∃ b, ((4 ≤ b ∧ b ≤ 7) ∨ (9 ≤ b ∧ b ≤ 31)) ∧ w.getLsbD b = true) ∨
      (w.getLsbD 8 = true ∧ w.toNat % 16 ≠ 1))) ∧
  ∀ s : State, s.engineTurn = true → (∀ i, s.cmd ≠ encode i) → step s = .next (failed s 9)

/-- A step on the engine's turn is the decoded command's `exec` (R23, R91). -/
def Obligations.StepRunsDecodedCommand : Prop :=
  ∀ (s : State) (i : Instr), s.engineTurn = true → decode s.cmd = .ok i → step s = exec i s

/-- R23: a host write of `w` to CMD while the block is idle sets CMD, sets BUSY and clears DONE; the next step, when no
host event comes before the command's end, is the command's. That the write changes nothing else, ERR, SHORT, FOUND and
ECODE among it, is the model's reading (notes/assumptions/18.md): the spec leaves those bits open while busy (U10). -/
def Obligations.CmdWriteStartsCommand : Prop :=
  ∀ (s : State) (w : Word) (rest : List HostEvent), s.idleEvent (.write .word 0x00 w) rest →
    ∃ t, step s = .next t ∧
      t = { s with host := rest, cmd := w, status := { s.status with busy := true, done := false } } ∧
      ∀ i, (∀ ev tl, rest = ev :: tl → ev.early = false) → w = encode i → step t = exec i t

/-- Every command ends (R94, R97): on the engine's turn a step always answers a next state, idle and done (R25), with no
internal state left (R20 (e), R58) and IN as before (R46, R252 (e)). That the whole command is one step is the model's
choice (notes/assumptions/2.md), which R292 permits. -/
def Obligations.EngineTurnAlwaysEnds : Prop :=
  ∀ s : State, s.engineTurn = true →
    ∃ t, step s = .next t ∧ t.status.busy = false ∧ t.status.done = true ∧ t.unit = .idle ∧ t.inMem = s.inMem

/-- R25: when a command ends, BUSY is 0, DONE is 1, ERR tells whether ECODE is 0, SHORT and FOUND are 0 after an error
and after every command whose rule does not mention them; and nothing of the STATUS before survives. -/
def Obligations.CommandEndWritesStatus : Prop :=
  ∀ (i : Instr) (s : State), ∃ t, exec i s = .next t ∧
    t.status.busy = false ∧ t.status.done = true ∧ t.status.err = decide (t.status.ecode ≠ 0) ∧
    (t.status.err = true → t.status.short = false ∧ t.status.found = false) ∧
    (t.status.short = true → i = .cond ∨ i = .decode) ∧
    (t.status.found = true → i = .parseR ∨ i = .lkname ∨ i = .lkid) ∧
    ∀ st : Status, exec i { s with status := st } = .next t

/-! ## csc, lkid, lkname -/

/-- `csc` (R202): RGB is the integer formula of R201 on the fields of YCC; nothing else changes but STATUS. -/
def Obligations.CscConvertsOnePixel : Prop :=
  ∀ s : State,
    let y : Byte := BitVec.ofNat 8 s.regs.ycc.toNat
    let cb : Byte := BitVec.ofNat 8 (s.regs.ycc.toNat / 256)
    let cr : Byte := BitVec.ofNat 8 (s.regs.ycc.toNat / 65536)
    exec .csc s = .next { s with
      regs := { s.regs with rgb := BitVec.ofInt 32 (redOf y cr + 256 * greenOf y cb cr + 65536 * blueOf y cb) }
      status := okStatus false false
      unit := .idle }

/-- `lkid` (R133): RIDX is the least entry whose id is FMT, FOUND is 1; with no such entry RIDX is all ones, FOUND is 0;
nothing else changes but STATUS. -/
def Obligations.LkidFindsLeastEntry : Prop :=
  ∀ s : State,
    (∀ i, i < s.cfg.registry.length → s.entryId i = s.regs.fmt → (∀ j, j < i → s.entryId j ≠ s.regs.fmt) →
      exec .lkid s = .next { s with
        regs := { s.regs with ridx := BitVec.ofNat 32 i }, status := okStatus false true, unit := .idle }) ∧
    ((∀ i, i < s.cfg.registry.length → s.entryId i ≠ s.regs.fmt) →
      exec .lkid s = .next { s with
        regs := { s.regs with ridx := 0xFFFFFFFF }, status := okStatus false false, unit := .idle })

/-- `lkname` (R132): a non-empty text beyond IN is `AllocationFailed`. Otherwise the whole text is looked up; a match
sets FMT, RIDX and FOUND; no match, or the empty text, sets RIDX to all ones and is no error; nothing else changes but
STATUS. -/
def Obligations.LknameLooksUpWholeText : Prop :=
  ∀ s : State, (¬ WindowFits s → exec .lkname s = .next (failed s 8)) ∧
    ∀ t : List Byte, WindowFits s → TextIs s t →
      (∀ i, t ≠ [] → i < s.cfg.registry.length → NameMatches t (s.entryName i) →
        (∀ j, j < i → ¬ NameMatches t (s.entryName j)) →
        exec .lkname s = .next { s with
          regs := { s.regs with fmt := s.entryId i, ridx := BitVec.ofNat 32 i }
          status := okStatus false true
          unit := .idle }) ∧
      ((t = [] ∨ ∀ i, i < s.cfg.registry.length → ¬ NameMatches t (s.entryName i)) →
        exec .lkname s = .next { s with
          regs := { s.regs with ridx := 0xFFFFFFFF }, status := okStatus false false, unit := .idle })

/-! ## parse.n, parse.r -/

/-- The numeric path of both parse commands (R126, R128, R130, R131): TPOS moves past the literal, RIDX is all ones, FMT
is the literal's value when it fits in 32 bits and some word otherwise (a free value: nothing is said of it); nothing
else changes but STATUS and the model's own count of draws. -/
def Obligations.ParseTakesNumericLiteral : Prop :=
  ∀ (i : Instr) (s : State) (base : Nat) (pre ds rest : List Byte), i = .parseN ∨ i = .parseR → WindowFits s →
    TextIs s (pre ++ ds ++ rest) → LiteralAt base pre ds rest →
    ∃ x d, exec i s = .next { s with
        regs := { s.regs with
          fmt := x, tpos := s.regs.tpos + BitVec.ofNat 32 (pre.length + ds.length), ridx := 0xFFFFFFFF }
        status := okStatus false false
        unit := .idle
        draws := d } ∧
      (literalValue base ds < 2 ^ 32 → x = BitVec.ofNat 32 (literalValue base ds) ∧ d = s.draws)

/-- The name path of `parse.r` (R131): the whole token is looked up; a match sets FMT, TPOS, RIDX and FOUND; no match is
`SymbolNotFound`, nothing changed but STATUS. -/
def Obligations.ParseRResolvesName : Prop :=
  ∀ (s : State) (tok rest : List Byte), WindowFits s → TextIs s (tok ++ rest) → NameAt tok rest →
    (∀ i, i < s.cfg.registry.length → NameMatches tok (s.entryName i) →
      (∀ j, j < i → ¬ NameMatches tok (s.entryName j)) →
      exec .parseR s = .next { s with
        regs := { s.regs with
          fmt := s.entryId i, tpos := s.regs.tpos + BitVec.ofNat 32 tok.length, ridx := BitVec.ofNat 32 i }
        status := okStatus false true
        unit := .idle }) ∧
    ((∀ i, i < s.cfg.registry.length → ¬ NameMatches tok (s.entryName i)) → exec .parseR s = .next (failed s 2))

/-- `EmptySymbol` (R244): `parse.n` and `parse.r` raise it on an empty text and on a first byte that is no letter, digit
or underscore; `lkname` does not: an empty name is not found. -/
def Obligations.EmptySymbolWhenNothingConsumable : Prop :=
  ∀ s : State, WindowFits s →
    ((s.regs.tend.toNat ≤ s.regs.tpos.toNat ∨ ¬ WordByte (s.inByte s.regs.tpos.toNat)) →
      exec .parseN s = .next (failed s 1) ∧ exec .parseR s = .next (failed s 1)) ∧
    (s.regs.tend.toNat ≤ s.regs.tpos.toNat →
      exec .lkname s = .next { s with
        regs := { s.regs with ridx := 0xFFFFFFFF }, status := okStatus false false, unit := .idle })

/-- With no registry supplied, a token that starts with a letter or an underscore is `NumericOnlyExpected`, whatever the
token is, even a name the registry holds (R130, R245). -/
def Obligations.NameWithoutRegistryIsNumericOnlyExpected : Prop :=
  ∀ s : State, WindowFits s → s.regs.tpos.toNat < s.regs.tend.toNat →
    WordByte (s.inByte s.regs.tpos.toNat) → ¬ DigitByte (s.inByte s.regs.tpos.toNat) →
    exec .parseN s = .next (failed s 3)

/-- `parse.r` does not tell letter case (R129, R131): two texts that are equal under `fold`, byte for byte, are resolved
alike, to the same registers and STATUS, on the name path and on the numeric path. FMT is the same word when no free
value was drawn for it; of a literal of `2^32` or more nothing is said (R128). -/
def Obligations.ParseRIgnoresLetterCase : Prop :=
  ∀ (s s' t t' : State) (x x' : List Byte), s'.cfg = s.cfg → s'.regs = s.regs → s'.rom = s.rom → TextIs s x →
    TextIs s' x' → x'.map fold = x.map fold → exec .parseR s = .next t → exec .parseR s' = .next t' →
    t'.status = t.status ∧ t'.regs = { t.regs with fmt := t'.regs.fmt } ∧
      (t.draws = s.draws → t'.regs.fmt = t.regs.fmt)

/-- The source's round trip (R129, R132, R133, R121; the spec derives it itself in R134): for every registry entry,
`lkid` on its id finds the least entry with that id, and `lkname` on the name of that entry gives the same entry and the
id back. -/
def Obligations.RegistryRoundTrip : Prop :=
  ∀ (s : State) (e : Entry), s.cfg.wf = true → s.rom = romImage s.cfg.registry → e ∈ s.cfg.registry →
    s.regs.fmt = e.id →
    ∃ t j e', exec .lkid s = .next t ∧ s.cfg.registry[j]? = some e' ∧ e'.id = e.id ∧
      (∀ k x, k < j → s.cfg.registry[k]? = some x → x.id ≠ e.id) ∧ t.regs.ridx = BitVec.ofNat 32 j ∧
      t.status = okStatus false true ∧
      ∀ u : State, u.cfg = s.cfg → u.rom = s.rom → WindowFits u → TextIs u e'.name →
        ∃ v, exec .lkname u = .next v ∧ v.regs.fmt = e.id ∧ v.regs.ridx = BitVec.ofNat 32 j ∧
          v.status = okStatus false true

/-! ## Capacity -/

/-- `AllocationFailed` of the text commands (R250): a non-empty text that runs beyond IN. For `hexdec` OUT is
unspecified afterwards (R217): nothing is said of it. -/
def Obligations.TextBeyondInIsAllocationFailed : Prop :=
  ∀ s : State, s.regs.tpos.toNat < s.regs.tend.toNat → s.cfg.inSize < s.regs.tend.toNat →
    exec .parseN s = .next (failed s 8) ∧ exec .parseR s = .next (failed s 8) ∧ exec .lkname s = .next (failed s 8) ∧
    ∃ t, exec .hexdec s = .next t ∧ t = { failed s 8 with outMem := t.outMem, draws := t.draws }

/-- `AllocationFailed` of `cond`, `unpk10` and `decode` (R250): raised exactly when the operands describe data that does
not fit IN or OUT, for `decode` after the format and geometry tests. All products are exact. -/
def Obligations.CapacityChecksAreExact : Prop :=
  ∀ s : State,
    (∃ t, exec .cond s = .next t ∧
      (t.status.ecode = 8 ↔ s.cfg.inSize < s.regs.slen.toNat ∨ s.cfg.outSize < s.regs.rlen.toNat)) ∧
    (∃ t, exec .unpk10 s = .next t ∧
      (t.status.ecode = 8 ↔ s.cfg.inSize < s.regs.roww.toNat * s.regs.rowc.toNat ∨
        s.cfg.outSize < 2 * (8 * s.regs.roww.toNat / 10) * s.regs.rowc.toNat)) ∧
    ∀ f, FormatIs s f → 0 < s.regs.width.toInt → 0 < s.regs.height.toInt →
      ∃ t, exec .decode s = .next t ∧
        (t.status.ecode = 8 ↔ s.cfg.inSize < s.regs.slen.toNat ∨
          (s.cfg.outSize : Int) < 3 * s.regs.width.toInt * s.regs.height.toInt)

/-! ## cond -/

/-- `cond` (R152, R153): what does not fit IN or OUT is `AllocationFailed`, OUT not written. Otherwise RLEN bytes, the
source's own below SLEN and 0 from there on; SHORT tells that zeros were added; every other byte of OUT and every other
field as before, but STATUS. -/
def Obligations.CondCopiesConditionedSource : Prop :=
  ∀ s : State,
    ((s.cfg.inSize < s.regs.slen.toNat ∨ s.cfg.outSize < s.regs.rlen.toNat) → exec .cond s = .next (failed s 8)) ∧
    (s.regs.slen.toNat ≤ s.cfg.inSize → s.regs.rlen.toNat ≤ s.cfg.outSize →
      ∃ t, exec .cond s = .next t ∧
        t = { s with
          outMem := t.outMem
          status := okStatus (decide (s.regs.slen.toNat < s.regs.rlen.toNat)) false
          unit := .idle } ∧
        (∀ a, a < s.regs.rlen.toNat → t.outByte a = if a < s.regs.slen.toNat then s.inByte a else 0) ∧
        ∀ a, s.regs.rlen.toNat ≤ a → t.outByte a = s.outByte a)

/-! ## hexdec -/

/-- `hexdec` against its declarative reading (R210 to R216): cut the text into lines and the lines into maximal runs of
hex digits. When every run has two digits, every non-empty line as many as the first, and the bytes fit OUT, the bytes
are in OUT from 0 on, ROWW and ROWC tell the shape, and nothing else changes but STATUS. Otherwise the first fault in
text order decides the code, and the registers keep their values (OUT is unspecified, R217: nothing is said of it). -/
def Obligations.HexdecDecodesRows : Prop :=
  ∀ (s : State) (x : List Byte), WindowFits s → TextIs s x →
    (rowsVerdict s.cfg.outSize 0 0 (hexRows x) = none →
      ∃ t, exec .hexdec s = .next t ∧
        t = { s with
          outMem := t.outMem
          regs := { s.regs with
            roww := BitVec.ofNat 32 (rowWidth (hexRows x)), rowc := BitVec.ofNat 32 (rowCount (hexRows x)) }
          status := okStatus false false
          unit := .idle } ∧
        (∀ k b, ((hexRows x).flatten.map runByte)[k]? = some b → t.outByte k = b) ∧
        ∀ a, (hexRows x).flatten.length ≤ a → t.outByte a = s.outByte a) ∧
    ∀ code, rowsVerdict s.cfg.outSize 0 0 (hexRows x) = some code →
      ∃ t, exec .hexdec s = .next t ∧ t = { failed s code with outMem := t.outMem, draws := t.draws }

/-! ## unpk10 -/

/-- `unpk10` (R221, R222, R224): rows that do not fit IN, or samples that do not fit OUT, are `AllocationFailed`, nothing
written. Otherwise `floor(8*ROWW/10)` samples a row, each the ten stream bits of its place, most significant first,
written as a 16-bit little-endian word; SAMPW is the sample width; every other byte of OUT and every other field as
before, but STATUS. -/
def Obligations.Unpk10UnpacksBitstream : Prop :=
  ∀ s : State,
    ((s.cfg.inSize < s.regs.roww.toNat * s.regs.rowc.toNat ∨
        s.cfg.outSize < 2 * (8 * s.regs.roww.toNat / 10) * s.regs.rowc.toNat) →
      exec .unpk10 s = .next (failed s 8)) ∧
    (s.regs.roww.toNat * s.regs.rowc.toNat ≤ s.cfg.inSize →
      2 * (8 * s.regs.roww.toNat / 10) * s.regs.rowc.toNat ≤ s.cfg.outSize →
      ∃ t, exec .unpk10 s = .next t ∧
        t = { s with
          outMem := t.outMem
          regs := { s.regs with sampw := BitVec.ofNat 32 (8 * s.regs.roww.toNat / 10) }
          status := okStatus false false
          unit := .idle } ∧
        (∀ r k, r < s.regs.rowc.toNat → k < 8 * s.regs.roww.toNat / 10 →
          IsSample s (r * s.regs.roww.toNat) k
            ((t.outByte (2 * (r * (8 * s.regs.roww.toNat / 10) + k))).toNat +
              256 * (t.outByte (2 * (r * (8 * s.regs.roww.toNat / 10) + k) + 1)).toNat)) ∧
        ∀ a, 2 * (8 * s.regs.roww.toNat / 10) * s.regs.rowc.toNat ≤ a → t.outByte a = s.outByte a)

/-- The source's round trip (R222, R224; the spec derives it itself in R226): rows of `n` known values each, packed
MSB-first into `ceil(10*n/8)` bytes a row, the last byte of a row padded with any bits, are the values `unpk10` writes,
two bytes each, low byte first. -/
def Obligations.Unpk10RecoversPackedValues : Prop :=
  ∀ (s : State) (n : Nat) (vals : List (List (BitVec 10))), (∀ row ∈ vals, row.length = n) →
    s.regs.rowc.toNat = vals.length → s.regs.roww.toNat = (10 * n + 7) / 8 →
    s.regs.roww.toNat * s.regs.rowc.toNat ≤ s.cfg.inSize → 2 * n * vals.length ≤ s.cfg.outSize →
    (∀ r row k v j, vals[r]? = some row → row[k]? = some v → j < 10 →
      v.getLsbD (9 - j) = streamBit s (r * s.regs.roww.toNat) (10 * k + j)) →
    ∃ t, exec .unpk10 s = .next t ∧ t.regs.sampw = BitVec.ofNat 32 n ∧ t.status = okStatus false false ∧
      ∀ r row k v, vals[r]? = some row → row[k]? = some v →
        (t.outByte (2 * (r * n + k))).toNat = v.toNat % 256 ∧ (t.outByte (2 * (r * n + k) + 1)).toNat = v.toNat / 256

/-! ## decode -/

/-- The errors of `decode` and their order (R161, R163, R164, R168, R251): a FMT that is none of the six ids is
`UnsupportedFormat` whatever the geometry; then a width or height that is not positive is `GeometryInvalid` whatever the
sizes; then what does not fit is `AllocationFailed`. Nothing changes but STATUS. -/
def Obligations.DecodeErrorsInOrder : Prop :=
  ∀ s : State, s.cfg.wf = true →
    ((∀ f, ¬ FormatIs s f) → exec .decode s = .next (failed s 4)) ∧
    ∀ f, FormatIs s f →
      ((s.regs.width.toInt ≤ 0 ∨ s.regs.height.toInt ≤ 0) → exec .decode s = .next (failed s 5)) ∧
      (0 < s.regs.width.toInt → 0 < s.regs.height.toInt →
        (s.cfg.inSize < s.regs.slen.toNat ∨ s.cfg.outSize < 3 * wid s * hgt s) →
        exec .decode s = .next (failed s 8))

/-- The GREY scanner (R170): every pixel is `(v, v, v)`, `v` the conditioned source byte of its place. -/
def Obligations.GreyCopiesLuma : Prop :=
  ∀ s : State, DecodeFits s .grey →
    ∃ t, DecodeEnds s .grey t ∧
      ∀ r c k, r < hgt s → c < wid s → k < 3 →
        t.outByte (3 * (r * wid s + c) + k) = source s .grey (r * strideOf s 1 + c)

/-- The NV12 scanner (R171, R172): luma of the pixel, the chroma pair of its 2x2 block, the formula of R201. -/
def Obligations.Nv12ConvertsEachPixel : Prop :=
  ∀ s : State, DecodeFits s .nv12 →
    ∃ t, DecodeEnds s .nv12 t ∧
      ∀ r c, r < hgt s → c < wid s →
        let y := source s .nv12 (r * strideOf s 1 + c)
        let ca := strideOf s 1 * hgt s + r / 2 * strideOf s 1 + 2 * (c / 2)
        let cb := source s .nv12 ca
        let cr := source s .nv12 (ca + 1)
        ((t.outByte (3 * (r * wid s + c))).toNat : Int) = redOf y cr ∧
        ((t.outByte (3 * (r * wid s + c) + 1)).toNat : Int) = greenOf y cb cr ∧
        ((t.outByte (3 * (r * wid s + c) + 2)).toNat : Int) = blueOf y cb

/-- The four Bayer scanners (R180 to R189): in every output pixel each channel is the sample of the latest site of that
channel in scan order, the site itself included, and 0 when there is none yet. The sites are those of the 2x2 tile the
format's name spells. -/
def Obligations.BayerHoldsLatestSample : Prop :=
  ∀ (s : State) (f : Format), f ≠ .nv12 → f ≠ .grey → DecodeFits s f →
    ∃ t, DecodeEnds s f t ∧
      ∀ n ch, n < wid s * hgt s →
        (∀ m, m ≤ n → channelAt s f m = some ch → (∀ k, m < k → k ≤ n → channelAt s f k ≠ some ch) →
          (t.outByte (3 * n + ch.index)).toNat = sampleAt s f m) ∧
        ((∀ m, m ≤ n → channelAt s f m ≠ some ch) → t.outByte (3 * n + ch.index) = 0)

/-- A non-positive STRIDE means "derive" (R166): with any non-positive STRIDE `decode` does what it does with STRIDE set
to `WIDTH * bpp`. -/
def Obligations.NonPositiveStrideIsDerived : Prop :=
  ∀ (s : State) (f : Format) (t : State), DecodeFits s f → s.regs.stride.toInt ≤ 0 → wid s * bpp f < 2 ^ 31 →
    exec .decode s = .next t →
    exec .decode { s with regs := { s.regs with stride := BitVec.ofNat 32 (wid s * bpp f) } } =
      .next { t with regs := { s.regs with stride := BitVec.ofNat 32 (wid s * bpp f) } }

/-- `decode` of a short source is `decode` of the explicitly conditioned source (R150, and the end of P5): filling IN
with zeros up to the required length and declaring it all gives the same raster, only SHORT differs. -/
def Obligations.ShortSourceDecodesAsZeroFilled : Prop :=
  ∀ (s : State) (f : Format) (m : Memory) (n : Word), DecodeFits s f → n.toNat = reqOf s f →
    s.regs.slen.toNat ≤ reqOf s f → reqOf s f ≤ s.cfg.inSize →
    (∀ a, a < reqOf s f →
      State.inByte { s with inMem := m } a = if a < s.regs.slen.toNat then s.inByte a else 0) →
    ∃ t u, exec .decode s = .next t ∧
      exec .decode { s with inMem := m, regs := { s.regs with slen := n } } = .next u ∧
      u.outMem = t.outMem ∧ u.status = okStatus false false

/-- `BAYER_NARROW` matters only for words above 1023 (R183): when every site's word is at most 1023, both settings give
the same raster. -/
def Obligations.NarrowingIrrelevantForTenBitWords : Prop :=
  ∀ (s : State) (f : Format) (nr : Narrow) (t : State), f ≠ .nv12 → f ≠ .grey → DecodeFits s f →
    (∀ n, n < wid s * hgt s → wordAt s f n ≤ 1023) → exec .decode s = .next t →
    exec .decode { s with cfg := { s.cfg with narrow := nr } } = .next { t with cfg := { s.cfg with narrow := nr } }

/-! ## What commands leave alone, and what they do not look at -/

/-- The frame every command keeps (R21, R30, R45, R46, R61, R252 (e)): the parameters, CMD, CTRL, the ROM and IN; the
registers no command or this command does not write; and no internal state is left (R20 (e)). -/
def Obligations.CommandsKeepTheirFrame : Prop :=
  ∀ (i : Instr) (s t : State), exec i s = .next t →
    t.cfg = s.cfg ∧ t.cmd = s.cmd ∧ t.ctrl = s.ctrl ∧ t.rom = s.rom ∧ t.inMem = s.inMem ∧ t.host = s.host ∧
    t.reply = s.reply ∧ t.unit = .idle ∧ t.regs = writtenRegs i s t

/-- What a command without error writes of OUT (R47, R287): from `OUT[0]` on, as many bytes as its own size says; every
other byte reads as before. Commands that write no output leave all of OUT. -/
def Obligations.OutBeyondResultUnchanged : Prop :=
  ∀ (i : Instr) (s t : State), s.cfg.wf = true → exec i s = .next t → t.status.err = false →
    ∀ a, writtenOut i t ≤ a → t.outByte a = s.outByte a

/-- Errors are precise (R252), for every word in CMD, the illegal ones too: IN and the ROM are never changed; after an
error STATUS takes the code with ERR and DONE set and every other flag 0, every register keeps its value, and for every
command but `hexdec` the state is the one before with STATUS updated; after a failed `hexdec` only OUT (and the model's
own count of draws) may differ further. -/
def Obligations.ErrorsArePrecise : Prop :=
  ∀ s t : State, s.engineTurn = true → step s = .next t →
    (t.inMem = s.inMem ∧ t.rom = s.rom) ∧
    (t.status.err = true →
      t.status = errStatus t.status.ecode ∧ t.regs = s.regs ∧
      (s.cmd ≠ encode .hexdec → t = failed s t.status.ecode) ∧
      (s.cmd = encode .hexdec → t = { failed s t.status.ecode with outMem := t.outMem, draws := t.draws }))

/-- No command reads OUT (R47, R61): other contents of OUT give the same registers and STATUS, and each byte of OUT is
either written with the same value or left alone. -/
def Obligations.CommandsNeverReadOut : Prop :=
  ∀ (i : Instr) (s t : State) (m : Memory), exec i s = .next t →
    ∃ u, exec i { s with outMem := m } = .next u ∧ u = { t with outMem := u.outMem } ∧
      ∀ a, u.outByte a = t.outByte a ∨
        (t.outByte a = s.outByte a ∧ u.outByte a = State.outByte { s with outMem := m } a)

/-- A command reads only the bytes of IN its rule names (R61, R66, R67, R190, R283): other contents anywhere else give
the same end. -/
def Obligations.CommandsReadOnlyTheirSource : Prop :=
  ∀ (i : Instr) (s t : State) (m : Memory),
    (∀ a, ReadsIn i s a → State.inByte { s with inMem := m } a = s.inByte a) → exec i s = .next t →
    exec i { s with inMem := m } = .next { t with inMem := m }

/-- No command reads a flag, CTRL, CMD or what an earlier command left in the units (R27, R41, R54): hold registers and
phase bits carry nothing from one command to the next. -/
def Obligations.CommandsIgnoreFlagsAndLeftovers : Prop :=
  ∀ (i : Instr) (s t : State) (st : Status) (c w : Word) (u : UnitState), exec i s = .next t →
    exec i { s with status := st, ctrl := c, cmd := w, unit := u } = .next { t with ctrl := c, cmd := w }

/-! ## The host -/

/-- A read of a register returns it whole, the field of the state that the map names, and has no side effect (R22, R23,
R30, R38, R63). -/
def Obligations.HostReadsRegister : Prop :=
  ∀ (s : State) (off : Nat) (v : Word) (rest : List HostEvent), (off, v) ∈ registerValues s →
    s.idleEvent (.read .word off) rest → step s = .next { s with host := rest, reply := some v }

/-- What the host reads of STATUS, bit by bit, and of NREG, the parameter (R24, R28). -/
def Obligations.StatusAndNregReadAsSpecified : Prop :=
  ∀ (s : State) (rest : List HostEvent),
    (s.idleEvent (.read .word 0x04) rest →
      ∃ v : Word, step s = .next { s with host := rest, reply := some v } ∧
        (v.getLsbD 0 = s.status.busy ∧ v.getLsbD 1 = s.status.done ∧ v.getLsbD 2 = s.status.err ∧
          v.getLsbD 3 = s.status.short ∧ v.getLsbD 4 = s.status.found) ∧
        (∀ b, b < 4 → v.getLsbD (8 + b) = s.status.ecode.getLsbD b) ∧
        ∀ b, (5 ≤ b ∧ b ≤ 7) ∨ 12 ≤ b → v.getLsbD b = false) ∧
    (s.idleEvent (.read .word 0x0C) rest →
      step s = .next { s with host := rest, reply := some (BitVec.ofNat 32 s.cfg.registry.length) })

/-- A host write to a register other than CMD and STATUS changes that field of the state and nothing else: read-only
registers ignore it, reserved bits stay 0 (R27, R28, R30, R37, R38). -/
def Obligations.HostWritesRegister : Prop :=
  ∀ (s t : State) (off : Nat) (v : Word) (rest : List HostEvent), (off, t) ∈ registerWrites s v →
    s.idleEvent (.write .word off v) rest → step s = .next { t with host := rest }

/-- A host write to STATUS changes nothing but DONE: bit 1 set clears it, bit 1 clear leaves it (R24). -/
def Obligations.StatusWriteClearsDoneOnly : Prop :=
  ∀ (s : State) (v : Word) (rest : List HostEvent), s.idleEvent (.write .word 0x04 v) rest →
    step s = .next { s with
      host := rest, status := { s.status with done := if v.getLsbD 1 = true then false else s.status.done } }

/-- Reserved register offsets and unmapped offsets read 0 and ignore writes (R29, R60). -/
def Obligations.ReservedAndUnmappedOffsets : Prop :=
  ∀ (s : State) (w : Width) (n off : Nat) (v : Word) (rest : List HostEvent), s.cfg.wf = true → (w, n) ∈ accessWidths →
    ((n = 4 ∧ 0x48 ≤ off ∧ off ≤ 0xFFC ∧ off % 4 = 0) ∨ ∀ k, k < n → Unmapped s (off + k)) →
    (s.idleEvent (.read w off) rest → step s = .next { s with host := rest, reply := some 0 }) ∧
    (s.idleEvent (.write w off v) rest → step s = .next { s with host := rest })

/-- A host read of 1, 2 or 4 bytes of ROM, IN or OUT, naturally aligned and inside the memory, is the little-endian
composition of the bytes and has no side effect (R60, R62, R64, R68). -/
def Obligations.HostReadsMemoryLittleEndian : Prop :=
  ∀ (s : State) (w : Width) (n base size a : Nat) (rd : Nat → Byte) (rest : List HostEvent), s.cfg.wf = true →
    (w, n) ∈ accessWidths → (base, size, rd) ∈ memoryWindow s → a % n = 0 → a + n ≤ size →
    s.idleEvent (.read w (base + a)) rest →
    ∃ v : Word, step s = .next { s with host := rest, reply := some v } ∧ v.toNat < 256 ^ n ∧
      ∀ k, k < n → v.toNat / 256 ^ k % 256 = (rd (a + k)).toNat

/-- A host write of 1, 2 or 4 bytes of IN, naturally aligned and inside the memory, stores the low bytes of the value,
lowest first, and changes nothing else (R60, R64). -/
def Obligations.HostWritesInput : Prop :=
  ∀ (s : State) (w : Width) (n a : Nat) (v : Word) (rest : List HostEvent), s.cfg.wf = true → (w, n) ∈ accessWidths →
    a % n = 0 → a + n ≤ s.cfg.inSize → s.idleEvent (.write w (0x1000000 + a) v) rest →
    ∃ t, step s = .next t ∧ t = { s with host := rest, inMem := t.inMem } ∧
      (∀ k, k < n → (t.inByte (a + k)).toNat = v.toNat / 256 ^ k % 256) ∧
      ∀ x, x < a ∨ a + n ≤ x → t.inByte x = s.inByte x

/-- Host writes to ROM and OUT are ignored (R60; the model's reading against U9, notes/assumptions/10.md). -/
def Obligations.HostWritesToRomAndOutIgnored : Prop :=
  ∀ (s : State) (w : Width) (n base size a : Nat) (v : Word) (rest : List HostEvent), s.cfg.wf = true →
    (w, n) ∈ accessWidths →
    ((base = 0x1000 ∧ size = 32 * s.cfg.registry.length) ∨ (base = 0x2000000 ∧ size = s.cfg.outSize)) →
    a % n = 0 → a + n ≤ size → s.idleEvent (.write w (base + a) v) rest → step s = .next { s with host := rest }

/-- The host's copy (R78): one byte of OUT into IN, nothing else changed but what the host has read. -/
def Obligations.HostCopiesOutToIn : Prop :=
  ∀ (s : State) (d x : Nat) (rest : List HostEvent), s.cfg.wf = true → d < s.cfg.inSize → x < s.cfg.outSize →
    s.idleEvent (.move (0x1000000 + d) (0x2000000 + x)) rest →
    ∃ t, step s = .next t ∧ t = { s with host := rest, inMem := t.inMem, reply := t.reply } ∧
      t.inByte d = s.outByte x ∧ ∀ a, a ≠ d → t.inByte a = s.inByte a

/-- Host accesses outside the contract are refused (R63, R64, U9): a register access that is not an aligned word; a wide
access to ROM, IN or OUT that is misaligned or crosses the end. -/
def Obligations.AccessesOutsideContractRefused : Prop :=
  ∀ (s : State) (w : Width) (n : Nat) (v : Word) (rest : List HostEvent), s.cfg.wf = true → (w, n) ∈ accessWidths →
    (∀ off, off < 0x1000 → (n ≠ 4 ∨ off % 4 ≠ 0) →
      (s.idleEvent (.read w off) rest → step s = .refused .hostRegisterAccess) ∧
      (s.idleEvent (.write w off v) rest → step s = .refused .hostRegisterAccess)) ∧
    ∀ base size rd a, (base, size, rd) ∈ memoryWindow s → a < size → (a % n ≠ 0 ∨ size < a + n) →
      (s.idleEvent (.read w (base + a)) rest → step s = .refused .hostWideAccess) ∧
      (s.idleEvent (.write w (base + a) v) rest → step s = .refused .hostWideAccess)

/-- The busy rule (R286): before a running command has ended the host may read STATUS, which shows BUSY = 1 and changes
nothing of the block, the other bits unspecified (nothing is said of them); any other access is refused (U7). -/
def Obligations.BusyRule : Prop :=
  ∀ (s : State) (op : HostOp) (rest : List HostEvent), s.busyEvent op rest →
    (op = .read .word 0x04 →
      ∃ v d, step s = .next { s with host := rest, reply := some v, draws := d } ∧ v.getLsbD 0 = true) ∧
    (op ≠ .read .word 0x04 → op ≠ .reset → step s = .refused .hostWhileBusy)

/-- Reset (R58, R280, R281), while idle or while a command runs: every register at its reset value, the ROM the
registry's image, every byte of IN and OUT unspecified, no command running. The model's choices
(notes/assumptions/14.md): an unspecified byte is one with no stored value, and the host's later events stay. -/
def Obligations.ResetRestoresInitialState : Prop :=
  ∀ (s : State) (rest : List HostEvent), (s.idleEvent .reset rest ∨ s.busyEvent .reset rest) →
    ∃ t, step s = .next t ∧
      t.cmd = 0 ∧ t.status = { busy := false, done := false, err := false, short := false, found := false, ecode := 0 } ∧
      t.ctrl = 0 ∧ t.irq = false ∧
      t.regs = { fmt := 0, width := 0, height := 0, stride := 0, slen := 0, rlen := 0, tpos := 0, tend := 0, roww := 0,
                 rowc := 0, sampw := 0, ridx := 0xFFFFFFFF, ycc := 0, rgb := 0 } ∧
      t.readReg .nreg = BitVec.ofNat 32 s.cfg.registry.length ∧
      t.cfg = s.cfg ∧ t.rom = romImage s.cfg.registry ∧ (∀ a, t.inMem.get? a = none ∧ t.outMem.get? a = none) ∧
      t.unit = .idle ∧ t.host = rest

/-- With nothing for the host to do and no command running the block waits (R282). -/
def Obligations.IdleBlockWaits : Prop :=
  ∀ s : State, s.status.busy = false → s.host = [] → step s = .next s

/-- The interrupt (R26, R260): a command's end raises `irq` exactly when CTRL.IE is set, a CMD write lowers it, and so
does the acknowledgement. -/
def Obligations.InterruptFollowsCompletion : Prop :=
  ∀ (s t : State) (rest : List HostEvent) (w : Word), step s = .next t →
    (s.engineTurn = true → t.irq = s.ctrl.getLsbD 0) ∧
    (s.idleEvent (.write .word 0x00 w) rest → t.irq = false) ∧
    (s.idleEvent (.write .word 0x04 2) rest → t.irq = false)

/-! ## Invariants -/

/-- The machine's first state is the state after reset (R58, R280) of the standard instance, which is the model's own
choice (notes/assumptions/4.md), with no host event to come. -/
def Obligations.FirstStateIsAfterReset : Prop :=
  let s := State.reset
  s.cmd = 0 ∧ statusValue s.status = 0 ∧ s.ctrl = 0 ∧ s.irq = false ∧
    s.regs = { fmt := 0, width := 0, height := 0, stride := 0, slen := 0, rlen := 0, tpos := 0, tend := 0, roww := 0,
               rowc := 0, sampw := 0, ridx := 0xFFFFFFFF, ycc := 0, rgb := 0 } ∧
    s.readReg .nreg = BitVec.ofNat 32 s.cfg.registry.length ∧ s.rom = romImage s.cfg.registry ∧
    (∀ a, s.inMem.get? a = none ∧ s.outMem.get? a = none) ∧ s.unit = .idle ∧ s.host = []

/-- The state after reset meets the invariant. -/
def Obligations.InvariantHoldsAtReset : Prop := State.reset.Inv

/-- Every step that answers a next state keeps the invariant: canonical memories inside their sizes, the ROM the
registry's image, STATUS consistent, reserved bits 0, no internal state left behind. -/
def Obligations.StepKeepsInvariant : Prop := ∀ s t : State, s.Inv → step s = .next t → t.Inv

/-- No step changes the ROM or the parameters (R21, R45, R123), in states that meet the invariant. -/
def Obligations.RomNeverChanges : Prop :=
  ∀ s t : State, s.Inv → step s = .next t → t.rom = s.rom ∧ t.cfg = s.cfg

/-- A step is refused only on a host event, never on the engine's turn: every word in CMD runs to an end (R94, R97). That
no step faults is the model's reading (notes/assumptions/19.md): its type of faults is empty, since the spec gives no
open point that treatment. -/
def Obligations.OnlyHostMovesAreRefused : Prop :=
  ∀ s : State, (∀ e : Fault, step s ≠ .fault e) ∧ (∀ why, step s = .refused why → s.engineTurn = false ∧ s.host ≠ [])
end

