-- ==== Sys2Proof/Laws/Exec.lean ====
section
/-! SUPPORT. What a command can do, said once: how it ends, and what it does to OUT. Claims about every command follow
from these by cases on nothing. -/

namespace Sys2Proof.Machine

/-! ### How a command ends -/

/-- The fields no command touches: the parameters, CMD, CTRL, the ROM, IN, the host's own. -/
structure Kept (s u : State) : Prop where
  cfg : u.cfg = s.cfg
  cmd : u.cmd = s.cmd
  ctrl : u.ctrl = s.ctrl
  rom : u.rom = s.rom
  inMem : u.inMem = s.inMem
  host : u.host = s.host
  reply : u.reply = s.reply

/-- `o` is the end of command `i` from `s`: a next state, whose STATUS is written at once, over a state `u` that keeps
what no command touches; after an error the registers too, and for every command but `hexdec` OUT and the draws. -/
structure Ends (i : Instr) (s : State) (o : Host.Outcome State Fault Refusal) (u : State) (e : BitVec 4) (sh fo : Bool) :
    Prop where
  next : o = .next (u.finish e sh fo)
  kept : Kept s u
  code : e.toNat ≤ 8
  noFlags : e ≠ 0 → sh = false ∧ fo = false
  short : sh = true → i = .cond ∨ i = .decode
  found : fo = true → i = .parseR ∨ i = .lkname ∨ i = .lkid
  regs : e ≠ 0 → u.regs = s.regs
  out : e ≠ 0 → i ≠ .hexdec → u.outMem = s.outMem ∧ u.draws = s.draws

/-- A command ends in some way. -/
def EndsSomehow (i : Instr) (s : State) (o : Host.Outcome State Fault Refusal) : Prop :=
  ∃ u e sh fo, Ends i s o u e sh fo

theorem endsSomehow_raise (i : Instr) (s : State) (e : Error) (he : e ≠ .illegalCommand) :
    EndsSomehow i s (raise s e) :=
  ⟨s, errorCode e, false, false, rfl, ⟨rfl, rfl, rfl, rfl, rfl, rfl, rfl⟩,
    by cases e <;> first | decide | exact absurd rfl he, by simp, by simp, by simp, by simp, by simp⟩

theorem endsSomehow_complete (i : Instr) (s u : State) (sh fo : Bool) (h : Kept s u)
    (h1 : sh = true → i = .cond ∨ i = .decode) (h2 : fo = true → i = .parseR ∨ i = .lkname ∨ i = .lkid) :
    EndsSomehow i s (complete u sh fo) :=
  ⟨u, 0, sh, fo, rfl, h, by decide, by simp, h1, h2, by simp, by simp⟩

theorem endsSomehow_takeNumber (i : Instr) (s : State) (t : List Byte) : EndsSomehow i s (takeNumber t s) := by
  unfold takeNumber
  dsimp only
  split <;> exact endsSomehow_complete i s _ _ _ ⟨rfl, rfl, rfl, rfl, rfl, rfl, rfl⟩ (by simp) (by simp)

theorem endsSomehow_hexFail (s : State) (e : Error) (he : e ≠ .illegalCommand) :
    EndsSomehow .hexdec s (hexFail s e) :=
  ⟨s.spoilOut, errorCode e, false, false, rfl, ⟨rfl, rfl, rfl, rfl, rfl, rfl, rfl⟩,
    by cases e <;> first | decide | exact absurd rfl he, by simp, by simp, by simp, by simp, by simp⟩

theorem closeRun_ne_illegal (n : Nat) (h : HexRegs) (out : Memory) : closeRun n h out ≠ .failed .illegalCommand := by
  unfold closeRun; repeat' split
  all_goals simp

theorem closeBoth_ne_illegal (n : Nat) (h : HexRegs) (out : Memory) : closeBoth n h out ≠ .failed .illegalCommand := by
  unfold closeBoth
  split
  · unfold closeRow; repeat' split
    all_goals simp
  · rename_i e he; intro h2; injection h2 with h2; subst h2; exact closeRun_ne_illegal _ _ _ he

/-- The walk of `hexdec` raises its own errors only. -/
theorem hexLoop_ne_illegal (n : Nat) (t : List Byte) (h : HexRegs) (out : Memory) :
    hexLoop n t h out ≠ .failed .illegalCommand := by
  induction t generalizing h out with
  | nil => exact closeBoth_ne_illegal n h out
  | cons c t ih =>
    unfold hexLoop
    split
    · exact ih _ _
    · rename_i e he; intro h2; injection h2 with h2; subst h2
      unfold hexChar at he
      split at he
      · simp at he
      · split at he
        · exact closeBoth_ne_illegal _ _ _ he
        · exact closeRun_ne_illegal _ _ _ he

/-- Every command ends (R94, R97), and only in these ways (R25, R252). -/
theorem exec_ends (i : Instr) (s : State) : EndsSomehow i s (exec i s) := by
  have ok : ∀ (i : Instr) (u : State) (sh fo : Bool), Kept s u → (sh = true → i = .cond ∨ i = .decode) →
      (fo = true → i = .parseR ∨ i = .lkname ∨ i = .lkid) → EndsSomehow i s (complete u sh fo) :=
    fun i u sh fo => endsSomehow_complete i s u sh fo
  cases i with
  | parseN =>
    show EndsSomehow _ _ (execParseN s)
    unfold execParseN
    rcases parseToken_cases (fun _ s => raise s .numericOnlyExpected) s with ⟨-, h⟩ | ⟨-, -, h⟩ | ⟨-, -, h⟩ |
      ⟨-, -, h⟩ <;> rw [h]
    · exact endsSomehow_raise _ _ _ (by simp)
    · exact endsSomehow_raise _ _ _ (by simp)
    · exact endsSomehow_takeNumber _ _ _
    · exact endsSomehow_raise _ _ _ (by simp)
  | parseR =>
    show EndsSomehow _ _ (execParseR s)
    unfold execParseR
    rcases parseToken_cases takeName s with ⟨-, h⟩ | ⟨-, -, h⟩ | ⟨-, -, h⟩ | ⟨-, -, h⟩ <;> rw [h]
    · exact endsSomehow_raise _ _ _ (by simp)
    · exact endsSomehow_raise _ _ _ (by simp)
    · exact endsSomehow_takeNumber _ _ _
    · unfold takeName
      split
      · exact endsSomehow_raise _ _ _ (by simp)
      · exact ok _ _ _ _ ⟨rfl, rfl, rfl, rfl, rfl, rfl, rfl⟩ (by simp) (by simp)
  | lkname =>
    show EndsSomehow _ _ (execLkname s)
    unfold execLkname
    split
    · exact endsSomehow_raise _ _ _ (by simp)
    · exact ok _ _ _ _ ⟨rfl, rfl, rfl, rfl, rfl, rfl, rfl⟩ (by simp) (by simp)
  | lkid => exact ok .lkid _ _ _ ⟨rfl, rfl, rfl, rfl, rfl, rfl, rfl⟩ (by simp) (by simp)
  | cond =>
    show EndsSomehow _ _ (execCond s)
    unfold execCond
    dsimp only
    split
    · exact endsSomehow_raise _ _ _ (by simp)
    · exact ok _ _ _ _ ⟨rfl, rfl, rfl, rfl, rfl, rfl, rfl⟩ (by simp) (by simp)
  | hexdec =>
    show EndsSomehow _ _ (execHexdec s)
    unfold execHexdec
    dsimp only
    split
    · exact endsSomehow_hexFail _ _ (by simp)
    · split
      · rename_i e he
        exact endsSomehow_hexFail _ _ (fun h => by subst h; exact hexLoop_ne_illegal _ _ _ _ he)
      · exact ok _ _ _ _ ⟨rfl, rfl, rfl, rfl, rfl, rfl, rfl⟩ (by simp) (by simp)
  | unpk10 =>
    show EndsSomehow _ _ (execUnpk10 s)
    unfold execUnpk10
    dsimp only
    split
    · exact endsSomehow_raise _ _ _ (by simp)
    · exact ok _ _ _ _ ⟨rfl, rfl, rfl, rfl, rfl, rfl, rfl⟩ (by simp) (by simp)
  | decode =>
    show EndsSomehow _ _ (execDecode s)
    unfold execDecode
    split
    · exact endsSomehow_raise _ _ _ (by simp)
    · dsimp only
      split
      · exact endsSomehow_raise _ _ _ (by simp)
      · split
        · exact endsSomehow_raise _ _ _ (by simp)
        · exact ok _ _ _ _ ⟨rfl, rfl, rfl, rfl, rfl, rfl, rfl⟩ (by simp) (by simp)
  | csc => exact ok .csc _ _ _ ⟨rfl, rfl, rfl, rfl, rfl, rfl, rfl⟩ (by simp) (by simp)

/-! ### What a command does to OUT -/

/-- OUT stays in canonical form and inside OUT_SIZE, its draw stays a numbered one, and RGB keeps its reserved byte. -/
structure OutKept (s t : State) : Prop where
  wf : s.outMem.wf → t.outMem.wf
  within : s.outMem.within s.cfg.outSize → t.outMem.within s.cfg.outSize
  draws : s.draws ≤ t.draws
  era : s.outMem.era < s.draws → t.outMem.era < t.draws
  rgb : s.regs.rgb.toNat < 2 ^ 24 → t.regs.rgb.toNat < 2 ^ 24

theorem OutKept.of_eq {s t : State} (h1 : t.outMem = s.outMem) (h2 : s.draws ≤ t.draws)
    (h3 : t.regs.rgb = s.regs.rgb) : OutKept s t :=
  ⟨by rw [h1]; exact id, by rw [h1]; exact id, h2, fun h => by rw [h1]; omega, by rw [h3]; exact id⟩

/-- Whatever next state `o` answers has the property. -/
def AnswersOnly (P : State → Prop) (o : Host.Outcome State Fault Refusal) : Prop := ∀ t, o = .next t → P t

theorem outKept_raise (s : State) (e : Error) : AnswersOnly (OutKept s) (raise s e) := by
  intro t h; cases h; exact .of_eq rfl (Nat.le_refl _) rfl

theorem outKept_takeNumber (s : State) (x : List Byte) : AnswersOnly (OutKept s) (takeNumber x s) := by
  unfold takeNumber
  dsimp only
  split <;> (intro t h; cases h)
  · exact .of_eq rfl (Nat.le_refl _) rfl
  · exact .of_eq rfl (Nat.le_succ _) rfl

theorem outKept_hexFail (s : State) (e : Error) : AnswersOnly (OutKept s) (hexFail s e) := by
  intro t h; cases h
  exact ⟨fun _ => unspecified_wf _, fun _ => unspecified_within _ _, Nat.le_succ _, fun _ => Nat.lt_succ_self _, id⟩

theorem rgbWord_lt (px : Rgb) : (rgbWord px).toNat < 2 ^ 24 := by
  unfold rgbWord
  have a := px.r.isLt; have b := px.g.isLt; have c := px.b.isLt
  rw [BitVec.toNat_ofNat]; omega

/-- What every command keeps of OUT (R47, R250, R287). -/
theorem exec_outKept (i : Instr) (s : State) : AnswersOnly (OutKept s) (exec i s) := by
  cases i with
  | parseN =>
    show AnswersOnly _ (execParseN s)
    unfold execParseN
    rcases parseToken_cases (fun _ s => raise s .numericOnlyExpected) s with ⟨-, h⟩ | ⟨-, -, h⟩ | ⟨-, -, h⟩ |
      ⟨-, -, h⟩ <;> rw [h]
    · exact outKept_raise _ _
    · exact outKept_raise _ _
    · exact outKept_takeNumber _ _
    · exact outKept_raise _ _
  | parseR =>
    show AnswersOnly _ (execParseR s)
    unfold execParseR
    rcases parseToken_cases takeName s with ⟨-, h⟩ | ⟨-, -, h⟩ | ⟨-, -, h⟩ | ⟨-, -, h⟩ <;> rw [h]
    · exact outKept_raise _ _
    · exact outKept_raise _ _
    · exact outKept_takeNumber _ _
    · unfold takeName
      split
      · exact outKept_raise _ _
      · intro t h; cases h; exact .of_eq rfl (Nat.le_refl _) rfl
  | lkname =>
    show AnswersOnly _ (execLkname s)
    unfold execLkname
    split
    · exact outKept_raise _ _
    · intro t h; cases h; exact .of_eq rfl (Nat.le_refl _) rfl
  | lkid => intro t h; cases h; exact .of_eq rfl (Nat.le_refl _) rfl
  | cond =>
    show AnswersOnly _ (execCond s)
    unfold execCond
    dsimp only
    split
    · exact outKept_raise _ _
    · rename_i hc
      intro t h; cases h
      refine ⟨copyLoop_wf _ _ _ _, fun h => copyLoop_within _ _ _ _ _ h (by omega), Nat.le_refl _, fun h => ?_, id⟩
      show (copyLoop _ _ _ _).era < _
      rw [copyLoop_era]; exact h
  | hexdec =>
    show AnswersOnly _ (execHexdec s)
    unfold execHexdec
    dsimp only
    split
    · exact outKept_hexFail _ _
    · split
      · exact outKept_hexFail _ _
      · rename_i h' out' e
        intro t h; cases h
        have := hexLoop_keeps s.cfg.outSize
          (fun _ m => (s.outMem.wf → m.wf) ∧ (s.outMem.within s.cfg.outSize → m.within s.cfg.outSize) ∧
            m.era = s.outMem.era)
          (fun a m v h ha => ⟨fun w => put_wf _ _ _ (h.1 w), fun w => put_within _ _ _ _ (h.2.1 w) ha, h.2.2⟩)
          _ _ _ _ _ e ⟨id, id, rfl⟩
        exact ⟨this.1, this.2.1, Nat.le_refl _, fun h => by show out'.era < _; rw [this.2.2]; exact h, id⟩
  | unpk10 =>
    show AnswersOnly _ (execUnpk10 s)
    unfold execUnpk10
    dsimp only
    split
    · exact outKept_raise _ _
    · rename_i hc
      intro t h; cases h
      refine ⟨unpkLoop_wf _ _ _ _ _ _, fun h => ?_, Nat.le_refl _, fun h => ?_, id⟩
      · show (unpkLoop s _ (sampleWidth (u32 s.regs.roww)) (u32 s.regs.rowc * sampleWidth (u32 s.regs.roww)) _
          s.outMem).2.within _
        rcases Nat.eq_zero_or_pos (sampleWidth (u32 s.regs.roww)) with h0 | hp
        · rw [h0, Nat.mul_zero]; exact h
        · have : (s.setUnit (.unpk { r := 0, k := 0 })).unpk = unpkAt (sampleWidth (u32 s.regs.roww)) 0 := by
            simp [unpkAt]
          rw [this]
          refine unpkLoop_within _ _ _ _ _ _ _ hp h ?_
          rw [Nat.zero_add, Nat.mul_comm (u32 s.regs.rowc), ← Nat.mul_assoc]; omega
      · show (unpkLoop _ _ _ _ _ _).2.era < _
        rw [unpkLoop_era]; exact h
  | decode =>
    show AnswersOnly _ (execDecode s)
    unfold execDecode
    split
    · exact outKept_raise _ _
    · rename_i f _
      dsimp only
      split
      · exact outKept_raise _ _
      · rename_i hg
        split
        · exact outKept_raise _ _
        · rename_i hc
          intro t h; cases h
          have hw : 0 < (s.geometry f).w := by
            show 0 < (s32 s.regs.width).toNat
            omega
          refine ⟨scanLoop_wf _ _ _ _ _ _, fun h => ?_, Nat.le_refl _, fun h => ?_, id⟩
          · refine scanLoop_within f s (s.geometry f) _ 0 _ _ hw h ?_
            rw [Nat.zero_add, Nat.mul_comm (s.geometry f).h, ← Nat.mul_assoc]; omega
          · show (scanLoop _ _ _ _ _ _).2.era < _
            rw [scanLoop_era]; exact h
  | csc =>
    intro t h; cases h
    exact ⟨id, id, Nat.le_refl _, id, fun _ => rgbWord_lt _⟩

end Sys2Proof.Machine
end

