-- ==== Sys2Proof/Laws/Registry.lean ====
section
/-! SUPPORT. What the registry operations do: the ROM image entry by entry, the lookups, the format dispatch, in an
instance that meets R6 and R121. -/

namespace Sys2Proof.Machine

/-! ### The ROM image -/

/-- The four bytes of an id, read back little-endian, are the id (R13, R120). -/
theorem leNat_leBytes (v : Word) : leNat (leBytes v 4) = v.toNat := by
  have := v.isLt
  simp only [leBytes, byteOf, List.range, List.range.loop, List.map_cons, List.map_nil, leNat, BitVec.toNat_ofNat,
    Nat.shiftRight_eq_div_pow]
  omega

theorem entryImage_length (e : Entry) : (entryImage e).length = 32 := by simp [entryImage, leBytes]

/-- Byte `k` of entry `i` of the ROM image (R45, R120). -/
theorem romImage_getD (reg : List Entry) (i k : Nat) (e : Entry) (h : reg[i]? = some e) (hk : k < 32) :
    (romImage reg).getD (32 * i + k) 0 = (entryImage e).getD k 0 := by
  unfold romImage
  induction reg generalizing i with
  | nil => simp at h
  | cons a t ih =>
    rw [List.flatMap_cons]
    cases i with
    | zero =>
      simp only [List.getElem?_cons_zero, Option.some.injEq] at h
      subst h
      rw [List.getD_append _ _ _ _ (by rw [entryImage_length]; omega)]; simp
    | succ i =>
      rw [List.getElem?_cons_succ] at h
      rw [List.getD_append_right _ _ _ _ (by rw [entryImage_length]; omega), entryImage_length, ← ih i h]
      congr 1; omega

/-- `id(i)` of the ROM is the registry's id (R120). -/
theorem entryId_eq (s : State) (i : Nat) (e : Entry) (hr : s.rom = romImage s.cfg.registry)
    (h : s.cfg.registry[i]? = some e) : s.entryId i = e.id := by
  have z := romImage_getD s.cfg.registry i 0 e h (by omega)
  rw [Nat.add_zero] at z
  have bytes : [(entryImage e).getD 0 0, (entryImage e).getD 1 0, (entryImage e).getD 2 0, (entryImage e).getD 3 0]
      = leBytes e.id 4 := by
    simp [entryImage, leBytes, List.range, List.range.loop]
  unfold State.entryId State.romByte
  rw [hr, z, romImage_getD _ _ _ e h (by omega), romImage_getD _ _ _ e h (by omega),
    romImage_getD _ _ _ e h (by omega), bytes]
  unfold leWord
  rw [leNat_leBytes, BitVec.ofNat_toNat, BitVec.setWidth_eq]

theorem isWord_ne_zero (b : Byte) (h : isWord b = true) : b ≠ 0 := by rintro rfl; revert h; decide

/-- The 28 name bytes of an entry: the name, then zeros (R120). -/
theorem nameField_eq (s : State) (i : Nat) (e : Entry) (hr : s.rom = romImage s.cfg.registry)
    (h : s.cfg.registry[i]? = some e) (hl : e.name.length ≤ 27) :
    ((List.range 28).map fun k => s.romByte (32 * i + 4 + k)) = e.name ++ List.replicate (28 - e.name.length) 0 := by
  unfold State.romByte
  rw [hr]
  apply List.ext_getElem?
  intro k
  rw [List.getElem?_map]
  by_cases hk : k < 28
  · have hi : 4 + k - (leBytes e.id 4).length = k := by simp [leBytes]
    rw [List.getElem?_range hk, Option.map_some, Nat.add_assoc, romImage_getD _ _ _ e h (by omega)]
    unfold entryImage
    rw [List.getD_append_right _ _ _ _ (by simp [leBytes]), hi, List.getD_eq_getElem?_getD, List.getElem?_take,
      if_pos hk]
    by_cases hn : k < e.name.length
    · rw [List.getElem?_append_left hn, List.getElem?_append_left hn, List.getElem?_eq_getElem hn]; rfl
    · rw [List.getElem?_append_right (by omega), List.getElem?_append_right (by omega), List.getElem?_replicate,
        List.getElem?_replicate, if_pos (by omega), if_pos (by omega)]; rfl
  · rw [List.getElem?_eq_none (by simp; omega), List.getElem?_eq_none (by simp; omega)]; rfl

/-- `name(i)` of the ROM is the registry's name (R120, R121 (b)). -/
theorem entryName_eq (s : State) (i : Nat) (e : Entry) (hr : s.rom = romImage s.cfg.registry)
    (h : s.cfg.registry[i]? = some e) (hl : e.name.length ≤ 27) (hw : ∀ b ∈ e.name, isWord b = true) :
    s.entryName i = e.name := by
  obtain ⟨m, hm⟩ : ∃ m, 28 - e.name.length = m + 1 := ⟨27 - e.name.length, by omega⟩
  have hall : e.name.takeWhile (fun b => b != 0) = e.name := by
    rw [List.takeWhile_eq_self_iff]; intro b hb; simpa using isWord_ne_zero b (hw b hb)
  unfold State.entryName
  rw [nameField_eq s i e hr h hl, hm, List.replicate_succ, List.takeWhile_append, hall]
  simp

/-! ### What the checks of an instance give -/

/-- The size checks (R6). -/
theorem wf_sizes (c : Config) (h : c.wf = true) :
    (1 ≤ c.inSize ∧ c.inSize ≤ 2 ^ 24) ∧ (1 ≤ c.outSize ∧ c.outSize ≤ 2 ^ 24) ∧
      10 ≤ c.registry.length ∧ c.registry.length ≤ 128 := by
  simp only [Config.wf, Bool.and_eq_true] at h
  obtain ⟨⟨⟨⟨⟨⟨h1, h2⟩, -⟩, -⟩, -⟩, -⟩, -⟩ := h
  simp only [Config.sizesOk, Config.countOk, decide_eq_true_eq] at h1 h2
  omega

/-- Every name is one to 27 word bytes (R120, R121 (b)). -/
theorem wf_name (c : Config) (h : c.wf = true) (e : Entry) (he : e ∈ c.registry) :
    e.name ≠ [] ∧ e.name.length ≤ 27 ∧ ∀ b ∈ e.name, isWord b = true := by
  simp only [Config.wf, Bool.and_eq_true] at h
  obtain ⟨⟨⟨⟨⟨-, h3⟩, h4⟩, -⟩, -⟩, -⟩ := h
  simp only [Config.lengthsOk, List.all_eq_true, decide_eq_true_eq] at h3
  simp only [Config.lettersOk, List.all_eq_true, Bool.and_eq_true] at h4
  have a := h3 e he
  exact ⟨fun hn => by rw [hn] at a; simp at a, a.2, fun b hb => (h4 e he b hb).1⟩

/-- Names are unique under `fold` (R121 (a)). -/
theorem wf_unique (c : Config) (h : c.wf = true) (i j : Nat) (e e' : Entry) (hi : c.registry[i]? = some e)
    (hj : c.registry[j]? = some e') (hn : e.name.map fold = e'.name.map fold) : i = j := by
  simp only [Config.wf, Bool.and_eq_true] at h
  obtain ⟨⟨⟨-, h5⟩, -⟩, -⟩ := h
  simp only [Config.namesUnique, decide_eq_true_eq] at h5
  obtain ⟨hi', hie⟩ := List.getElem?_eq_some_iff.1 hi
  obtain ⟨hj', hje⟩ := List.getElem?_eq_some_iff.1 hj
  refine (h5.getElem_inj_iff (i := i) (j := j) (hi := by simpa using hi') (hj := by simpa using hj')).1 ?_
  simp [hie, hje, hn]

/-! ### Lookups -/

/-- `lookup_name` finds the least entry whose name matches (R129). -/
theorem lookupName_eq_some (s : State) (tok : List Byte) (i : Nat) :
    s.lookupName tok = some i ↔ nameMatches tok (s.entryName i) = true ∧ i < s.nreg ∧
      ∀ j, j < i → nameMatches tok (s.entryName j) = false := by
  unfold State.lookupName
  rw [List.find?_range_eq_some]
  simp only [List.mem_range, Bool.not_eq_true']

theorem lookupName_eq_none (s : State) (tok : List Byte) :
    s.lookupName tok = none ↔ ∀ i, i < s.nreg → nameMatches tok (s.entryName i) = false := by
  unfold State.lookupName
  simp only [List.find?_eq_none, List.mem_range, Bool.not_eq_true]

/-- `lookup_by_id` finds the least entry with the id (R133). -/
theorem lookupId_eq_some (s : State) (id : Word) (i : Nat) :
    s.lookupId id = some i ↔ s.entryId i = id ∧ i < s.nreg ∧ ∀ j, j < i → s.entryId j ≠ id := by
  unfold State.lookupId
  rw [List.find?_range_eq_some]
  simp only [beq_iff_eq, List.mem_range, Bool.not_eq_true', beq_eq_false_iff_ne]

theorem lookupId_eq_none (s : State) (id : Word) :
    s.lookupId id = none ↔ ∀ i, i < s.nreg → s.entryId i ≠ id := by
  unfold State.lookupId
  simp only [List.find?_eq_none, List.mem_range, beq_iff_eq]

/-! ### The format dispatch (R96, R124) -/

theorem formatName_injective (f g : Format) (h : formatName f = formatName g) : f = g := by
  revert h; cases f <;> cases g <;> decide

/-- The id of a name is the id of the entry that holds the name (R124). -/
theorem idOfName_of_mem (c : Config) (h : c.wf = true) (e : Entry) (he : e ∈ c.registry) :
    idOfName c.registry e.name = some e.id := by
  unfold idOfName
  cases hf : c.registry.find? (fun x => x.name == e.name) with
  | none => have := List.find?_eq_none.1 hf e he; simp at this
  | some e' =>
    have h2 := List.find?_some hf
    rw [beq_iff_eq] at h2
    obtain ⟨i, hi, hie⟩ := List.getElem_of_mem he
    obtain ⟨j, hj, hje⟩ := List.getElem_of_mem (List.mem_of_find?_eq_some hf)
    have := wf_unique c h i j e e' (by rw [List.getElem?_eq_getElem hi, hie])
      (by rw [List.getElem?_eq_getElem hj, hje]) (by rw [h2])
    subst this
    rw [← hie, ← hje]; rfl

/-- When one entry only meets a test, two entries that meet it are the same. -/
theorem eq_of_countP_one (l : List Entry) (p : Entry → Bool) (h : l.countP p = 1) (a b : Entry) (ha : a ∈ l)
    (hb : b ∈ l) (pa : p a = true) (pb : p b = true) : a = b := by
  rw [List.countP_eq_length_filter, List.length_eq_one_iff] at h
  obtain ⟨x, hx⟩ := h
  have h1 : a ∈ l.filter p := List.mem_filter.2 ⟨ha, pa⟩
  have h2 : b ∈ l.filter p := List.mem_filter.2 ⟨hb, pb⟩
  rw [hx, List.mem_singleton] at h1 h2; rw [h1, h2]

/-- A dispatched format is one the registry gives this id to. -/
theorem formatOf_mem (cfg : Config) (w : Word) (f : Format) (h : formatOf cfg w = some f) :
    ({ id := w, name := formatName f } : Entry) ∈ cfg.registry := by
  have := List.find?_some h
  simp only [beq_iff_eq, formatId, idOfName, Option.map_eq_some_iff] at this
  obtain ⟨⟨id, nm⟩, he, hid⟩ := this
  have h2 := List.find?_some he
  simp only [beq_iff_eq] at h2
  simp only at hid
  subst hid h2
  exact List.mem_of_find?_eq_some he

/-- An id the registry gives to a supported format's name dispatches to that format (R96, R121 (d)). -/
theorem formatOf_eq (c : Config) (h : c.wf = true) (w : Word) (f : Format)
    (hm : ({ id := w, name := formatName f } : Entry) ∈ c.registry) : formatOf c w = some f := by
  have hid := idOfName_of_mem c h _ hm
  cases hf : formatOf c w with
  | none =>
    have := List.find?_eq_none.1 hf f (by cases f <;> decide)
    simp only [beq_iff_eq, formatId] at this
    exact absurd hid this
  | some g =>
    have hd : c.idsDistinct = true := by simp only [Config.wf, Bool.and_eq_true] at h; exact h.2
    simp only [Config.idsDistinct, List.all_eq_true, beq_iff_eq] at hd
    have key : (some w == formatId c f) = true := by rw [beq_iff_eq]; exact hid.symm
    have e := eq_of_countP_one _ _ (hd f (by cases f <;> decide)) _ _ hm (formatOf_mem c w g hf) key key
    injection e with _ e
    rw [formatName_injective f g e]

/-- An id the registry gives to none of the six names dispatches to nothing. -/
theorem formatOf_eq_none (c : Config) (w : Word)
    (hn : ∀ f, ({ id := w, name := formatName f } : Entry) ∉ c.registry) : formatOf c w = none := by
  cases hf : formatOf c w with
  | none => rfl
  | some g => exact absurd (formatOf_mem c w g hf) (hn g)

end Sys2Proof.Machine
end

