-- ==== Sys2Proof/Laws/Vocabulary.lean ====
section
/-! SUPPORT. The words the statements are written in, against the model's own: texts, names, samples, geometry. -/

namespace Sys2Proof.Spec

open Machine

/-! ### Texts -/

theorem text_of_textIs (s : State) (t : List Byte) (h : TextIs s t) : s.text = t := by
  apply List.ext_getElem?
  intro k
  unfold State.text
  rw [inBytes_getElem?]
  unfold u32
  by_cases hk : k < s.regs.tend.toNat - s.regs.tpos.toNat
  · have hk' : k < t.length := by rw [h.1]; exact hk
    rw [if_pos hk, List.getElem?_eq_getElem hk', h.2 k _ (List.getElem?_eq_getElem hk')]
  · rw [if_neg hk, eq_comm, List.getElem?_eq_none_iff, h.1]; omega

theorem textIs_text (s : State) : TextIs s s.text := by
  refine ⟨text_length s, fun k b h => ?_⟩
  unfold State.text at h
  rw [inBytes_getElem?] at h
  split at h
  · exact Option.some.inj h
  · cases h

theorem textTooLong_of_windowFits (s : State) (h : WindowFits s) : s.textTooLong = false := by
  unfold State.textTooLong u32; unfold WindowFits at h
  rw [decide_eq_false_iff_not]; omega

theorem text_cons_of_lt (s : State) (h : s.regs.tpos.toNat < s.regs.tend.toNat) :
    ∃ t, s.text = s.inByte s.regs.tpos.toNat :: t := by
  obtain ⟨n, hn⟩ : ∃ n, s.regs.tend.toNat - s.regs.tpos.toNat = n + 1 :=
    ⟨s.regs.tend.toNat - s.regs.tpos.toNat - 1, by omega⟩
  unfold State.text u32
  rw [hn]; exact ⟨_, rfl⟩

theorem text_nil_of_le (s : State) (h : s.regs.tend.toNat ≤ s.regs.tpos.toNat) : s.text = [] := by
  unfold State.text u32
  rw [Nat.sub_eq_zero_of_le h]; rfl

/-- The cursor, moved on and written back to TPOS (R50, R131). -/
theorem tpos_add (s : State) (n : Nat) : BitVec.ofNat 32 (u32 s.regs.tpos + n) = s.regs.tpos + BitVec.ofNat 32 n := by
  unfold u32
  rw [BitVec.ofNat_add, BitVec.ofNat_toNat, BitVec.setWidth_eq]

/-! ### Characters and names -/

theorem isWord_iff (c : Byte) : isWord c = true ↔ WordByte c := by
  simp only [isWord, isDigit, isAlpha, WordByte, Bool.or_eq_true, Bool.and_eq_true, decide_eq_true_eq, beq_iff_eq]
  tauto

theorem isDigit_iff (c : Byte) : isDigit c = true ↔ DigitByte c := by
  simp only [isDigit, DigitByte, Bool.and_eq_true, decide_eq_true_eq]

theorem nameMatches_iff (tok nm : List Byte) : nameMatches tok nm = true ↔ NameMatches tok nm := by
  unfold nameMatches NameMatches
  rw [beq_iff_eq]
  constructor
  · intro h
    refine ⟨by simpa using congrArg List.length h, fun k x y hx hy => ?_⟩
    have := congrArg (·[k]?) h
    simp only [List.getElem?_map, hx, hy, Option.map_some, Option.some.injEq] at this
    exact this
  · rintro ⟨hl, h⟩
    apply List.ext_getElem?
    intro k
    rw [List.getElem?_map, List.getElem?_map]
    by_cases hk : k < tok.length
    · rw [List.getElem?_eq_getElem hk, List.getElem?_eq_getElem (hl ▸ hk)]
      exact congrArg some (h k _ _ (List.getElem?_eq_getElem hk) (List.getElem?_eq_getElem (hl ▸ hk)))
    · rw [List.getElem?_eq_none (by omega), List.getElem?_eq_none (by omega)]

/-- A run taken as long as possible is the whole run. -/
theorem takeWhile_append_stop (p : Byte → Bool) (a b : List Byte) (ha : ∀ x ∈ a, p x = true) (hb : Stops p b) :
    (a ++ b).takeWhile p = a := by
  induction a with
  | nil =>
    cases b with
    | nil => rfl
    | cons x t => simp [hb x rfl]
  | cons x t ih =>
    simp only [List.cons_append, List.takeWhile_cons, ha x List.mem_cons_self, if_true]
    rw [ih fun y hy => ha y (List.mem_cons_of_mem _ hy)]

/-- `fold` leaves the classes of R15 and the digits' values alone. -/
theorem fold_classes : ∀ c : Byte, isWord (fold c) = isWord c ∧ isDigit (fold c) = isDigit c ∧
    isHex (fold c) = isHex c ∧ isOctal (fold c) = isOctal c ∧ (isHex c = true → hexVal (fold c) = hexVal c) ∧
    (isDigit c = true → digitVal (fold c) = digitVal c) ∧ fold (fold c) = fold c := by
  decide +kernel

/-! ### Samples, channels, geometry -/

theorem clamp8_toNat (v : Int) : ((clamp8 v).toNat : Int) = clamp v := by
  unfold clamp8 clamp
  rw [BitVec.toNat_ofNat]
  omega

/-- A bit of a big-endian pair of bytes. -/
theorem testBit_pair (hi lo : Byte) (t : Nat) :
    (256 * hi.toNat + lo.toNat).testBit t = if t < 8 then lo.getLsbD t else hi.getLsbD (t - 8) := by
  have h : lo.toNat < 2 ^ 8 := lo.isLt
  rw [show 256 * hi.toNat + lo.toNat = 2 ^ 8 * hi.toNat + lo.toNat from rfl, Nat.testBit_two_pow_mul_add _ h]
  split <;> rfl

theorem effStride_eq (s : State) (f : Format) : effStride f (wid s) (s32 s.regs.stride) = strideOf s (bpp f) := by
  unfold effStride strideOf s32
  split
  · rfl
  · rw [Nat.mul_comm]; cases f <;> rfl

/-- The geometry `decode` works with, in the statements' words (R161, R165). -/
theorem geometry_eq (s : State) (f : Format) :
    s.geometry f = { w := wid s, h := hgt s, stride := strideOf s (bpp f), req := reqOf s f,
                     lim := min s.regs.slen.toNat (reqOf s f) } := by
  have h : (s.geometry f).stride = strideOf s (bpp f) := effStride_eq s f
  have h2 : (s.geometry f).req = reqOf s f := by
    show requiredLen f (s.geometry f).stride (hgt s) = _
    rw [h]; cases f <;> rfl
  show ({ w := wid s, h := hgt s, stride := (s.geometry f).stride, req := (s.geometry f).req,
          lim := min s.regs.slen.toNat (s.geometry f).req } : Geometry) = _
  rw [h, h2]

theorem formatOf_of_formatIs (s : State) (f : Format) (h : FormatIs s f) : formatOf s.cfg s.regs.fmt = some f :=
  formatOf_eq s.cfg h.1 _ f h.2

/-- A row and a column make one index of the raster. -/
theorem raster_index (rows w r c : Nat) (hr : r < rows) (hc : c < w) :
    r * w + c < rows * w ∧ (r * w + c) / w = r ∧ (r * w + c) % w = c := by
  have h0 : 0 < w := by omega
  refine ⟨?_, ?_, ?_⟩
  · have : r * w + w ≤ rows * w := by rw [← Nat.succ_mul]; exact Nat.mul_le_mul_right _ hr
    omega
  · rw [Nat.add_comm, Nat.add_mul_div_right _ _ h0, Nat.div_eq_of_lt hc, Nat.zero_add]
  · rw [Nat.add_comm, Nat.add_mul_mod_self_right, Nat.mod_eq_of_lt hc]

/-! ### The Bayer tile (R181, R182) -/

/-- The channel of the hold register each phase updates (R181). -/
def phaseChannel : Bool → Bool → Channel
  | false, false => .green
  | false, true => .red
  | true, false => .blue
  | true, true => .green

/-- The hold register of a channel (R54). -/
def holdOf (p : PxdRegs) : Channel → Byte
  | .red => p.hR
  | .green => p.hG
  | .blue => p.hB

theorem holdOf_holdSample (p : PxdRegs) (v : Byte) (ch : Channel) :
    holdOf (holdSample p v) ch = if phaseChannel p.oddRow p.oddPixel = ch then v else holdOf p ch := by
  unfold holdSample
  rcases h1 : p.oddRow <;> rcases h2 : p.oddPixel <;> cases ch <;> simp [phaseChannel, holdOf]

/-- The tile a format's name spells is the tile its phase origin gives (R162, R181, R182). -/
theorem siteChannel_phase (f : Format) (h1 : f ≠ .nv12) (h2 : f ≠ .grey) (r c : Nat) :
    siteChannel f r c = some (phaseChannel ((phaseOrigin f).1 ^^ decide (r % 2 = 1))
      ((phaseOrigin f).2 ^^ decide (c % 2 = 1))) := by
  unfold siteChannel
  have hr : r % 2 = 0 ∨ r % 2 = 1 := by omega
  have hc : c % 2 = 0 ∨ c % 2 = 1 := by omega
  cases f <;> first
    | exact absurd rfl h1
    | exact absurd rfl h2
    | (rcases hr with hr | hr <;> rcases hc with hc | hc <;> rw [hr, hc] <;> rfl)

end Sys2Proof.Spec
end

