-- ==== Sys2Proof/Laws/HexText.lean ====
section
/-! SUPPORT. Hex text cut into lines and runs (R210, R213), character by character, and what `hexdec`'s events do when
a run and a row are closed. -/

namespace Sys2Proof.Spec

open Machine

/-- The runs of hex digits of one line. -/
def runsOf (l : List Byte) : List (List Byte) := (l.splitOnP fun c => !isHex c).filter fun run => run ≠ []

/-- Every byte is a hex digit. -/
abbrev AllHex (r : List Byte) : Prop := ∀ c ∈ r, isHex c = true

theorem hexRows_eq (t : List Byte) : hexRows t = (t.splitOnP fun c => c == 0x0A).map runsOf := rfl

theorem ne_newline_of_hex (r : List Byte) (h : AllHex r) : ∀ x ∈ r, (x == 0x0A) = false := by
  intro x hx
  rw [← Bool.not_eq_true]
  intro hc
  have := h x hx
  rw [beq_iff_eq] at hc
  rw [hc] at this; exact absurd this (by decide)

/-- Digits alone are one run, or none. -/
theorem runsOf_hex (r : List Byte) (h : AllHex r) : runsOf r = if r = [] then [] else [r] := by
  unfold runsOf
  rw [List.splitOnP_eq_singleton fun x hx => by simp [h x hx]]
  by_cases hr : r = [] <;> simp [hr]

/-- The text ends: the digits pending are the last line. -/
theorem hexRows_hex (r : List Byte) (h : AllHex r) : hexRows r = [runsOf r] := by
  rw [hexRows_eq, List.splitOnP_eq_singleton (ne_newline_of_hex r h)]; rfl

/-- A newline ends the line. -/
theorem hexRows_newline (r t : List Byte) (h : AllHex r) : hexRows (r ++ newline :: t) = runsOf r :: hexRows t := by
  rw [hexRows_eq, List.splitOnP_append_cons_of_forall_mem (ne_newline_of_hex r h) newline (by rfl)]; rfl

theorem runsOf_separator (r l : List Byte) (c : Byte) (hc : isHex c = false) :
    runsOf (r ++ c :: l) = runsOf r ++ runsOf l := by
  unfold runsOf
  rw [List.splitOnP_append_cons r l (by simp [hc]), List.filter_append]

/-- A byte that is neither a digit nor a newline ends the run and stays in the line. -/
theorem hexRows_separator (r t : List Byte) (c : Byte) (h : AllHex r) (hc : isHex c = false) (hn : c ≠ newline) :
    ∃ row rest, hexRows t = row :: rest ∧ hexRows (r ++ c :: t) = (runsOf r ++ row) :: rest := by
  obtain ⟨l, ls, hl⟩ := List.exists_cons_of_ne_nil (List.splitOnP_ne_nil (fun c => c == 0x0A) t)
  refine ⟨runsOf l, ls.map runsOf, by rw [hexRows_eq, hl]; rfl, ?_⟩
  have cut : ∀ r : List Byte, AllHex r →
      (r ++ c :: t).splitOnP (fun c => c == 0x0A) = (r ++ c :: l) :: ls := by
    intro r hr
    induction r with
    | nil =>
      have : (c == 0x0A) = false := by rw [beq_eq_false_iff_ne]; exact hn
      rw [List.nil_append, List.splitOnP_cons_eq_if_modifyHead, hl, this]; rfl
    | cons x r ih =>
      rw [List.cons_append, List.splitOnP_cons_eq_if_modifyHead, ih fun y hy => hr y (List.mem_cons_of_mem _ hy),
        ne_newline_of_hex _ hr x List.mem_cons_self]; rfl
  rw [hexRows_eq, cut r h, List.map_cons, runsOf_separator r l c hc]

theorem hexRows_cons (t : List Byte) : ∃ row rest, hexRows t = row :: rest := by
  obtain ⟨l, ls, hl⟩ := List.exists_cons_of_ne_nil (List.splitOnP_ne_nil (fun c => c == 0x0A) t)
  exact ⟨runsOf l, ls.map runsOf, by rw [hexRows_eq, hl]; rfl⟩

/-! ### Shape of the rows -/

theorem rowWidth_cons (row : List (List Byte)) (rest : List (List (List Byte))) :
    rowWidth (row :: rest) = if row.length ≠ 0 then row.length else rowWidth rest := by
  unfold rowWidth
  simp only [List.map_cons, List.find?_cons]
  by_cases h : row.length = 0
  · simp [h]
  · have : (row.length != 0) = true := by simpa using h
    rw [this, if_pos h]; rfl

theorem rowCount_cons (row : List (List Byte)) (rest : List (List (List Byte))) :
    rowCount (row :: rest) = (if row.length ≠ 0 then 1 else 0) + rowCount rest := by
  unfold rowCount
  by_cases h : row = []
  · simp [h]
  · have : row.length ≠ 0 := by simpa using h
    simp [h, Nat.add_comm]

/-! ### Closing a run and a row -/

/-- The digits pending before an event: the registers hold their number, up to 3, and their value (R51, R212). -/
structure Pending (h : HexRegs) (r : List Byte) : Prop where
  hex : AllHex r
  len : h.runLen = min r.length 3
  one : r.length = 1 → h.runVal = BitVec.ofNat 8 (r.foldl (fun v d => 16 * v + hexVal d) 0)
  two : r.length = 2 → h.runVal = runByte r
  zero : r = [] → h.runVal = 0

theorem Pending.nil (h : HexRegs) (h1 : h.runLen = 0) (h2 : h.runVal = 0) : Pending h [] :=
  ⟨fun _ h => (by cases h), h1, fun h => (by cases h), fun h => (by cases h), fun _ => h2⟩

theorem hexVal_lt (c : Byte) (h : isHex c = true) : hexVal c < 16 := by revert c; decide +kernel

/-- A digit joins the run (R212, R214). -/
theorem Pending.digit (h : HexRegs) (r : List Byte) (c : Byte) (hp : Pending h r) (hc : isHex c = true) :
    Pending { hexDigit c h with p := (hexDigit c h).p + 1 } (r ++ [c]) := by
  obtain ⟨h1, h2, h3, h4, h5⟩ := hp
  refine ⟨?_, ?_, ?_, ?_, by simp⟩
  · intro x hx
    rcases List.mem_append.1 hx with hx | hx
    · exact h1 x hx
    · rw [List.mem_singleton] at hx; rw [hx]; exact hc
  · simp only [hexDigit, List.length_append, List.length_singleton, h2]; omega
  · intro hl
    have : r = [] := by simpa using hl
    subst this
    simp [hexDigit, h5 rfl]
  · intro hl
    have h1' : r.length = 1 := by simpa using hl
    obtain ⟨a, rfl⟩ := List.length_eq_one_iff.1 h1'
    have hv := h3 rfl
    have ha := hexVal_lt a (h1 a List.mem_cons_self)
    simp only [hexDigit, hv, runByte, List.singleton_append, List.foldl_cons, List.foldl_nil, BitVec.toNat_ofNat]
    congr 1; omega

/-- Closing a run, in terms of the digits pending (R213, R214). -/
theorem closeRun_pending (os : Nat) (h : HexRegs) (r : List Byte) (out : Memory) (hp : Pending h r) :
    (r = [] ∧ closeRun os h out = .going { h with runLen := 0, runVal := 0 } out) ∨
    (r.length = 2 ∧ h.outPtr < os ∧
      closeRun os h out
        = .going { h with outPtr := h.outPtr + 1, rowBytes := h.rowBytes + 1, runLen := 0, runVal := 0 }
            (out.put h.outPtr (runByte r))) ∨
    (r.length = 2 ∧ os ≤ h.outPtr ∧ closeRun os h out = .failed .allocationFailed) ∨
    (r ≠ [] ∧ r.length ≠ 2 ∧ closeRun os h out = .failed .invalidValueWidth) := by
  have hl := hp.len
  rcases closeRun_cases os h out with ⟨a, b⟩ | ⟨a, b, c⟩ | ⟨a, b, c⟩ | ⟨a, b, c⟩
  · exact .inl ⟨List.length_eq_zero_iff.1 (by omega), b⟩
  · have : r.length = 2 := by omega
    rw [hp.two this] at c
    exact .inr (.inl ⟨this, b, c⟩)
  · exact .inr (.inr (.inl ⟨by omega, b, c⟩))
  · refine .inr (.inr (.inr ⟨?_, by omega, c⟩))
    rintro rfl; exact a (by simpa using hl)

/-- Closing a row: skipped, the first, one like the first, or an error (R213 to R215). -/
theorem closeRow_cases (h : HexRegs) (out : Memory) :
    (h.rowBytes = 0 ∧ closeRow h out = .going { h with rowBytes := 0 } out) ∨
    (h.rowBytes ≠ 0 ∧ h.firstW = 0 ∧
      closeRow h out = .going { h with firstW := h.rowBytes, rows := 1, rowBytes := 0 } out) ∨
    (h.rowBytes ≠ 0 ∧ h.firstW ≠ 0 ∧ h.rowBytes = h.firstW ∧
      closeRow h out = .going { h with rows := h.rows + 1, rowBytes := 0 } out) ∨
    (h.rowBytes ≠ 0 ∧ h.firstW ≠ 0 ∧ h.rowBytes ≠ h.firstW ∧ closeRow h out = .failed .inconsistentRowWidth) := by
  unfold closeRow
  by_cases h0 : h.rowBytes = 0
  · left; simp [h0]
  · by_cases h1 : h.firstW = 0
    · right; left; simp [h0, h1]
    · by_cases h2 : h.rowBytes = h.firstW
      · exact .inr (.inr (.inl ⟨h0, h1, h2, by rw [if_neg h0, if_neg h1, if_pos h2]⟩))
      · exact .inr (.inr (.inr ⟨h0, h1, h2, by rw [if_neg h0, if_neg h1, if_neg h2]⟩))

end Sys2Proof.Spec
end

