-- ==== Sys2Proof/Laws/Host.lean ====
section
/-! SUPPORT. Whose step it is, and how a host access is served: the routes of the window and what a write can do. -/

namespace Sys2Proof.Machine

/-! ### Whose step it is -/

theorem step_of_engineTurn (s : State) (h : s.engineTurn = true) : step s = runCommand s := by
  unfold State.engineTurn at h
  rw [Bool.and_eq_true] at h
  obtain ⟨hb, h2⟩ := h
  unfold step busyStep
  rw [if_pos hb]
  split
  · rfl
  · rename_i ev rest e; rw [e] at h2; simp only [Bool.not_eq_true'] at h2; simp [h2]

theorem step_of_idleEvent (s : State) (op : HostOp) (rest : List HostEvent) (h : s.idleEvent op rest) :
    step s = hostIdle op { s with host := rest } := by
  obtain ⟨hb, e, he⟩ := h
  unfold step idleStep
  rw [hb, he]; rfl

theorem step_of_busyEvent (s : State) (op : HostOp) (rest : List HostEvent) (h : s.busyEvent op rest) :
    step s = hostBusy op { s with host := rest } := by
  obtain ⟨hb, he⟩ := h
  unfold step busyStep
  rw [hb, he]; rfl

/-! ### The window (R60) -/

/-- Where each space lies in the window and how many bytes it has (R60). -/
def spaceWindow (c : Config) : Space → Nat × Nat
  | .regs => (0, 0x1000)
  | .rom => (0x1000, 32 * c.registry.length)
  | .input => (0x1000000, c.inSize)
  | .output => (0x2000000, c.outSize)

/-- A located offset lies inside its space. -/
theorem locate_inside (c : Config) (off : Nat) (sp : Space) (x : Nat) (h : locate c off = some (sp, x)) :
    x < (spaceWindow c sp).2 ∧ off = (spaceWindow c sp).1 + x := by
  unfold locate at h
  repeat' split at h
  all_goals cases h
  all_goals simp only [spaceWindow]; omega

/-- Every byte of a space is located there: the spaces do not overlap (R6, R60). -/
theorem locate_of_lt (c : Config) (h : c.wf = true) (sp : Space) (a : Nat) (ha : a < (spaceWindow c sp).2) :
    locate c ((spaceWindow c sp).1 + a) = some (sp, a) := by
  obtain ⟨⟨-, b1⟩, ⟨-, -⟩, -, b5⟩ := wf_sizes c h
  cases sp
  · change a < 0x1000 at ha; show locate c (0 + a) = _; unfold locate; rw [if_pos (by omega), Nat.zero_add]
  · change a < 32 * c.registry.length at ha; show locate c (0x1000 + a) = _; unfold locate
    rw [if_neg (by omega), if_pos (by omega), Nat.add_sub_cancel_left]
  · change a < c.inSize at ha; show locate c (0x1000000 + a) = _; unfold locate
    rw [if_neg (by omega), if_neg (by omega), if_pos (by omega), Nat.add_sub_cancel_left]
  · change a < c.outSize at ha; show locate c (0x2000000 + a) = _; unfold locate
    rw [if_neg (by omega), if_neg (by omega), if_neg (by omega), if_pos (by omega), Nat.add_sub_cancel_left]

theorem not_unmapped (c : Config) (n off : Nat) (hn : 1 ≤ n) (sp : Space) (a : Nat) (h : locate c off = some (sp, a)) :
    ¬ ((List.range n).all fun i => (locate c (off + i)).isNone) = true := by
  intro hc
  have := List.all_eq_true.1 hc 0 (by simp; omega)
  rw [Nat.add_zero, h] at this; cases this

theorem widthBytes_pos (w : Width) : 1 ≤ widthBytes w := by cases w <;> decide

/-! ### Routes (R29, R60, R63, R64) -/

/-- An access to REGS is an aligned word or outside the contract. -/
theorem route_regs (c : Config) (n off : Nat) (hn : 1 ≤ n) (h : off < 0x1000) :
    route c n off = if n = 4 ∧ off % 4 = 0 then .register off else .refused .hostRegisterAccess := by
  have hl : locate c off = some (.regs, off) := by unfold locate; rw [if_pos h]
  unfold route
  rw [if_neg (not_unmapped c n off hn _ _ hl), hl]

/-- An access to ROM, IN or OUT is aligned and inside the memory, or outside the contract. -/
theorem route_memory (c : Config) (h : c.wf = true) (n : Nat) (sp : Space) (a : Nat) (hn : 1 ≤ n) (hs : sp ≠ .regs)
    (ha : a < (spaceWindow c sp).2) (hd : (spaceWindow c sp).1 % n = 0) :
    route c n ((spaceWindow c sp).1 + a)
      = if a % n = 0 ∧ a + n ≤ (spaceWindow c sp).2 then .bytes sp a else .refused .hostWideAccess := by
  have hl := locate_of_lt c h sp a ha
  have key : ((List.range n).all fun i => locate c ((spaceWindow c sp).1 + a + i) == some (sp, a + i)) = true ↔
      a + n ≤ (spaceWindow c sp).2 := by
    rw [List.all_eq_true]
    constructor
    · intro hh
      have e := hh (n - 1) (by simp; omega)
      rw [beq_iff_eq] at e
      have := (locate_inside c _ _ _ e).1
      omega
    · intro hh i hi
      rw [List.mem_range] at hi
      rw [beq_iff_eq, Nat.add_assoc]
      exact locate_of_lt c h sp (a + i) (by omega)
  have hm : ((spaceWindow c sp).1 + a) % n = a % n := by rw [Nat.add_mod, hd, Nat.zero_add, Nat.mod_mod]
  unfold route
  rw [if_neg (not_unmapped c n _ hn _ _ hl), hl, hm]
  by_cases hc : a % n = 0 ∧ a + n ≤ (spaceWindow c sp).2
  · cases sp
    · exact absurd rfl hs
    all_goals dsimp only; rw [if_pos hc, if_pos ⟨hc.1, key.2 hc.2⟩]
  · cases sp
    · exact absurd rfl hs
    all_goals dsimp only; rw [if_neg hc, if_neg (fun hx => hc ⟨hx.1, key.1 hx.2⟩)]

theorem route_unmapped (c : Config) (n off : Nat) (h : ∀ k, k < n → locate c (off + k) = none) :
    route c n off = .unmapped := by
  unfold route
  rw [if_pos]
  rw [List.all_eq_true]
  intro i hi
  rw [h i (List.mem_range.1 hi)]; rfl

/-- An access that reaches IN lies inside it. -/
theorem route_input_inside (c : Config) (n off a : Nat) (hn : 1 ≤ n) (h : route c n off = .bytes .input a) :
    a + n ≤ c.inSize := by
  unfold route at h
  repeat' split at h
  all_goals cases h
  rename_i hh
  have e := List.all_eq_true.1 hh.2 (n - 1) (by simp; omega)
  rw [beq_iff_eq] at e
  have := (locate_inside c _ _ _ e).1
  dsimp only [spaceWindow] at this
  omega

/-! ### What a host write can do -/

/-- A write that answers a next state did nothing, wrote a register, or stored its bytes in IN. -/
theorem hostWrite_next (n off : Nat) (v : Word) (s t : State) (h : hostWrite n off v s = .next t) :
    t = s ∨ (∃ r, t = s.writeReg v r) ∨
      ∃ a, route s.cfg n off = .bytes .input a ∧ t = { s with inMem := s.inMem.putBytes a (leBytes v n) } := by
  unfold hostWrite at h
  split at h
  · cases h; exact .inl rfl
  · rename_i o _
    injection h with h
    cases hr : regAt o with
    | none => rw [hr] at h; exact .inl h.symm
    | some r => rw [hr] at h; exact .inr (.inl ⟨r, h.symm⟩)
  · rename_i a hr; cases h; exact .inr (.inr ⟨a, hr, rfl⟩)
  · cases h; exact .inl rfl
  · cases h

/-- The eighteen offsets of the register map lead to their registers (R30). -/
theorem regAt_regOffset (r : RegName) : regAt (regOffset r) = some r := by cases r <;> decide

theorem regOffset_bounds (r : RegName) : regOffset r < 0x48 ∧ regOffset r % 4 = 0 := by cases r <;> decide

/-! ### Little-endian words -/

theorem leNat_lt (l : List Byte) : leNat l < 256 ^ l.length := by
  induction l with
  | nil => decide
  | cons b t ih => have := b.isLt; simp only [leNat, List.length_cons, Nat.pow_succ]; omega

/-- Digit `k` to the base 256 of a little-endian number is byte `k` (R13). -/
theorem leNat_digit (l : List Byte) (k : Nat) (hk : k < l.length) : leNat l / 256 ^ k % 256 = (l.getD k 0).toNat := by
  induction l generalizing k with
  | nil => simp at hk
  | cons b t ih =>
    have hb := b.isLt
    cases k with
    | zero => simp only [leNat, Nat.pow_zero, Nat.div_one, List.getD_cons_zero]; omega
    | succ k =>
      have := ih k (by simpa using hk)
      rw [List.getD_cons_succ, ← this, Nat.pow_succ, Nat.mul_comm (256 ^ k) 256, ← Nat.div_div_eq_div_mul]
      congr 2
      simp only [leNat]; omega

theorem leBytes_getD (v : Word) (n k : Nat) (hk : k < n) : (leBytes v n).getD k 0 = byteOf v k := by
  simp [leBytes, List.getD_eq_getElem?_getD, hk]

end Sys2Proof.Machine
end

