-- ==== Sys2Proof/Laws/PerInstr.lean ====
section
/-! SUPPORT. The statements made command by command: the round trip of each command's word. -/

namespace Sys2Proof.Laws.Encoding

/-- Decoding a command's word gives the command back (R91, R92). -/
def Statement (i : Instr) : Prop := i.wf = true ∧ decode (encode i) = .ok i

theorem parseN : Statement .parseN := by unfold Statement; decide
theorem parseR : Statement .parseR := by unfold Statement; decide
theorem lkname : Statement .lkname := by unfold Statement; decide
theorem lkid : Statement .lkid := by unfold Statement; decide
theorem cond : Statement .cond := by unfold Statement; decide
theorem hexdec : Statement .hexdec := by unfold Statement; decide
theorem unpk10 : Statement .unpk10 := by unfold Statement; decide
theorem decode : Statement .decode := by unfold Statement; decide
theorem csc : Statement .csc := by unfold Statement; decide

end Sys2Proof.Laws.Encoding
end

