-- ==== Sys2Proof/Tests/Slice0.lean ====
section
/-! SUPPORT. The model's own tests: the checks of an instance, the decoder on words written out bit by bit, one step or
two per command against the spec's vectors, and for each statement a state and operands that meet its hypotheses. -/

namespace Sys2Proof.Tests

open Machine Spec

set_option Elab.async false

/-! ### Well-formedness: an ill-formed instance for each check (R6, R120, R121) -/

/-- The standard instance with another registry. -/
def withRegistry (reg : List Entry) : Config := { standardConfig with registry := reg }

theorem test_standard_instance_wf : standardConfig.wf = true := by decide +kernel

theorem test_sizes_refused : ({ standardConfig with inSize := 0 } : Config).sizesOk = false ∧
    ({ standardConfig with outSize := 2 ^ 24 + 1 } : Config).wf = false := by decide +kernel

theorem test_count_refused : (withRegistry (standardRegistry.take 9)).countOk = false := by decide +kernel

theorem test_lengths_refused : (withRegistry (⟨1, []⟩ :: standardRegistry)).lengthsOk = false ∧
    (withRegistry (⟨1, List.replicate 28 0x41⟩ :: standardRegistry)).lengthsOk = false := by decide +kernel

theorem test_letters_refused : (withRegistry (⟨1, [0x61]⟩ :: standardRegistry)).lettersOk = false ∧
    (withRegistry (⟨1, [0x2D]⟩ :: standardRegistry)).lettersOk = false := by decide +kernel

theorem test_unique_names_refused :
    (withRegistry (⟨1, formatName .grey⟩ :: standardRegistry)).namesUnique = false := by decide +kernel

theorem test_missing_name_refused :
    (withRegistry (⟨1, [0x41]⟩ :: standardRegistry.drop 1)).namesPresent = false := by decide +kernel

theorem test_shared_id_refused :
    (withRegistry (⟨0x59455247, [0x41]⟩ :: standardRegistry)).idsDistinct = false := by decide +kernel

/-- A command has no operand, so no term of `Instr` is ill-formed (R90, R93). -/
theorem test_every_command_wf (i : Instr) : i.wf = true := by cases i <;> rfl

/-! ### Decoding: words written out bit by bit from R90 and R92 -/

theorem test_decode_parser :
    decode 0b00000000000000000000000000000001 = .ok .parseN ∧ decode 0b00000000000000000000000100000001 = .ok .parseR ∧
    decode 0b00000000000000000000000000000010 = .ok .lkname ∧ decode 0b00000000000000000000000000000011 = .ok .lkid := by
  decide

theorem test_decode_others :
    decode 0b00000000000000000000000000000100 = .ok .cond ∧ decode 0b00000000000000000000000000000101 = .ok .hexdec ∧
    decode 0b00000000000000000000000000000110 = .ok .unpk10 ∧ decode 0b00000000000000000000000000000111 = .ok .decode ∧
    decode 0b00000000000000000000000000001000 = .ok .csc := by
  decide

/-- The words V95 lists as illegal. -/
theorem test_decode_illegal :
    ∀ w ∈ [0, 9, 0xF, 0x10, 0x11, 0x100, 0x102, 0x107, 0x201, 0x80000007], decodeTableWord 32 w = none := by
  decide

theorem test_table_words : decodeTableWord 32 0x101 = some .parseR ∧ decodeTableWord 32 0x107 = none := by decide

/-! ### Small states -/

/-- An instance with 64 bytes of IN and of OUT. -/
def tiny : Config := { standardConfig with inSize := 64, outSize := 64 }

/-- Bytes from numbers. -/
def bytes (l : List Nat) : List Byte := l.map (BitVec.ofNat 8)

/-- The tiny instance with these registers, and these bytes from `IN[0]` on. -/
def box (r : Regs) (l : List Nat) : State :=
  { State.resetOf tiny 0 with regs := r, inMem := (Memory.unspecified 0).putBytes 0 (bytes l) }

/-- The text is the whole of these bytes. -/
def textBox (l : List Nat) : State := box { Regs.reset with tend := BitVec.ofNat 32 l.length } l

/-- The state after a command. -/
def after (i : Instr) (s : State) : State :=
  match exec i s with
  | .next t => t
  | _ => s

/-- The first `n` bytes of OUT. -/
def outs (s : State) (n : Nat) : List Nat := (List.range n).map fun a => (s.outByte a).toNat

/-- A frame of this format's default id and shape in IN. -/
def frameBox (fmt w h st slen : Word) (l : List Nat) : State :=
  box { Regs.reset with fmt := fmt, width := w, height := h, stride := st, slen := slen } l

/-! ### One step per command: the spec's vectors -/

/-- V87: `0x3231564e,`. -/
theorem test_parseN_hex_literal :
    let t := after .parseN (textBox [0x30, 0x78, 0x33, 0x32, 0x33, 0x31, 0x35, 0x36, 0x34, 0x65, 0x2C])
    t.regs.fmt = 0x3231564E ∧ t.regs.tpos = 10 ∧ t.regs.ridx = 0xFFFFFFFF ∧ statusWord t.status = 2 := by
  decide +kernel

/-- V89: `NV12` with no registry supplied. -/
theorem test_parseN_refuses_name :
    statusWord (after .parseN (textBox [0x4E, 0x56, 0x31, 0x32])).status = 0x306 := by decide +kernel

/-- V83: `fmt=GREY;`, the window on the name. -/
theorem test_parseR_name :
    let s := textBox [0x66, 0x6D, 0x74, 0x3D, 0x47, 0x52, 0x45, 0x59, 0x3B]
    let t := after .parseR { s with regs := { s.regs with tpos := 4 } }
    t.regs.fmt = 0x59455247 ∧ t.regs.tpos = 8 ∧ t.regs.ridx = 1 ∧ statusWord t.status = 0x12 := by
  decide +kernel

/-- V68: `08` is octal 0, and the cursor stops at the `8`. -/
theorem test_parseR_octal :
    let t := after .parseR (textBox [0x30, 0x38])
    t.regs.fmt = 0 ∧ t.regs.tpos = 1 ∧ statusWord t.status = 2 := by
  decide +kernel

/-- V91: `dv`, any case. -/
theorem test_lkname_found :
    let t := after .lkname (textBox [0x64, 0x56])
    t.regs.fmt = 0x64737664 ∧ t.regs.ridx = 8 ∧ t.regs.tpos = 0 ∧ statusWord t.status = 0x12 := by
  decide +kernel

/-- V92: the empty name is not found, and is no error. -/
theorem test_lkname_empty :
    let t := after .lkname (textBox [])
    t.regs.ridx = 0xFFFFFFFF ∧ t.regs.fmt = 0 ∧ statusWord t.status = 2 := by
  decide +kernel

/-- V93: the id of MJPEG. -/
theorem test_lkid_found :
    let t := after .lkid (box { Regs.reset with fmt := 0x47504A4D } [])
    t.regs.ridx = 6 ∧ statusWord t.status = 0x12 := by
  decide +kernel

/-- V94: no entry has id 0. -/
theorem test_lkid_none :
    let t := after .lkid (box { Regs.reset with ridx := 0x55 } [])
    t.regs.ridx = 0xFFFFFFFF ∧ statusWord t.status = 2 := by
  decide +kernel

/-- V19: three bytes of a five-byte demand. -/
theorem test_cond_short :
    let t := after .cond (box { Regs.reset with slen := 3, rlen := 5 } [1, 2, 3, 9])
    outs t 5 = [1, 2, 3, 0, 0] ∧ statusWord t.status = 0xA := by
  decide +kernel

/-- V26, with this instance's size: one byte too many. -/
theorem test_cond_too_long :
    statusWord (after .cond (box { Regs.reset with slen := 1, rlen := 65 } [1])).status = 0x806 := by decide +kernel

/-- V108: `\n\n3f,a0\r\n\n01;ff\n\n`. -/
theorem test_hexdec_rows :
    let t := after .hexdec (textBox
      [10, 10, 0x33, 0x66, 0x2C, 0x61, 0x30, 13, 10, 10, 0x30, 0x31, 0x3B, 0x66, 0x66, 10, 10])
    outs t 4 = [0x3F, 0xA0, 1, 0xFF] ∧ t.regs.roww = 2 ∧ t.regs.rowc = 2 ∧ statusWord t.status = 2 := by
  decide +kernel

/-- V121: `3F\n01 02\n`: rows of different widths. -/
theorem test_hexdec_ragged :
    let s := textBox [0x33, 0x46, 10, 0x30, 0x31, 0x20, 0x30, 0x32, 10]
    let t := after .hexdec { s with regs := { s.regs with roww := 7 } }
    t.regs.roww = 7 ∧ statusWord t.status = 0x706 := by
  decide +kernel

/-- V97. -/
theorem test_unpk10_row :
    let t := after .unpk10 (box { Regs.reset with roww := 5, rowc := 1 } [0, 0x60, 4, 0x8E, 0xCD])
    outs t 8 = [1, 0, 0, 2, 0x23, 1, 0xCD, 2] ∧ t.regs.sampw = 4 ∧ statusWord t.status = 2 := by
  decide +kernel

/-- V101: two rows of two bytes, one sample each, the rest of each row dropped. -/
theorem test_unpk10_two_rows :
    let t := after .unpk10 (box { Regs.reset with roww := 2, rowc := 2 } [0x80, 0x40, 0x7F, 0xC0])
    outs t 4 = [1, 2, 0xFF, 1] ∧ t.regs.sampw = 1 := by
  decide +kernel

/-- V36: NV12 with its chroma missing: the conditioned zeros are chroma too. -/
theorem test_decode_nv12_short :
    let t := after .decode (frameBox 0x3231564E 2 2 0 4 [81, 145, 41, 235])
    outs t 12 = [0, 0xE6, 0, 0, 0xFF, 0, 0, 0xB7, 0, 0x32, 0xFF, 0] ∧ statusWord t.status = 0xA := by
  decide +kernel

/-- V50: SGRBG10 with a stride of 3, so that rows overlap and words are misaligned. -/
theorem test_decode_bayer_stride :
    let t := after .decode (frameBox 0x30314142 2 2 3 8 [0x40, 0, 0x80, 0, 0xC0, 0, 0, 1])
    outs t 12 = [0, 0x10, 0, 0x20, 0x10, 0, 0x20, 0x10, 0xFF, 0x20, 0, 0xFF] ∧ statusWord t.status = 2 := by
  decide +kernel

/-- V4: the largest fields. -/
theorem test_csc_clamps :
    (after .csc (box { Regs.reset with ycc := 0xFFFFFF } [])).regs.rgb = 0xFF7DFF := by decide +kernel

/-- V9: each channel in its own byte. -/
theorem test_csc_blue :
    (after .csc (box { Regs.reset with ycc := 0x6EF029 } [])).regs.rgb = 0xFF0000 := by decide +kernel

/-! ### The host: one event each -/

/-- A state with one host event to come. -/
def withEvent (op : HostOp) (s : State) : State := { s with host := [lateEvent op] }

theorem idleEvent_withEvent (op : HostOp) (s : State) (h : s.status.busy = false) :
    (withEvent op s).idleEvent op [] := ⟨h, false, rfl⟩

/-- R64: a word of IN is read little-endian. -/
theorem test_read_word :
    (match step (withEvent (.read .word 0x1000000) (box Regs.reset [0x78, 0x56, 0x34, 0x12])) with
      | .next t => t.reply
      | _ => none) = some 0x12345678 := by
  decide +kernel

/-- R24, R26: the acknowledgement clears DONE. -/
theorem test_ack :
    (match step { after .csc (box Regs.reset []) with host := [ackEvent] } with
      | .next t => some (statusWord t.status)
      | _ => none) = some 0 := by
  decide +kernel

/-! ### Witnesses: the hypotheses of each statement are met -/

/-- The tiny instance, idle, with nothing in IN. -/
def idleBox : State := box Regs.reset []

/-- A running command that reads `w`. -/
def runningBox (w : Word) : State := idleBox.startCommand w

theorem witness_IllegalWordsEndWithIllegalCommand :
    ∀ w ∈ [0, 0xF, 0x10, 0x80000000, 0x102, 0x200], (runningBox w).engineTurn = true ∧
      ∀ i, (runningBox w).cmd ≠ encode i := by
  intro w hw
  refine ⟨rfl, fun i => ?_⟩
  show w ≠ encode i
  have none_matches : (([0, 0xF, 0x10, 0x80000000, 0x102, 0x200] : List Word).all fun w =>
      commandTable.all fun row => w != row.1) = true := by
    decide
  have row : ∃ row ∈ commandTable, row.1 = encode i := by
    cases i
    · exact ⟨(1, .parseN), by decide, rfl⟩
    · exact ⟨(0x101, .parseR), by decide, rfl⟩
    · exact ⟨(2, .lkname), by decide, rfl⟩
    · exact ⟨(3, .lkid), by decide, rfl⟩
    · exact ⟨(4, .cond), by decide, rfl⟩
    · exact ⟨(5, .hexdec), by decide, rfl⟩
    · exact ⟨(6, .unpk10), by decide, rfl⟩
    · exact ⟨(7, .decode), by decide, rfl⟩
    · exact ⟨(8, .csc), by decide, rfl⟩
  obtain ⟨r, hr, e⟩ := row
  rw [← e]
  simpa using List.all_eq_true.1 (List.all_eq_true.1 none_matches w hw) r hr

theorem witness_StepRunsDecodedCommand (i : Instr) :
    (runningBox (encode i)).engineTurn = true ∧ decode (runningBox (encode i)).cmd = .ok i := by
  cases i <;> exact ⟨rfl, rfl⟩

theorem witness_CmdWriteStartsCommand :
    (withEvent (.write .word 0x00 (encode .csc)) idleBox).idleEvent (.write .word 0x00 (encode .csc)) [] ∧
      ∀ ev tl, ([] : List HostEvent) = ev :: tl → ev.early = false :=
  ⟨idleEvent_withEvent _ _ rfl, fun _ _ h => (by cases h)⟩

theorem witness_EngineTurnAlwaysEnds : (runningBox 0).engineTurn = true ∧ (runningBox 8).engineTurn = true :=
  ⟨rfl, rfl⟩

/-- The least entry with an id, the first and the last of the table; and an id no entry has. -/
theorem witness_LkidFindsLeastEntry :
    (∀ i ∈ [0, 9], ∃ r : Regs, i < (box r []).cfg.registry.length ∧ (box r []).entryId i = r.fmt ∧
      ∀ j, j < i → (box r []).entryId j ≠ r.fmt) ∧
    ∀ i, i < idleBox.cfg.registry.length → idleBox.entryId i ≠ idleBox.regs.fmt := by
  refine ⟨fun i hi => ⟨{ Regs.reset with fmt := if i = 0 then 0x3231564E else 0x4745504D }, ?_⟩, by decide +kernel⟩
  revert i; decide +kernel

/-- A text's window lies inside IN, and the text is what its bytes say. -/
theorem textBox_reads (l : List Nat) (h : (textBox l).textTooLong = false) (t : List Byte)
    (ht : (textBox l).text = t) : WindowFits (textBox l) ∧ TextIs (textBox l) t := by
  refine ⟨?_, ht ▸ textIs_text _⟩
  unfold State.textTooLong at h
  rw [decide_eq_false_iff_not] at h
  intro hlt
  exact Nat.le_of_not_lt fun hc => h ⟨hlt, hc⟩

theorem not_nameMatches (tok nm : List Byte) (h : nameMatches tok nm = false) : ¬ NameMatches tok nm := by
  rw [← nameMatches_iff, h]; decide

/-- `DV`, entry 8; `nv1`, no entry; the empty text. -/
theorem witness_LknameLooksUpWholeText :
    (∃ s t, WindowFits s ∧ TextIs s t ∧ t ≠ [] ∧ 8 < s.cfg.registry.length ∧ NameMatches t (s.entryName 8) ∧
      ∀ j, j < 8 → ¬ NameMatches t (s.entryName j)) ∧
    (∃ s t, WindowFits s ∧ TextIs s t ∧ t ≠ [] ∧
      ∀ i, i < s.cfg.registry.length → ¬ NameMatches t (s.entryName i)) ∧
    (∃ s, WindowFits s ∧ TextIs s []) ∧ ∃ s, ¬ WindowFits s := by
  refine ⟨⟨textBox [0x44, 0x56], bytes [0x44, 0x56], ?_⟩, ⟨textBox [0x6E, 0x76, 0x31], bytes [0x6E, 0x76, 0x31], ?_⟩,
    ⟨textBox [], textBox_reads _ (by decide +kernel) _ (by decide +kernel)⟩,
    ⟨box { Regs.reset with tpos := 64, tend := 65 } [], fun h => absurd (h (by decide)) (by decide)⟩⟩
  · obtain ⟨h1, h2⟩ := textBox_reads [0x44, 0x56] (by decide +kernel) (bytes [0x44, 0x56]) (by decide +kernel)
    refine ⟨h1, h2, by decide, by decide +kernel, (nameMatches_iff _ _).1 (by decide +kernel), ?_⟩
    have : ∀ j, j < 8 → nameMatches (bytes [0x44, 0x56]) ((textBox [0x44, 0x56]).entryName j) = false := by
      decide +kernel
    exact fun j hj => not_nameMatches _ _ (this j hj)
  · obtain ⟨h1, h2⟩ :=
      textBox_reads [0x6E, 0x76, 0x31] (by decide +kernel) (bytes [0x6E, 0x76, 0x31]) (by decide +kernel)
    refine ⟨h1, h2, by decide, ?_⟩
    have : ∀ i, i < (textBox [0x6E, 0x76, 0x31]).cfg.registry.length →
        nameMatches (bytes [0x6E, 0x76, 0x31]) ((textBox [0x6E, 0x76, 0x31]).entryName i) = false := by
      decide +kernel
    exact fun i hi => not_nameMatches _ _ (this i hi)

/-- `0x1F,` (base 16), `08` (base 8, no digit after the 0), `017`, `42x` (base 10), and a literal at the edge of 32
bits: `4294967295`. -/
theorem witness_ParseTakesNumericLiteral :
    LiteralAt 16 (bytes [0x30, 0x78]) (bytes [0x31, 0x46]) (bytes [0x2C]) ∧
    LiteralAt 8 (bytes [0x30]) [] (bytes [0x38]) ∧ LiteralAt 8 (bytes [0x30]) (bytes [0x31, 0x37]) [] ∧
    LiteralAt 10 [] (bytes [0x34, 0x32]) (bytes [0x78]) ∧
    literalValue 10 (bytes [0x34, 0x32, 0x39, 0x34, 0x39, 0x36, 0x37, 0x32, 0x39, 0x35]) = 2 ^ 32 - 1 ∧
    (∃ s, WindowFits s ∧ TextIs s (bytes [0x30] ++ [] ++ bytes [0x38])) := by
  have stop : ∀ (cls : Byte → Bool) (c : Byte), cls c = false → Stops cls [c] := by
    intro cls c h d hd
    simp only [List.head?_cons, Option.some.injEq] at hd
    rw [← hd]; exact h
  refine ⟨.inl ⟨rfl, .inl (by decide), by decide, by decide, stop _ _ (by decide)⟩,
    .inr (.inl ⟨rfl, by decide, fun d hd => (by cases hd), stop _ _ (by decide), ?_⟩),
    .inr (.inl ⟨rfl, by decide, by decide, fun d hd => (by cases hd), ?_⟩),
    .inr (.inr ⟨rfl, rfl, by decide, by decide, by decide, stop _ _ (by decide)⟩), by decide,
    ⟨textBox [0x30, 0x38], textBox_reads _ (by decide +kernel) _ (by decide +kernel)⟩⟩
  · rintro ⟨-, x, d, r, h, -⟩; cases h
  · rintro ⟨h, -⟩; cases h

/-- `DV:` and `DW`. -/
theorem witness_ParseRResolvesName :
    (∃ s tok rest, WindowFits s ∧ TextIs s (tok ++ rest) ∧ NameAt tok rest ∧ 8 < s.cfg.registry.length ∧
      NameMatches tok (s.entryName 8) ∧ ∀ j, j < 8 → ¬ NameMatches tok (s.entryName j)) ∧
    ∃ s tok rest, WindowFits s ∧ TextIs s (tok ++ rest) ∧ NameAt tok rest ∧
      ∀ i, i < s.cfg.registry.length → ¬ NameMatches tok (s.entryName i) := by
  refine ⟨⟨textBox [0x44, 0x56, 0x3A], bytes [0x44, 0x56], bytes [0x3A], ?_⟩,
    ⟨textBox [0x44, 0x57], bytes [0x44, 0x57], [], ?_⟩⟩
  · obtain ⟨h1, h2⟩ := textBox_reads [0x44, 0x56, 0x3A] (by decide +kernel) (bytes [0x44, 0x56] ++ bytes [0x3A])
      (by decide +kernel)
    refine ⟨h1, h2, ⟨⟨_, _, rfl, by decide⟩, by decide, fun d hd => ?_⟩, by decide +kernel,
      (nameMatches_iff _ _).1 (by decide +kernel), ?_⟩
    · simp only [bytes, List.map_cons, List.head?_cons, Option.some.injEq] at hd; rw [← hd]; decide
    · have : ∀ j, j < 8 → nameMatches (bytes [0x44, 0x56]) ((textBox [0x44, 0x56, 0x3A]).entryName j) = false := by
        decide +kernel
      exact fun j hj => not_nameMatches _ _ (this j hj)
  · obtain ⟨h1, h2⟩ := textBox_reads [0x44, 0x57] (by decide +kernel) (bytes [0x44, 0x57] ++ []) (by decide +kernel)
    refine ⟨h1, h2, ⟨⟨_, _, rfl, by decide⟩, by decide, fun d hd => (by cases hd)⟩, ?_⟩
    have : ∀ i, i < (textBox [0x44, 0x57]).cfg.registry.length →
        nameMatches (bytes [0x44, 0x57]) ((textBox [0x44, 0x57]).entryName i) = false := by
      decide +kernel
    exact fun i hi => not_nameMatches _ _ (this i hi)

/-- The empty text, and ` 5`. -/
theorem witness_EmptySymbolWhenNothingConsumable :
    (WindowFits (textBox []) ∧ (textBox []).regs.tend.toNat ≤ (textBox []).regs.tpos.toNat) ∧
    WindowFits (textBox [0x20, 0x35]) ∧
      ¬ WordByte ((textBox [0x20, 0x35]).inByte (textBox [0x20, 0x35]).regs.tpos.toNat) := by
  refine ⟨⟨(textBox_reads [] (by decide +kernel) _ rfl).1, by decide⟩,
    (textBox_reads [0x20, 0x35] (by decide +kernel) _ rfl).1, ?_⟩
  rw [← isWord_iff]; decide +kernel

/-- `_`. -/
theorem witness_NameWithoutRegistryIsNumericOnlyExpected :
    let s := textBox [0x5F]
    WindowFits s ∧ s.regs.tpos.toNat < s.regs.tend.toNat ∧ WordByte (s.inByte s.regs.tpos.toNat) ∧
      ¬ DigitByte (s.inByte s.regs.tpos.toNat) := by
  refine ⟨(textBox_reads [0x5F] (by decide +kernel) _ rfl).1, by decide, ?_, ?_⟩
  · rw [← isWord_iff]; decide +kernel
  · rw [← isDigit_iff]; decide +kernel

/-- `grey` and `GrEy`, `0XaB` and `0xAb`. -/
theorem witness_ParseRIgnoresLetterCase :
    ∀ p ∈ [([0x67, 0x72, 0x65, 0x79], [0x47, 0x72, 0x45, 0x79]), ([0x30, 0x58, 0x61, 0x42], [0x30, 0x78, 0x41, 0x62])],
      (textBox p.2).cfg = (textBox p.1).cfg ∧ (textBox p.2).regs = (textBox p.1).regs ∧
      (textBox p.2).rom = (textBox p.1).rom ∧ TextIs (textBox p.1) (bytes p.1) ∧ TextIs (textBox p.2) (bytes p.2) ∧
      (bytes p.2).map fold = (bytes p.1).map fold ∧ (∃ t, exec .parseR (textBox p.1) = .next t) ∧
      ∃ t, exec .parseR (textBox p.2) = .next t := by
  intro p hp
  simp only [List.mem_cons, List.not_mem_nil, or_false] at hp
  rcases hp with rfl | rfl
  · refine ⟨rfl, rfl, rfl, ?_, ?_, by decide +kernel, ⟨_, rfl⟩, ⟨_, rfl⟩⟩
    · exact (textBox_reads [0x67, 0x72, 0x65, 0x79] (by decide +kernel) _ (by decide +kernel)).2
    · exact (textBox_reads [0x47, 0x72, 0x45, 0x79] (by decide +kernel) _ (by decide +kernel)).2
  · refine ⟨rfl, rfl, rfl, ?_, ?_, by decide +kernel, ⟨_, rfl⟩, ⟨_, rfl⟩⟩
    · exact (textBox_reads [0x30, 0x58, 0x61, 0x42] (by decide +kernel) _ (by decide +kernel)).2
    · exact (textBox_reads [0x30, 0x78, 0x41, 0x62] (by decide +kernel) _ (by decide +kernel)).2

/-- Entry GREY, and the text `GREY` for the way back. -/
theorem witness_RegistryRoundTrip :
    let s := box { Regs.reset with fmt := 0x59455247 } []
    s.cfg.wf = true ∧ s.rom = romImage s.cfg.registry ∧ ⟨0x59455247, formatName .grey⟩ ∈ s.cfg.registry ∧
      s.regs.fmt = 0x59455247 ∧
      let u := textBox [0x47, 0x52, 0x45, 0x59]
      u.cfg = s.cfg ∧ u.rom = s.rom ∧ WindowFits u ∧ TextIs u (formatName .grey) := by
  refine ⟨by decide +kernel, rfl, by decide +kernel, rfl, rfl, rfl, ?_⟩
  exact textBox_reads [0x47, 0x52, 0x45, 0x59] (by decide +kernel) _ (by decide +kernel)

/-- One byte beyond IN. -/
theorem witness_TextBeyondInIsAllocationFailed :
    let s := box { Regs.reset with tpos := 64, tend := 65 } []
    s.regs.tpos.toNat < s.regs.tend.toNat ∧ s.cfg.inSize < s.regs.tend.toNat := by
  decide

theorem formatIs_of_decide (s : State) (f : Format)
    (h : (s.cfg.wf && s.cfg.registry.contains { id := s.regs.fmt, name := formatName f }) = true) : FormatIs s f := by
  rw [Bool.and_eq_true, List.contains_iff_mem] at h
  exact h

/-- The six formats, one pixel each. -/
theorem frame_formatIs : ∀ p ∈ [(0x3231564E, Format.nv12), (0x59455247, .grey), (0x30314742, .sbggr10),
    (0x30314247, .sgbrg10), (0x30314752, .srggb10), (0x30314142, .sgrbg10)],
    FormatIs (frameBox p.1 1 1 0 0 []) p.2 := by
  intro p hp
  apply formatIs_of_decide
  revert p; decide +kernel

theorem witness_CapacityChecksAreExact :
    FormatIs (frameBox 0x59455247 1 1 0 0 []) .grey ∧ 0 < (frameBox 0x59455247 1 1 0 0 []).regs.width.toInt ∧
      0 < (frameBox 0x59455247 1 1 0 0 []).regs.height.toInt :=
  ⟨frame_formatIs (0x59455247, .grey) (by decide), by decide, by decide⟩

/-- Everything exactly fits, the source is one byte too long, the result is one byte too long. -/
theorem witness_CondCopiesConditionedSource :
    let s := fun d q => box { Regs.reset with slen := d, rlen := q } []
    ((s 64 64).regs.slen.toNat ≤ (s 64 64).cfg.inSize ∧ (s 64 64).regs.rlen.toNat ≤ (s 64 64).cfg.outSize) ∧
      (s 65 64).cfg.inSize < (s 65 64).regs.slen.toNat ∧ (s 64 65).cfg.outSize < (s 64 65).regs.rlen.toNat := by
  decide

/-- A text of each verdict: two bytes; `F`; `12\n34 35`; two bytes into an OUT of one. -/
theorem witness_HexdecDecodesRows :
    (∃ s x, WindowFits s ∧ TextIs s x ∧ rowsVerdict s.cfg.outSize 0 0 (hexRows x) = none) ∧
    (∃ s x, WindowFits s ∧ TextIs s x ∧ rowsVerdict s.cfg.outSize 0 0 (hexRows x) = some 6) ∧
    (∃ s x, WindowFits s ∧ TextIs s x ∧ rowsVerdict s.cfg.outSize 0 0 (hexRows x) = some 7) ∧
    ∃ s x, WindowFits s ∧ TextIs s x ∧ rowsVerdict s.cfg.outSize 0 0 (hexRows x) = some 8 := by
  refine ⟨⟨textBox [0x46, 0x46, 0x20, 0x30, 0x30], bytes [0x46, 0x46, 0x20, 0x30, 0x30], ?_⟩,
    ⟨textBox [0x46], bytes [0x46], ?_⟩,
    ⟨textBox [0x31, 0x32, 10, 0x33, 0x34, 0x20, 0x33, 0x35], bytes [0x31, 0x32, 10, 0x33, 0x34, 0x20, 0x33, 0x35], ?_⟩,
    ⟨{ textBox [0x46, 0x46, 0x20, 0x30, 0x30] with cfg := { tiny with outSize := 1 } },
      bytes [0x46, 0x46, 0x20, 0x30, 0x30], ?_⟩⟩
  · obtain ⟨h1, h2⟩ := textBox_reads [0x46, 0x46, 0x20, 0x30, 0x30] (by decide +kernel) (bytes [0x46, 0x46, 0x20, 0x30, 0x30]) (by decide +kernel)
    exact ⟨h1, h2, by decide +kernel⟩
  · obtain ⟨h1, h2⟩ := textBox_reads [0x46] (by decide +kernel) (bytes [0x46]) (by decide +kernel)
    exact ⟨h1, h2, by decide +kernel⟩
  · obtain ⟨h1, h2⟩ := textBox_reads [0x31, 0x32, 10, 0x33, 0x34, 0x20, 0x33, 0x35] (by decide +kernel)
      (bytes [0x31, 0x32, 10, 0x33, 0x34, 0x20, 0x33, 0x35]) (by decide +kernel)
    exact ⟨h1, h2, by decide +kernel⟩
  · obtain ⟨h1, h2⟩ := textBox_reads [0x46, 0x46, 0x20, 0x30, 0x30] (by decide +kernel)
      (bytes [0x46, 0x46, 0x20, 0x30, 0x30]) (by decide +kernel)
    exact ⟨h1, h2, by decide +kernel⟩

/-- A row of 64 bytes fills IN; its 51 samples do not fit OUT, those of 40 bytes fill it. -/
theorem witness_Unpk10UnpacksBitstream :
    let s := fun n => box { Regs.reset with roww := n, rowc := 1 } []
    ((s 40).regs.roww.toNat * (s 40).regs.rowc.toNat ≤ (s 40).cfg.inSize ∧
      2 * (8 * (s 40).regs.roww.toNat / 10) * (s 40).regs.rowc.toNat ≤ (s 40).cfg.outSize) ∧
      (s 64).cfg.outSize < 2 * (8 * (s 64).regs.roww.toNat / 10) * (s 64).regs.rowc.toNat ∧
      (s 65).cfg.inSize < (s 65).regs.roww.toNat * (s 65).regs.rowc.toNat := by
  decide

/-- S6: 1, 2, 3 packed into four bytes. -/
theorem witness_Unpk10RecoversPackedValues :
    let s := box { Regs.reset with roww := 4, rowc := 1 } [0, 0x40, 0x20, 0x0C]
    let vals : List (List (BitVec 10)) := [[1, 2, 3]]
    (∀ row ∈ vals, row.length = 3) ∧ s.regs.rowc.toNat = vals.length ∧ s.regs.roww.toNat = (10 * 3 + 7) / 8 ∧
      s.regs.roww.toNat * s.regs.rowc.toNat ≤ s.cfg.inSize ∧ 2 * 3 * vals.length ≤ s.cfg.outSize ∧
      ∀ r row k v j, vals[r]? = some row → row[k]? = some v → j < 10 →
        v.getLsbD (9 - j) = streamBit s (r * s.regs.roww.toNat) (10 * k + j) := by
  have bits : ∀ k, k < 3 → ∀ j, j < 10 → (([1, 2, 3] : List (BitVec 10)).getD k 0).getLsbD (9 - j) =
      streamBit (box { Regs.reset with roww := 4, rowc := 1 } [0, 0x40, 0x20, 0x0C]) 0 (10 * k + j) := by
    decide +kernel
  refine ⟨fun row h => by rw [List.mem_singleton] at h; rw [h]; rfl, rfl, rfl, by decide, by decide,
    fun r row k v j hr hv hj => ?_⟩
  match r, hr with
  | 0, hr =>
    injection hr with hr; subst hr
    have hk : k < 3 := by
      by_contra hc
      rw [List.getElem?_eq_none (by simpa using hc)] at hv; cases hv
    have := bits k hk j hj
    rw [List.getD_eq_getElem?_getD, hv] at this
    rw [Nat.zero_mul]; exact this

/-- FMT 0 is no format; a width of 0, a height of -1; 5 x 5 pixels do not fit 64 bytes. -/
theorem witness_DecodeErrorsInOrder :
    idleBox.cfg.wf = true ∧ (∀ f, ¬ FormatIs idleBox f) ∧
    (FormatIs (frameBox 0x59455247 0 1 0 0 []) .grey ∧ (frameBox 0x59455247 0 1 0 0 []).regs.width.toInt ≤ 0) ∧
    (frameBox 0x59455247 1 0xFFFFFFFF 0 0 []).regs.height.toInt ≤ 0 ∧
    (FormatIs (frameBox 0x59455247 5 5 0 0 []) .grey ∧
      (frameBox 0x59455247 5 5 0 0 []).cfg.outSize < 3 * wid (frameBox 0x59455247 5 5 0 0 []) *
        hgt (frameBox 0x59455247 5 5 0 0 [])) := by
  refine ⟨by decide +kernel, fun f hf => ?_, ⟨formatIs_of_decide _ _ (by decide +kernel), by decide⟩, by decide,
    ⟨formatIs_of_decide _ _ (by decide +kernel), by decide⟩⟩
  have := formatOf_of_formatIs idleBox f hf
  revert this; cases f <;> decide +kernel

/-- A frame of 4 x 5 pixels fits: 60 of the 64 bytes of OUT. -/
theorem frame_fits (p : Word × Format)
    (hp : p ∈ [(0x3231564E, Format.nv12), (0x59455247, .grey), (0x30314742, .sbggr10), (0x30314247, .sgbrg10),
      (0x30314752, .srggb10), (0x30314142, .sgrbg10)]) :
    DecodeFits (frameBox p.1 4 5 0 64 []) p.2 := by
  refine ⟨⟨?_, ?_⟩, by show 0 < (4 : Word).toInt; decide, by show 0 < (5 : Word).toInt; decide,
    by show (64 : Word).toNat ≤ 64; decide, by show 3 * (4 : Word).toInt.toNat * (5 : Word).toInt.toNat ≤ 64; decide⟩
  · exact (frame_formatIs p hp).1
  · exact (frame_formatIs p hp).2

theorem witness_GreyCopiesLuma :
    DecodeFits (frameBox 0x59455247 4 5 0 64 []) .grey ∧ 4 < hgt (frameBox 0x59455247 4 5 0 64 []) ∧
      3 < wid (frameBox 0x59455247 4 5 0 64 []) :=
  ⟨frame_fits (0x59455247, .grey) (by decide), by decide, by decide⟩

theorem witness_Nv12ConvertsEachPixel :
    DecodeFits (frameBox 0x3231564E 4 5 0 64 []) .nv12 ∧ 4 < hgt (frameBox 0x3231564E 4 5 0 64 []) ∧
      3 < wid (frameBox 0x3231564E 4 5 0 64 []) :=
  ⟨frame_fits (0x3231564E, .nv12) (by decide), by decide, by decide⟩

/-- In the first row of SGRBG10 a red sample stands at 1, a green one at 0 and 2; no blue one yet. -/
theorem witness_BayerHoldsLatestSample :
    let s := frameBox 0x30314142 4 5 0 64 []
    DecodeFits s .sgrbg10 ∧ 2 < wid s * hgt s ∧
    (channelAt s .sgrbg10 1 = some .red ∧ ∀ k, 1 < k → k ≤ 2 → channelAt s .sgrbg10 k ≠ some .red) ∧
    ∀ m, m ≤ 2 → channelAt s .sgrbg10 m ≠ some .blue := by
  refine ⟨frame_fits (0x30314142, .sgrbg10) (by decide), by decide, ⟨by decide, fun k h1 h2 => ?_⟩, fun m hm => ?_⟩
  · obtain rfl : k = 2 := by omega
    decide
  · have : m = 0 ∨ m = 1 ∨ m = 2 := by omega
    rcases this with rfl | rfl | rfl <;> decide

theorem witness_NonPositiveStrideIsDerived :
    let s := frameBox 0x30314142 4 5 0 64 []
    DecodeFits s .sgrbg10 ∧ s.regs.stride.toInt ≤ 0 ∧ wid s * bpp .sgrbg10 < 2 ^ 31 ∧ ∃ t, exec .decode s = .next t :=
  ⟨frame_fits (0x30314142, .sgrbg10) (by decide), by decide, by decide, ⟨_, rfl⟩⟩

/-- Three bytes of a 2 x 2 GREY frame. -/
theorem witness_ShortSourceDecodesAsZeroFilled :
    let s := frameBox 0x59455247 2 2 0 3 [10, 20, 30]
    let m := (Memory.unspecified 0).putBytes 0 (bytes [10, 20, 30, 0])
    DecodeFits s .grey ∧ (4 : Word).toNat = reqOf s .grey ∧ s.regs.slen.toNat ≤ reqOf s .grey ∧
      reqOf s .grey ≤ s.cfg.inSize ∧
      ∀ a, a < reqOf s .grey →
        State.inByte { s with inMem := m } a = if a < s.regs.slen.toNat then s.inByte a else 0 := by
  refine ⟨⟨formatIs_of_decide _ _ (by decide +kernel), by decide, by decide, by decide, by decide⟩, by decide, by decide,
    by decide, fun a ha => ?_⟩
  have ha4 : a < 4 := ha
  have : a = 0 ∨ a = 1 ∨ a = 2 ∨ a = 3 := by omega
  rcases this with rfl | rfl | rfl | rfl <;> rfl

/-- A source of length 0: every word is 0. -/
theorem witness_NarrowingIrrelevantForTenBitWords :
    let s := frameBox 0x30314142 4 5 0 0 []
    DecodeFits s .sgrbg10 ∧ (∀ n, n < wid s * hgt s → wordAt s .sgrbg10 n ≤ 1023) ∧ ∃ t, exec .decode s = .next t := by
  refine ⟨⟨frame_formatIs (0x30314142, .sgrbg10) (by decide), by decide, by decide, by decide, by decide⟩,
    fun n _ => ?_, ⟨_, rfl⟩⟩
  have zero : ∀ a, source (frameBox 0x30314142 4 5 0 0 []) .sgrbg10 a = 0 := by
    intro a
    unfold source
    rw [if_neg]
    exact Nat.not_lt.2 (Nat.le_trans (Nat.min_le_left _ _) (Nat.zero_le a))
  simp only [wordAt, zero]; decide

/-- Each command answers a next state, one without error; and one with an error. -/
theorem witness_CommandsKeepTheirFrame : (∀ i, ∃ t, exec i idleBox = .next t) ∧
    (∃ t, exec .cond idleBox = .next t ∧ t.status.err = false) ∧ idleBox.cfg.wf = true := by
  refine ⟨fun i => ?_, ⟨_, rfl, by decide +kernel⟩, by decide +kernel⟩
  cases i <;> exact ⟨_, rfl⟩

theorem witness_OutBeyondResultUnchanged :
    ∃ t, exec .cond (box { Regs.reset with slen := 2, rlen := 3 } [1, 2]) = .next t ∧ t.status.err = false ∧
      writtenOut .cond t = 3 :=
  ⟨_, rfl, by decide +kernel, by decide +kernel⟩

/-- `hexdec`, `parse.r` and an illegal word, each with an error; and a command without. -/
theorem witness_ErrorsArePrecise :
    (∃ t, step ((textBox [0x46]).startCommand (encode .hexdec)) = .next t ∧ t.status.err = true) ∧
    (∃ t, step ((textBox []).startCommand (encode .parseR)) = .next t ∧ t.status.err = true) ∧
    (∃ t, step (runningBox 0) = .next t ∧ t.status.err = true) ∧
    (∃ t, step (runningBox 8) = .next t ∧ t.status.err = false) ∧
    ((textBox [0x46]).startCommand (encode .hexdec)).engineTurn = true ∧ (runningBox 0).engineTurn = true :=
  ⟨⟨_, rfl, by decide +kernel⟩, ⟨_, rfl, by decide +kernel⟩, ⟨_, rfl, by decide +kernel⟩, ⟨_, rfl, by decide +kernel⟩,
    rfl, rfl⟩

theorem witness_CommandsNeverReadOut : ∃ t, exec .cond idleBox = .next t := ⟨_, rfl⟩

/-- Another IN, equal below RLEN. -/
theorem witness_CommandsReadOnlyTheirSource :
    let s := box { Regs.reset with slen := 2, rlen := 1 } [1, 2]
    (∀ a, ReadsIn .cond s a → State.inByte { s with inMem := (Memory.unspecified 0).putBytes 0 (bytes [1, 9]) } a =
      s.inByte a) ∧ ∃ t, exec .cond s = .next t := by
  refine ⟨fun a ha => ?_, ⟨_, rfl⟩⟩
  have h1 : a < 1 := Nat.lt_of_lt_of_le ha (Nat.min_le_right _ _)
  obtain rfl : a = 0 := by omega
  rfl

theorem witness_CommandsIgnoreFlagsAndLeftovers : ∃ t, exec .decode idleBox = .next t := ⟨_, rfl⟩

/-- Every register of the map, the first and the last among them. -/
theorem witness_HostReadsRegister : ∀ p ∈ registerValues idleBox,
    p ∈ registerValues (withEvent (.read .word p.1) idleBox) ∧
      (withEvent (.read .word p.1) idleBox).idleEvent (.read .word p.1) [] :=
  fun _ hp => ⟨hp, idleEvent_withEvent _ _ rfl⟩

theorem witness_StatusAndNregReadAsSpecified : ∀ off ∈ [0x04, 0x0C],
    (withEvent (.read .word off) idleBox).idleEvent (.read .word off) [] :=
  fun _ _ => idleEvent_withEvent _ _ rfl

/-- A plain register, a masked one, a read-only one, written with all ones. -/
theorem witness_HostWritesRegister :
    let s := fun off => withEvent (.write .word off 0xFFFFFFFF) idleBox
    (0x14, { s 0x14 with regs := { (s 0x14).regs with width := 0xFFFFFFFF } }) ∈ registerWrites (s 0x14) 0xFFFFFFFF ∧
      (0x08, { s 0x08 with ctrl := 0xFFFFFFFF &&& 1 }) ∈ registerWrites (s 0x08) 0xFFFFFFFF ∧
      (0x44, s 0x44) ∈ registerWrites (s 0x44) 0xFFFFFFFF ∧
      ∀ off, (s off).idleEvent (.write .word off 0xFFFFFFFF) [] :=
  ⟨by simp [registerWrites], by simp [registerWrites], by simp [registerWrites], fun _ => idleEvent_withEvent _ _ rfl⟩

theorem witness_StatusWriteClearsDoneOnly :
    (withEvent (.write .word 0x04 2) idleBox).idleEvent (.write .word 0x04 2) [] := idleEvent_withEvent _ _ rfl

/-- Past IN and past OUT. -/
theorem unmapped_beyond : ∀ off ∈ [0x1000000 + 64, 0x2000000 + 64], Unmapped idleBox off := by
  intro off ho
  refine ⟨by revert off; decide, fun m hm => ?_⟩
  simp only [memoryWindow, List.mem_cons, List.not_mem_nil, or_false] at hm
  rcases hm with rfl | rfl | rfl <;> (revert off; decide)

/-- The first and the last reserved register, the first unmapped bytes past IN and past OUT. -/
theorem witness_ReservedAndUnmappedOffsets :
    idleBox.cfg.wf = true ∧ (Width.word, 4) ∈ accessWidths ∧ (Width.byte, 1) ∈ accessWidths ∧
    (∀ off ∈ [0x48, 0xFFC], 0x48 ≤ off ∧ off ≤ 0xFFC ∧ off % 4 = 0) ∧
    (∀ off ∈ [0x1000000 + 64, 0x2000000 + 64], ∀ k, k < 1 → Unmapped idleBox (off + k)) ∧
    (withEvent (.read .word 0x48) idleBox).idleEvent (.read .word 0x48) [] ∧
    (withEvent (.write .byte (0x1000000 + 64) 1) idleBox).idleEvent (.write .byte (0x1000000 + 64) 1) [] := by
  refine ⟨by decide +kernel, by decide, by decide, by decide, fun off ho k hk => ?_, idleEvent_withEvent _ _ rfl,
    idleEvent_withEvent _ _ rfl⟩
  obtain rfl : k = 0 := by omega
  exact unmapped_beyond off ho

/-- The last byte of IN, the last half of ROM, the last word of OUT. -/
theorem witness_HostReadsMemoryLittleEndian :
    (0x1000000, 64, idleBox.inByte) ∈ memoryWindow idleBox ∧ (0x1000, 320, idleBox.romByte) ∈ memoryWindow idleBox ∧
    (0x2000000, 64, idleBox.outByte) ∈ memoryWindow idleBox ∧
    (∀ q ∈ [(Width.byte, 1, 64, 63), (.half, 2, 320, 318), (.word, 4, 64, 60)],
      (q.1, q.2.1) ∈ accessWidths ∧ q.2.2.2 % q.2.1 = 0 ∧ q.2.2.2 + q.2.1 ≤ q.2.2.1) ∧
    (withEvent (.read .word (0x2000000 + 60)) idleBox).idleEvent (.read .word (0x2000000 + 60)) [] := by
  refine ⟨.tail _ (.head _), .head _, .tail _ (.tail _ (.head _)), by decide, idleEvent_withEvent _ _ rfl⟩

theorem witness_HostWritesInput :
    (Width.word, 4) ∈ accessWidths ∧ 60 % 4 = 0 ∧ 60 + 4 ≤ idleBox.cfg.inSize ∧
    (withEvent (.write .word (0x1000000 + 60) 0x12345678) idleBox).idleEvent
      (.write .word (0x1000000 + 60) 0x12345678) [] :=
  ⟨by decide, by decide, by decide, idleEvent_withEvent _ _ rfl⟩

theorem witness_HostWritesToRomAndOutIgnored :
    (0x1000 = 0x1000 ∧ 320 = 32 * idleBox.cfg.registry.length) ∧ (0x2000000 = 0x2000000 ∧ 64 = idleBox.cfg.outSize) ∧
    (withEvent (.write .byte (0x1000 + 319) 1) idleBox).idleEvent (.write .byte (0x1000 + 319) 1) [] ∧
    (withEvent (.write .word (0x2000000 + 60) 1) idleBox).idleEvent (.write .word (0x2000000 + 60) 1) [] :=
  ⟨⟨rfl, by decide +kernel⟩, ⟨rfl, rfl⟩, idleEvent_withEvent _ _ rfl, idleEvent_withEvent _ _ rfl⟩

theorem witness_HostCopiesOutToIn :
    63 < idleBox.cfg.inSize ∧ 63 < idleBox.cfg.outSize ∧
    (withEvent (.move (0x1000000 + 63) (0x2000000 + 63)) idleBox).idleEvent
      (.move (0x1000000 + 63) (0x2000000 + 63)) [] :=
  ⟨by decide, by decide, idleEvent_withEvent _ _ rfl⟩

/-- A byte of REGS, a misaligned word of REGS; a misaligned word of IN, a word across its end. -/
theorem witness_AccessesOutsideContractRefused :
    (0 < 0x1000 ∧ (1 ≠ 4 ∨ 0 % 4 ≠ 0)) ∧ (0x42 < 0x1000 ∧ 0x42 % 4 ≠ 0) ∧ (1 < 64 ∧ 1 % 4 ≠ 0) ∧
    (62 < 64 ∧ 64 < 62 + 4) ∧ (0x1000000, 64, idleBox.inByte) ∈ memoryWindow idleBox ∧
    (withEvent (.read .word (0x1000000 + 62)) idleBox).idleEvent (.read .word (0x1000000 + 62)) [] ∧
    (withEvent (.write .byte 0 1) idleBox).idleEvent (.write .byte 0 1) [] :=
  ⟨by decide, by decide, by decide, by decide, .tail _ (.head _), idleEvent_withEvent _ _ rfl,
    idleEvent_withEvent _ _ rfl⟩

/-- A STATUS read, and a write, while a command runs. -/
theorem witness_BusyRule :
    ∀ op ∈ [HostOp.read .word 0x04, .write .word 0x10 1],
      State.busyEvent { runningBox 8 with host := [{ op := op, early := true }] } op [] :=
  fun _ _ => ⟨rfl, rfl⟩

theorem witness_ResetRestoresInitialState :
    (withEvent .reset idleBox).idleEvent .reset [] ∧
    State.busyEvent { runningBox 8 with host := [{ op := .reset, early := true }] } .reset [] :=
  ⟨idleEvent_withEvent _ _ rfl, rfl, rfl⟩

theorem witness_IdleBlockWaits : idleBox.status.busy = false ∧ idleBox.host = [] := ⟨rfl, rfl⟩

theorem witness_InterruptFollowsCompletion :
    (∃ t, step (runningBox 8) = .next t) ∧ (runningBox 8).engineTurn = true ∧
    (∃ t, step (withEvent (.write .word 0x04 2) idleBox) = .next t) ∧
    (withEvent (.write .word 0x04 2) idleBox).idleEvent (.write .word 0x04 2) [] ∧
    (∃ t, step (withEvent (.write .word 0x00 8) idleBox) = .next t) ∧
    (withEvent (.write .word 0x00 8) idleBox).idleEvent (.write .word 0x00 8) [] :=
  ⟨⟨_, rfl⟩, rfl, ⟨_, rfl⟩, idleEvent_withEvent _ _ rfl, ⟨_, rfl⟩, idleEvent_withEvent _ _ rfl⟩

/-- The invariant holds of a state about to run a command. -/
theorem witness_StepKeepsInvariant : (runningBox 8).Inv ∧ ∃ t, step (runningBox 8) = .next t := by
  refine ⟨⟨by decide +kernel, rfl, List.Pairwise.nil, List.Pairwise.nil, fun c hc => (by cases hc),
    fun c hc => (by cases hc), rfl, by decide, fun _ => rfl, fun h => (by cases h), by decide, by decide, by decide, rfl,
    by decide⟩, ⟨_, rfl⟩⟩

theorem witness_RomNeverChanges : (runningBox 8).Inv ∧ ∃ t, step (runningBox 8) = .next t :=
  witness_StepKeepsInvariant

theorem witness_OnlyHostMovesAreRefused :
    step (withEvent (.read .byte 0) idleBox) = .refused .hostRegisterAccess := rfl

end Sys2Proof.Tests
end

section
/-! SUPPORT. What a command's end depends on: OUT is written blindly, and everything outside the operands is carried
through. Then the statements about every command that follow: O7, O30, O31, O33, O35. -/

namespace Sys2Proof.Machine

open Spec

/-! ### Writing OUT without looking at it -/

/-- `OUT[a]` when OUT is `m`: the stored byte, else the free byte of the memory's draw. -/
def Memory.outByte (m : Memory) (a : Nat) : Byte := (m.get? a).getD (Config.unwrittenOut m.era a)

theorem outByte_put (m : Memory) (a x : Nat) (v : Byte) :
    (m.put a v).outByte x = if a = x then v else m.outByte x := by
  unfold Memory.outByte
  rw [get?_put, put_era]
  split <;> rfl

/-- A change of OUT that looks at no byte of it: each byte takes a value fixed beforehand, which happens only at the
addresses `P` allows, or is left alone. -/
def WritesWithin (P : Nat → Prop) (f : Memory → Memory) : Prop :=
  ∀ a, (P a ∧ ∃ b, ∀ m, (f m).outByte a = b) ∨ ∀ m, (f m).outByte a = m.outByte a

theorem writesWithin_id (P : Nat → Prop) : WritesWithin P id := fun _ => .inr fun _ => rfl

theorem writesWithin_put (P : Nat → Prop) (a : Nat) (v : Byte) (ha : P a) : WritesWithin P (·.put a v) := by
  intro x
  by_cases h : a = x
  · exact .inl ⟨h ▸ ha, v, fun m => by rw [outByte_put, if_pos h]⟩
  · exact .inr fun m => by rw [outByte_put, if_neg h]

/-- Every byte unspecified, whatever OUT held (R217). -/
theorem writesWithin_unspecified (P : Nat → Prop) (d : Nat) (h : ∀ a, P a) :
    WritesWithin P fun _ => Memory.unspecified d := fun a => .inl ⟨h a, _, fun _ => rfl⟩

theorem WritesWithin.comp {P : Nat → Prop} {f g : Memory → Memory} (hg : WritesWithin P g) (hf : WritesWithin P f) :
    WritesWithin P fun m => g (f m) := by
  intro a
  rcases hg a with ⟨ha, b, hb⟩ | hg
  · exact .inl ⟨ha, b, fun m => hb (f m)⟩
  · rcases hf a with ⟨ha, b, hb⟩ | hf
    · exact .inl ⟨ha, b, fun m => (hg (f m)).trans (hb m)⟩
    · exact .inr fun m => (hg (f m)).trans (hf m)

theorem WritesWithin.mono {P Q : Nat → Prop} {f : Memory → Memory} (h : WritesWithin P f) (hPQ : ∀ a, P a → Q a) :
    WritesWithin Q f := fun a => (h a).imp_left fun ⟨ha, hb⟩ => ⟨hPQ a ha, hb⟩

/-- A change of OUT that stores a byte at every address below `n`, and leaves the rest. -/
theorem writesWithin_of_get? (n : Nat) (f : Memory → Memory) (g : Nat → Option Byte) (hera : ∀ m, (f m).era = m.era)
    (hsome : ∀ x, (g x).isSome) (hget : ∀ m x, (f m).get? x = if x < n then g x else m.get? x) :
    WritesWithin (· < n) f := by
  intro x
  by_cases hx : x < n
  · obtain ⟨b, hb⟩ := Option.isSome_iff_exists.1 (hsome x)
    exact .inl ⟨hx, b, fun m => by rw [Memory.outByte, hget, if_pos hx, hb]; rfl⟩
  · exact .inr fun m => by rw [Memory.outByte, Memory.outByte, hget, hera, if_neg hx]

/-! ### The loops write blindly -/

theorem writesWithin_copyLoop (rd : Nat → Byte) (n : Nat) : WritesWithin (· < n) (copyLoop rd n 0) :=
  writesWithin_of_get? n _ (fun x => some (rd x)) (fun m => copyLoop_era rd n 0 m) (fun _ => rfl) fun m x => by
    rw [get?_copyLoop]; simp

theorem writesWithin_unpkLoop (s : State) (rw sw n : Nat) (h : 0 < sw) :
    WritesWithin (· < 2 * n) fun m => (unpkLoop s rw sw n (unpkAt sw 0) m).2 :=
  writesWithin_of_get? (2 * n) _ (fun x => (unpkPair s rw sw (x / 2))[x % 2]?) (fun m => unpkLoop_era ..)
    (fun x => by simp [unpkPair]; omega)
    fun m x => by rw [get?_unpkLoop _ _ _ _ _ _ _ h]; simp

theorem writesWithin_scanLoop (f : Format) (s : State) (g : Geometry) (n : Nat) (h : 0 < g.w) :
    WritesWithin (· < 3 * n) fun m => (scanLoop f s g n (pxdStart f) m).2 :=
  writesWithin_of_get? (3 * n) _ (fun x => (rgbBytes (pixelAt f s g (x / 3)))[x % 3]?) (fun m => scanLoop_era ..)
    (fun x => by simp [rgbBytes, Nat.mod_lt])
    fun m x => by
      have e := get?_scanLoop f s g n 0 x m h
      rw [pxdAt] at e
      rw [e]; simp

/-! ### `hexdec` writes blindly -/

/-- The decoder goes on with `k`, unless it has failed. -/
def HexRun.andThen (r : HexRun) (k : HexRegs → Memory → HexRun) : HexRun :=
  match r with
  | .going h out => k h out
  | .failed e => .failed e

theorem closeBoth_eq (n : Nat) (h : HexRegs) (out : Memory) :
    closeBoth n h out = (closeRun n h out).andThen closeRow := by
  unfold closeBoth HexRun.andThen
  cases closeRun n h out <;> rfl

theorem hexLoop_cons (n : Nat) (c : Byte) (t : List Byte) (h : HexRegs) (out : Memory) :
    hexLoop n (c :: t) h out = (hexChar n c h out).andThen fun h' => hexLoop n t { h' with p := h'.p + 1 } := by
  unfold hexLoop HexRun.andThen
  cases hexChar n c h out <;> rfl

/-- The output pointer is the number of bytes in the closed rows and in the open one (R213, R214). -/
def HexRegs.Counted (h : HexRegs) : Prop := h.outPtr = h.rows * h.firstW + h.rowBytes

/-- A piece of the decoder's walk from `h` on: whether it fails and where it gets to does not depend on OUT, the
output pointer never falls and stays counted, and the bytes written lie below it. -/
def BlindWalk (h : HexRegs) (run : Memory → HexRun) : Prop :=
  (∃ e, ∀ out, run out = .failed e) ∨
    ∃ h' f, h.outPtr ≤ h'.outPtr ∧ (h.Counted → h'.Counted) ∧ WritesWithin (· < h'.outPtr) f ∧
      ∀ out, run out = .going h' (f out)

theorem BlindWalk.andThen {h : HexRegs} {run : Memory → HexRun} {k : HexRegs → Memory → HexRun}
    (hr : BlindWalk h run) (hk : ∀ h', BlindWalk h' (k h')) : BlindWalk h fun out => (run out).andThen k := by
  rcases hr with ⟨e, he⟩ | ⟨h1, f, hle, hc, hw, hf⟩
  · exact .inl ⟨e, fun out => by simp only [he]; rfl⟩
  · rcases hk h1 with ⟨e, he⟩ | ⟨h2, g, hle2, hc2, hw2, hg⟩
    · exact .inl ⟨e, fun out => by simp only [hf]; exact he _⟩
    · exact .inr ⟨h2, _, Nat.le_trans hle hle2, hc2 ∘ hc, hw2.comp (hw.mono fun a ha => Nat.lt_of_lt_of_le ha hle2),
        fun out => by simp only [hf]; exact hg _⟩

theorem blindWalk_idle (h h' : HexRegs) (run : Memory → HexRun) (hp : h'.outPtr = h.outPtr)
    (hc : h.Counted → h'.Counted) (e : ∀ out, run out = .going h' out) : BlindWalk h run :=
  .inr ⟨h', id, Nat.le_of_eq hp.symm, hc, writesWithin_id _, e⟩

theorem blindWalk_closeRun (n : Nat) (h : HexRegs) : BlindWalk h (closeRun n h) := by
  unfold closeRun
  split
  · split
    · exact .inl ⟨_, fun _ => rfl⟩
    · refine .inr ⟨_, _, Nat.le_succ _, fun hc => ?_, writesWithin_put _ h.outPtr h.runVal (Nat.lt_succ_self _),
        fun _ => rfl⟩
      exact congrArg (· + 1) hc
  · split
    · exact .inl ⟨_, fun _ => rfl⟩
    · exact blindWalk_idle h { h with runLen := 0, runVal := 0 } _ rfl id fun _ => rfl

theorem blindWalk_closeRow (h : HexRegs) : BlindWalk h (closeRow h) := by
  unfold closeRow
  split
  · rename_i hb
    exact blindWalk_idle h { h with rowBytes := 0 } _ rfl (fun hc => by rw [HexRegs.Counted, hc, hb]) fun _ => rfl
  · split
    · rename_i hw
      exact blindWalk_idle h { h with firstW := h.rowBytes, rows := 1, rowBytes := 0 } _ rfl
        (fun hc => by simpa [HexRegs.Counted, hw] using hc) fun _ => rfl
    · split
      · rename_i he
        exact blindWalk_idle h { h with rows := h.rows + 1, rowBytes := 0 } _ rfl
          (fun hc => by rw [HexRegs.Counted, hc, he, Nat.succ_mul, Nat.add_zero]) fun _ => rfl
      · exact .inl ⟨_, fun _ => rfl⟩

theorem blindWalk_closeBoth (n : Nat) (h : HexRegs) : BlindWalk h (closeBoth n h) := by
  rw [show closeBoth n h = _ from funext (closeBoth_eq n h)]
  exact (blindWalk_closeRun n h).andThen blindWalk_closeRow

theorem blindWalk_hexChar (n : Nat) (c : Byte) (h : HexRegs) : BlindWalk h (hexChar n c h) := by
  unfold hexChar
  split
  · exact blindWalk_idle h (hexDigit c h) _ rfl id fun _ => rfl
  · split
    · exact blindWalk_closeBoth n h
    · exact blindWalk_closeRun n h

/-- The whole walk of `hexdec` (R214) never looks at OUT. -/
theorem blindWalk_hexLoop (n : Nat) (t : List Byte) (h : HexRegs) : BlindWalk h (hexLoop n t h) := by
  induction t generalizing h with
  | nil => exact blindWalk_closeBoth n h
  | cons c t ih =>
    rw [show hexLoop n (c :: t) h = _ from funext (hexLoop_cons n c t h)]
    exact (blindWalk_hexChar n c h).andThen fun h' => ih { h' with p := h'.p + 1 }

/-- A row that closes leaves no byte in the open row. -/
theorem closeRow_rowBytes (h h' : HexRegs) (out out' : Memory) (e : closeRow h out = .going h' out') :
    h'.rowBytes = 0 := by
  unfold closeRow at e
  split at e
  · cases e; rfl
  · split at e
    · cases e; rfl
    · split at e
      · cases e; rfl
      · cases e

theorem closeBoth_rowBytes (n : Nat) (h h' : HexRegs) (out out' : Memory) (e : closeBoth n h out = .going h' out') :
    h'.rowBytes = 0 := by
  rw [closeBoth_eq] at e
  cases hr : closeRun n h out with
  | going h1 out1 => rw [hr] at e; exact closeRow_rowBytes _ _ _ _ e
  | failed e1 => rw [hr] at e; cases e

/-- The end of the stream closes the last row (R211, R214). -/
theorem hexLoop_rowBytes (n : Nat) (t : List Byte) (h h' : HexRegs) (out out' : Memory)
    (e : hexLoop n t h out = .going h' out') : h'.rowBytes = 0 := by
  induction t generalizing h out with
  | nil => exact closeBoth_rowBytes _ _ _ _ _ e
  | cons c t ih =>
    rw [hexLoop_cons] at e
    cases hr : hexChar n c h out with
    | going h1 out1 => rw [hr] at e; exact ih _ _ e
    | failed e1 => rw [hr] at e; cases e

/-- The walk of `hexdec` from its start writes inside OUT: the output pointer ends at most at OUT_SIZE (R250). -/
theorem hexLoop_outPtr_le (n : Nat) (t : List Byte) (p : Nat) (h' : HexRegs) (out out' : Memory)
    (e : hexLoop n t (hexStart p) out = .going h' out') : h'.outPtr ≤ n :=
  hexLoop_keeps n (fun a _ => a ≤ n) (fun _ _ _ _ ha => ha) t _ _ out out' e (Nat.zero_le n)

/-- Two counts whose product fits in 32 bits, each kept in a 32-bit register: their product is read back. -/
theorem toNat_mul_toNat_of_lt (a b : Nat) (h : a * b < 2 ^ 32) :
    (BitVec.ofNat 32 a).toNat * (BitVec.ofNat 32 b).toNat = a * b := by
  rcases Nat.eq_zero_or_pos a with rfl | ha
  · simp
  · rcases Nat.eq_zero_or_pos b with rfl | hb
    · simp
    · rw [BitVec.toNat_ofNat, BitVec.toNat_ofNat,
        Nat.mod_eq_of_lt (Nat.lt_of_le_of_lt (Nat.le_mul_of_pos_right a hb) h),
        Nat.mod_eq_of_lt (Nat.lt_of_le_of_lt (Nat.le_mul_of_pos_left b ha) h)]

/-! ### The rest of the state, and what a command does to it -/

/-- Everything in the state but the operands of the commands: the parameters, the registers, the ROM, IN and the model's
count of draws are the operands. -/
structure Context where
  cmd    : Word
  status : Status
  ctrl   : Word
  outMem : Memory
  unit   : UnitState
  host   : List HostEvent
  reply  : Option Word

/-- The operands of `s` in another context. -/
def State.inContext (s : State) (k : Context) : State :=
  { s with cmd := k.cmd, status := k.status, ctrl := k.ctrl, outMem := k.outMem, unit := k.unit, host := k.host,
           reply := k.reply }

/-- The context of a state. -/
def State.context (s : State) : Context :=
  { cmd := s.cmd, status := s.status, ctrl := s.ctrl, outMem := s.outMem, unit := s.unit, host := s.host,
    reply := s.reply }

section Effects

variable (s : State) (k : Context)

@[simp] theorem inContext_textTooLong : (s.inContext k).textTooLong = s.textTooLong := rfl
@[simp] theorem inContext_text : (s.inContext k).text = s.text := inBytes_congr s (s.inContext k) rfl _ _

theorem unpkLoop_inContext (rw sw n : Nat) (u : UnpkRegs) (out : Memory) :
    unpkLoop (s.inContext k) rw sw n u out = unpkLoop s rw sw n u out := by
  induction n generalizing u out with
  | zero => rfl
  | succ n ih => exact ih _ _

theorem scanLoop_inContext (f : Format) (g : Geometry) (n : Nat) (p : PxdRegs) (out : Memory) :
    scanLoop f (s.inContext k) g n p out = scanLoop f s g n p out := by
  induction n generalizing p out with
  | zero => rfl
  | succ n ih =>
    simp only [scanLoop, ih, pixelOf_congr f s (s.inContext k) g p (fun _ => rfl) rfl]

/-- What a command does to a state: the registers, STATUS and draws it leaves, and the change it makes to OUT. -/
structure Effect where
  regs   : Regs
  status : Status
  draws  : Nat
  out    : Memory → Memory

/-- The state a command leaves (R252 (e), R20 (e)). -/
def Effect.apply (e : Effect) (s : State) : State :=
  { s with regs := e.regs, status := e.status, draws := e.draws, outMem := e.out s.outMem, unit := .idle }

/-- The promises about the effect of command `i` from `s`: it writes its own registers only, and it writes OUT
blindly, when it ends without error only below its own size. -/
structure EffectOk (i : Instr) (s : State) (e : Effect) : Prop where
  regs : writtenRegs i s (e.apply s) = e.regs
  out : WritesWithin (fun a => s.cfg.wf = true → e.status.err = false → a < writtenOut i (e.apply s)) e.out

/-- `c` has one and the same effect in every context: it looks at the operands in `s` only. -/
def HasEffect (i : Instr) (s : State) (c : State → Host.Outcome State Fault Refusal) : Prop :=
  ∃ e, EffectOk i s e ∧ ∀ k, c (s.inContext k) = .next (e.apply (s.inContext k))

variable {s} {c : State → Host.Outcome State Fault Refusal}

/-- A command that raises an error changes STATUS only (R252). -/
theorem hasEffect_raise (i : Instr) (e : Error) (h : ∀ k, c (s.inContext k) = raise (s.inContext k) e) :
    HasEffect i s c :=
  ⟨{ regs := s.regs, status := endStatus (errorCode e) false false, draws := s.draws, out := id },
    ⟨by cases i <;> rfl, writesWithin_id _⟩, h⟩

/-- A command that ends without error and writes no byte of OUT. -/
theorem hasEffect_regs (i : Instr) (r : Regs) (d : Nat) (sh fo : Bool)
    (hr : ∀ t : State, t.regs = r → writtenRegs i s t = r)
    (h : ∀ k, c (s.inContext k) = .next { s.inContext k with
      regs := r, draws := d, status := endStatus 0 sh fo, unit := .idle }) :
    HasEffect i s c :=
  ⟨{ regs := r, status := endStatus 0 sh fo, draws := d, out := id }, ⟨hr _ rfl, writesWithin_id _⟩, h⟩

/-- A command that ends without error and leaves this OUT and these registers. -/
theorem hasEffect_out (i : Instr) (r : Regs) (n : Nat) (f : Memory → Memory) (sh : Bool)
    (hr : ∀ t : State, t.regs = r → writtenRegs i s t = r) (hf : WritesWithin (· < n) f)
    (hn : s.cfg.wf = true → ∀ t : State, t.regs = r → n = writtenOut i t)
    (h : ∀ k, c (s.inContext k) = .next { s.inContext k with
      regs := r, outMem := f k.outMem, status := endStatus 0 sh false, unit := .idle }) :
    HasEffect i s c :=
  ⟨{ regs := r, status := endStatus 0 sh false, draws := s.draws, out := f },
    ⟨hr _ rfl, hf.mono fun _ ha hwf _ => Nat.lt_of_lt_of_eq ha (hn hwf _ rfl)⟩, h⟩

variable (s)

theorem HasEffect.congr {i : Instr} {s : State} {c d : State → Host.Outcome State Fault Refusal}
    (h : HasEffect i s d) (hcd : ∀ k, c (s.inContext k) = d (s.inContext k)) : HasEffect i s c := by
  obtain ⟨e, ok, he⟩ := h
  exact ⟨e, ok, fun k => (hcd k).trans (he k)⟩

/-! ### The effect of each command -/

/-- The registers the numeric path leaves (R130, R131): FMT is the literal's value, or a draw when that is `2^32` or
more (R128). -/
def numberRegs (t : List Byte) (s : State) : Regs :=
  let f := numeric t s.startFrs.frs
  { s.regs with
    fmt := if f.past32 then Config.numOverflow s.draws else f.acc, tpos := BitVec.ofNat 32 f.p, ridx := noIndex }

theorem takeNumber_next (t : List Byte) :
    takeNumber t s = .next { s with
      regs := numberRegs t s
      draws := if (numeric t s.startFrs.frs).past32 then s.draws + 1 else s.draws
      status := endStatus 0 false false
      unit := .idle } := by
  unfold takeNumber numberRegs
  cases h : (numeric t s.startFrs.frs).past32 <;> simp only [h] <;> rfl

theorem hasEffect_takeNumber (i : Instr) (hi : i = .parseN ∨ i = .parseR) (t : List Byte) :
    HasEffect i s (takeNumber t) := by
  refine hasEffect_regs i (numberRegs t s) (if (numeric t s.startFrs.frs).past32 then s.draws + 1 else s.draws) false
    false (fun u hu => ?_) fun k => takeNumber_next (s.inContext k) t
  rcases hi with rfl | rfl <;> simp only [writtenRegs, hu] <;> rfl

/-- The part `parse.n` and `parse.r` share (R125, R130, R131). -/
theorem hasEffect_parseToken (i : Instr) (hi : i = .parseN ∨ i = .parseR)
    (onName : List Byte → State → Host.Outcome State Fault Refusal) (hname : ∀ t, HasEffect i s (onName t)) :
    HasEffect i s (parseToken onName) := by
  cases hl : s.textTooLong with
  | true => exact hasEffect_raise i .allocationFailed fun k => if_pos hl
  | false =>
    cases ht : s.text with
    | nil => exact hasEffect_raise i .emptySymbol fun k => by simp [parseToken, hl, ht]
    | cons b t =>
      cases hw : isWord b with
      | false => exact hasEffect_raise i .emptySymbol fun k => by simp [parseToken, hl, ht, hw]
      | true =>
        cases hd : isDigit b with
        | true => exact (hasEffect_takeNumber s i hi (b :: t)).congr fun k => by simp [parseToken, hl, ht, hw, hd]
        | false => exact (hname (b :: t)).congr fun k => by simp [parseToken, hl, ht, hw, hd]

/-- The name path of `parse.r` (R131). -/
theorem hasEffect_takeName (t : List Byte) : HasEffect .parseR s (takeName t) := by
  cases hn : s.lookupName (nameToken t) with
  | none =>
    refine hasEffect_raise .parseR .symbolNotFound fun k => ?_
    unfold takeName
    rw [show (s.inContext k).lookupName (nameToken t) = none from hn]
  | some j =>
    refine hasEffect_regs .parseR { s.regs with
      fmt := s.entryId j, tpos := BitVec.ofNat 32 (u32 s.regs.tpos + (nameToken t).length), ridx := BitVec.ofNat 32 j }
      s.draws false true (fun t ht => by simp only [writtenRegs, ht]) fun k => ?_
    unfold takeName
    rw [show (s.inContext k).lookupName (nameToken t) = some j from hn]
    rfl

/-- `lkname` on a text inside IN, the lookup's answer given (R132). -/
theorem execLkname_of_lookup (i : Option Nat) (hl : s.textTooLong = false)
    (hi : (if s.text = [] then none else s.lookupName s.text) = i) :
    execLkname s = .next { s with
      regs := { s.regs with fmt := i.elim s.regs.fmt s.entryId, ridx := ridxOf i }
      status := endStatus 0 false (foundFlag i)
      unit := .idle } := by
  unfold execLkname
  rw [if_neg (by simp [hl]), hi]
  cases i <;> rfl

theorem hasEffect_lkname : HasEffect .lkname s execLkname := by
  cases hl : s.textTooLong with
  | true => exact hasEffect_raise .lkname .allocationFailed fun k => if_pos hl
  | false =>
    let i := if s.text = [] then none else s.lookupName s.text
    exact hasEffect_regs .lkname { s.regs with fmt := i.elim s.regs.fmt s.entryId, ridx := ridxOf i } s.draws false
      (foundFlag i) (fun t ht => by simp only [writtenRegs, ht]) fun k =>
      execLkname_of_lookup (s.inContext k) i hl (by rw [inContext_text]; rfl)

theorem hasEffect_lkid : HasEffect .lkid s execLkid :=
  hasEffect_regs .lkid { s.regs with ridx := ridxOf (s.lookupId s.regs.fmt) } s.draws false
    (foundFlag (s.lookupId s.regs.fmt)) (fun t ht => by simp only [writtenRegs, ht]) fun _ => rfl

theorem hasEffect_csc : HasEffect .csc s execCsc :=
  hasEffect_regs .csc { s.regs with
    rgb := rgbWord (ycbcrToRgb (yccY s.regs.ycc) (yccCb s.regs.ycc) (yccCr s.regs.ycc)) } s.draws false false
    (fun t ht => by simp only [writtenRegs, ht]) fun _ => rfl

theorem hasEffect_cond : HasEffect .cond s execCond := by
  by_cases hc : s.cfg.inSize < u32 s.regs.slen ∨ s.cfg.outSize < u32 s.regs.rlen
  · exact hasEffect_raise .cond .allocationFailed fun k => if_pos hc
  · exact hasEffect_out .cond s.regs (u32 s.regs.rlen) _ (shortFlag (u32 s.regs.slen) (u32 s.regs.rlen))
      (fun _ _ => rfl) (writesWithin_copyLoop (s.srcRead (min (u32 s.regs.slen) (u32 s.regs.rlen))) _)
      (fun _ t ht => by simp only [writtenOut, ht]; rfl) fun k => if_neg hc

/-- A failed `hexdec` leaves every byte of OUT unspecified (R217). -/
theorem hasEffect_hexFail (e : Error) (h : ∀ k, c (s.inContext k) = hexFail (s.inContext k) e) :
    HasEffect .hexdec s c :=
  ⟨{ regs := s.regs, status := endStatus (errorCode e) false false, draws := s.draws + 1,
     out := fun _ => Memory.unspecified s.draws },
    ⟨rfl, writesWithin_unspecified _ _ fun _ _ he => absurd (he.symm.trans (errorCode_bne e)) (by simp)⟩, h⟩

/-- `hexdec` on a text inside IN whose walk fails (R217). -/
theorem execHexdec_of_failed (e : Error) (hl : s.textTooLong = false)
    (h : hexLoop s.cfg.outSize s.text (hexStart (u32 s.regs.tpos)) s.outMem = .failed e) :
    execHexdec s = hexFail s e := by
  unfold execHexdec
  rw [if_neg (by simp [hl])]
  simp only [setUnit_read_hex, h]

/-- `hexdec` on a text inside IN whose walk reaches the end (R214). -/
theorem execHexdec_of_going (h : HexRegs) (out : Memory) (hl : s.textTooLong = false)
    (hg : hexLoop s.cfg.outSize s.text (hexStart (u32 s.regs.tpos)) s.outMem = .going h out) :
    execHexdec s = .next { s with
      regs := { s.regs with roww := BitVec.ofNat 32 h.firstW, rowc := BitVec.ofNat 32 h.rows }
      outMem := out
      status := endStatus 0 false false
      unit := .idle } := by
  unfold execHexdec
  rw [if_neg (by simp [hl])]
  simp only [setUnit_read_hex, hg]
  rfl

/-- After a whole walk the output pointer is ROWW * ROWC, both read back from their 32-bit registers (R214, R6). -/
theorem outPtr_eq_roww_mul_rowc (hwf : s.cfg.wf = true) (t : List Byte) (p : Nat) (h : HexRegs) (out out' : Memory)
    (hc : h.Counted) (e : hexLoop s.cfg.outSize t (hexStart p) out = .going h out') :
    h.outPtr = (BitVec.ofNat 32 h.firstW).toNat * (BitVec.ofNat 32 h.rows).toNat := by
  obtain ⟨-, ⟨-, hsize⟩, -⟩ := wf_sizes s.cfg hwf
  have hle := hexLoop_outPtr_le _ _ _ _ _ _ e
  rw [HexRegs.Counted, hexLoop_rowBytes _ _ _ _ _ _ e, Nat.add_zero, Nat.mul_comm] at hc
  rw [toNat_mul_toNat_of_lt _ _ (by omega), hc]

theorem hasEffect_hexdec : HasEffect .hexdec s execHexdec := by
  cases hl : s.textTooLong with
  | true => exact hasEffect_hexFail s .allocationFailed fun k => if_pos hl
  | false =>
    rcases blindWalk_hexLoop s.cfg.outSize s.text (hexStart (u32 s.regs.tpos)) with ⟨e, he⟩ | ⟨h, f, -, hc, hw, hf⟩
    · exact hasEffect_hexFail s e fun k =>
        execHexdec_of_failed (s.inContext k) e hl (by rw [inContext_text]; exact he _)
    · refine hasEffect_out .hexdec { s.regs with roww := BitVec.ofNat 32 h.firstW, rowc := BitVec.ofNat 32 h.rows }
        h.outPtr f false (fun t ht => by simp only [writtenRegs, ht]) hw (fun hwf t ht => ?_) fun k =>
        execHexdec_of_going (s.inContext k) h _ hl (by rw [inContext_text]; exact hf _)
      simp only [writtenOut, ht]
      exact outPtr_eq_roww_mul_rowc s hwf _ _ h s.outMem _ (hc rfl) (hf _)

/-- The sample steps from the start of the raster write inside their `2 * sw * rows` bytes; a row may hold none. -/
theorem writesWithin_unpk (rw sw rc : Nat) :
    WritesWithin (· < 2 * sw * rc) fun m => (unpkLoop s rw sw (rc * sw) { r := 0, k := 0 } m).2 := by
  rcases Nat.eq_zero_or_pos sw with rfl | h
  · exact writesWithin_id _
  · have := writesWithin_unpkLoop s rw sw (rc * sw) h
    rwa [unpkAt, Nat.zero_div, Nat.zero_mod, Nat.mul_comm rc, ← Nat.mul_assoc, Nat.mul_comm sw] at this

theorem hasEffect_unpk10 : HasEffect .unpk10 s execUnpk10 := by
  by_cases hc : s.cfg.inSize < u32 s.regs.roww * u32 s.regs.rowc ∨
      s.cfg.outSize < 2 * sampleWidth (u32 s.regs.roww) * u32 s.regs.rowc
  · exact hasEffect_raise .unpk10 .allocationFailed fun k => if_pos hc
  · refine hasEffect_out .unpk10 { s.regs with sampw := BitVec.ofNat 32 (sampleWidth (u32 s.regs.roww)) } _ _ false
      (fun t ht => by simp only [writtenRegs, ht])
      (writesWithin_unpk s (u32 s.regs.roww) (sampleWidth (u32 s.regs.roww)) (u32 s.regs.rowc))
      (fun _ t ht => ?_) fun k => ?_
    · have hlt : sampleWidth (u32 s.regs.roww) < 2 ^ 32 := by
        have := s.regs.roww.isLt; unfold sampleWidth u32; omega
      simp only [writtenOut, ht, BitVec.toNat_ofNat, Nat.mod_eq_of_lt hlt]; rfl
    · refine (if_neg hc).trans ?_
      rw [unpkLoop_inContext]; rfl

/-- `decode` on a supported format (R161): the geometry, the capacity, then the scanner. -/
theorem execDecode_of_format (f : Format) (hf : formatOf s.cfg s.regs.fmt = some f) :
    execDecode s =
      if s32 s.regs.width ≤ 0 ∨ s32 s.regs.height ≤ 0 then raise s .geometryInvalid
      else if s.cfg.inSize < u32 s.regs.slen ∨ s.cfg.outSize < 3 * (s.geometry f).w * (s.geometry f).h then
        raise s .allocationFailed
      else complete (scanFrame f s (s.geometry f)) (shortFlag (u32 s.regs.slen) (s.geometry f).req) false := by
  unfold execDecode
  rw [hf]

theorem hasEffect_decode : HasEffect .decode s execDecode := by
  cases hf : formatOf s.cfg s.regs.fmt with
  | none =>
    refine hasEffect_raise .decode .unsupportedFormat fun k => ?_
    unfold execDecode
    rw [show formatOf (s.inContext k).cfg (s.inContext k).regs.fmt = none from hf]
  | some f =>
    have run := fun k => execDecode_of_format (s.inContext k) f hf
    by_cases hg : s32 s.regs.width ≤ 0 ∨ s32 s.regs.height ≤ 0
    · exact hasEffect_raise .decode .geometryInvalid fun k => (run k).trans (if_pos hg)
    · by_cases hc : s.cfg.inSize < u32 s.regs.slen ∨ s.cfg.outSize < 3 * (s.geometry f).w * (s.geometry f).h
      · exact hasEffect_raise .decode .allocationFailed fun k => (run k).trans ((if_neg hg).trans (if_pos hc))
      · have hw : 0 < (s.geometry f).w := Int.pos_iff_toNat_pos.1 (by omega)
        refine hasEffect_out .decode s.regs _ _ (shortFlag (u32 s.regs.slen) (s.geometry f).req) (fun _ _ => rfl)
          (writesWithin_scanLoop f s (s.geometry f) ((s.geometry f).w * (s.geometry f).h) hw) (fun _ t ht => ?_)
          fun k => (run k).trans ((if_neg hg).trans ((if_neg hc).trans ?_))
        · simp only [writtenOut, wid, hgt, ht, geometry_eq, Nat.mul_assoc]
        · rw [Nat.mul_comm, ← scanLoop_inContext s k]; rfl

/-- Every command looks at its operands only, and writes OUT blindly (R41, R47, R54, R61). -/
theorem exec_hasEffect (i : Instr) : HasEffect i s (exec i) := by
  cases i with
  | parseN =>
    exact hasEffect_parseToken s .parseN (.inl rfl) (fun _ t => raise t .numericOnlyExpected)
      fun _ => hasEffect_raise .parseN .numericOnlyExpected fun _ => rfl
  | parseR => exact hasEffect_parseToken s .parseR (.inr rfl) _ (hasEffect_takeName s)
  | lkname => exact hasEffect_lkname s
  | lkid => exact hasEffect_lkid s
  | cond => exact hasEffect_cond s
  | hexdec => exact hasEffect_hexdec s
  | unpk10 => exact hasEffect_unpk10 s
  | decode => exact hasEffect_decode s
  | csc => exact hasEffect_csc s

/-- A command that answers `t` has an effect, which brings `s` to `t` and every other context of `s` to its own end. -/
theorem exec_effect {i : Instr} {s t : State} (h : exec i s = .next t) :
    ∃ e, EffectOk i s e ∧ t = e.apply s ∧ ∀ k, exec i (s.inContext k) = .next (e.apply (s.inContext k)) := by
  obtain ⟨e, ok, he⟩ := exec_hasEffect s i
  have ht := (he s.context).symm.trans h
  injection ht with ht
  exact ⟨e, ok, ht.symm, he⟩

end Effects

/-! ### The statements about every command -/

/-- Settles O30: the frame is the effect's, and an effect writes its command's registers only. -/
theorem commandsKeepTheirFrame : Obligations.CommandsKeepTheirFrame := by
  intro i s t h
  obtain ⟨e, ok, rfl, -⟩ := exec_effect h
  exact ⟨rfl, rfl, rfl, rfl, rfl, rfl, rfl, rfl, ok.regs.symm⟩

/-- Settles O31: without an error an effect writes OUT below its command's size only. -/
theorem outBeyondResultUnchanged : Obligations.OutBeyondResultUnchanged := by
  intro i s t hwf h herr a ha
  obtain ⟨e, ok, rfl, -⟩ := exec_effect h
  rcases ok.out a with ⟨hlt, -⟩ | hleft
  · exact absurd (hlt hwf herr) (Nat.not_lt.2 ha)
  · exact hleft s.outMem

/-- Settles O33: the effect is the same in both contexts, and it writes OUT blindly. -/
theorem commandsNeverReadOut : Obligations.CommandsNeverReadOut := by
  intro i s t m h
  obtain ⟨e, ok, rfl, he⟩ := exec_effect h
  refine ⟨e.apply { s with outMem := m }, he { s.context with outMem := m }, rfl, fun a => ?_⟩
  rcases ok.out a with ⟨-, b, hb⟩ | hleft
  · exact .inl ((hb m).trans (hb s.outMem).symm)
  · exact .inr ⟨hleft s.outMem, hleft m⟩

/-- Settles O35: the effect is the same in both contexts, and it replaces STATUS and the unit state. -/
theorem commandsIgnoreFlagsAndLeftovers : Obligations.CommandsIgnoreFlagsAndLeftovers := by
  intro i s t st c w u h
  obtain ⟨e, -, rfl, he⟩ := exec_effect h
  exact he { s.context with status := st, ctrl := c, cmd := w, unit := u }

/-- Settles O7: STATUS is written at once when a command ends, and the effect is the same whatever it was before. -/
theorem commandEndWritesStatus : Obligations.CommandEndWritesStatus := by
  intro i s
  obtain ⟨u, e, sh, fo, ends⟩ := exec_ends i s
  refine ⟨_, ends.next, rfl, rfl, ?_, fun herr => ends.noFlags (bne_iff_ne.1 herr), ends.short, ends.found,
    fun st => ?_⟩
  · exact Bool.eq_iff_iff.2 (bne_iff_ne.trans decide_eq_true_iff.symm)
  · obtain ⟨f, -, hf, he⟩ := exec_effect ends.next
    rw [hf]; exact he { s.context with status := st }

end Sys2Proof.Machine
end

section
/-! SUPPORT. One step said once: whose it is, and what a host event can do to the state. Then the statements about
host accesses, reset, the interrupt and the invariant: O4, O5, O36 to O40, O47 to O53. -/

namespace Sys2Proof.Machine

open Spec

section Steps

variable {s t : State} {rest : List HostEvent}

/-! ### The engine's turn -/

/-- Every command's word decodes to the command (R91, R92). -/
theorem decode_encode (i : Instr) : decode (encode i) = .ok i := by cases i <;> decide

theorem runCommand_of_decode {i : Instr} (h : decode s.cmd = .ok i) : runCommand s = exec i s := by
  unfold runCommand; rw [h]

/-- The engine's turn runs a command, or ends with `IllegalCommand` (R91, R94). -/
theorem runCommand_cases (s : State) :
    (∃ i, runCommand s = exec i s) ∨ runCommand s = raise s .illegalCommand := by
  cases h : decode s.cmd with
  | ok i => exact .inl ⟨i, runCommand_of_decode h⟩
  | illegal why => right; unfold runCommand; rw [h]

/-- A command's end leaves DONE set and the parameters and CTRL as they were, an illegal word's too (R25). -/
theorem runCommand_frame (h : runCommand s = .next t) : t.cfg = s.cfg ∧ t.ctrl = s.ctrl ∧ t.status.done = true := by
  rcases runCommand_cases s with ⟨i, hi⟩ | hr
  · rw [hi] at h
    obtain ⟨u, e, sh, fo, ends⟩ := exec_ends i s
    cases ends.next.symm.trans h
    exact ⟨ends.kept.cfg, ends.kept.ctrl, rfl⟩
  · cases hr.symm.trans h
    exact ⟨rfl, rfl, rfl⟩

/-! ### What a host event can do -/

/-- What a host event does to a state: the host may have read a word; and a register is written by name, or bytes are
stored inside IN, or the running command's STATUS is polled, or the block is reset. -/
inductive HostEffect (s : State) : State → Prop
  | heard (r : Option Word) : HostEffect s { s with reply := r }
  | wrote (r : Option Word) (v : Word) (reg : RegName) : HostEffect s (State.writeReg { s with reply := r } v reg)
  | stored (r : Option Word) (a : Nat) (bs : List Byte) (h : a + bs.length ≤ s.cfg.inSize) :
    HostEffect s { s with reply := r, inMem := s.inMem.putBytes a bs }
  | polled (r : Option Word) : HostEffect s { s with reply := r, draws := s.draws + 1 }
  | reset : HostEffect s s.resetBlock

theorem leBytes_length (v : Word) (n : Nat) : (leBytes v n).length = n := by simp [leBytes]

theorem hostEffect_of_hostWrite (n off : Nat) (v : Word) (r : Option Word) (hn : 1 ≤ n)
    (h : hostWrite n off v { s with reply := r } = .next t) : HostEffect s t := by
  rcases hostWrite_next _ _ _ _ _ h with rfl | ⟨reg, rfl⟩ | ⟨a, ha, rfl⟩
  · exact .heard r
  · exact .wrote r v reg
  · exact .stored r a _ (by rw [leBytes_length]; exact route_input_inside _ _ _ _ hn ha)

theorem hostEffect_of_hostIdle (op : HostOp) (h : hostIdle op s = .next t) : HostEffect s t := by
  cases op with
  | read w off =>
    change hostRead (widthBytes w) off s = _ at h
    unfold hostRead at h
    split at h
    · cases h; exact .heard _
    · cases h
  | write w off v => exact hostEffect_of_hostWrite _ off v s.reply (widthBytes_pos w) h
  | move dst src =>
    change hostMove dst src s = _ at h
    unfold hostMove at h
    split at h
    · exact hostEffect_of_hostWrite 1 dst _ _ (Nat.le_refl 1) h
    · cases h
  | reset => cases h; exact .reset

theorem hostEffect_of_hostBusy (op : HostOp) (h : hostBusy op s = .next t) : HostEffect s t := by
  unfold hostBusy at h
  split at h
  · cases h; exact .polled _
  · cases h; exact .reset
  · cases h

theorem step_of_waiting (hidle : s.status.busy = false) (hhost : s.host = []) : step s = .next s := by
  unfold step idleStep
  rw [hidle, hhost]; rfl

/-- Whose step it is: the engine's, or a host event's, a waiting step among them (R70, R282). -/
theorem step_cases (h : step s = .next t) :
    (s.engineTurn = true ∧ runCommand s = .next t) ∨ ∃ rest, HostEffect { s with host := rest } t := by
  by_cases hturn : s.engineTurn = true
  · exact .inl ⟨hturn, (step_of_engineTurn s hturn).symm.trans h⟩
  · right
    unfold State.engineTurn at hturn
    cases hh : s.host with
    | nil =>
      have hidle : s.status.busy = false := by simpa [hh] using hturn
      cases (step_of_waiting hidle hh).symm.trans h
      exact ⟨s.host, .heard s.reply⟩
    | cons ev tl =>
      obtain ⟨op, early⟩ := ev
      cases hb : s.status.busy with
      | false => exact ⟨tl, hostEffect_of_hostIdle op ((step_of_idleEvent s op tl ⟨hb, early, hh⟩).symm.trans h)⟩
      | true =>
        obtain rfl : early = true := by simpa [hb, hh] using hturn
        exact ⟨tl, hostEffect_of_hostBusy op ((step_of_busyEvent s op tl ⟨hb, hh⟩).symm.trans h)⟩

/-! ### Registers: reads and writes by name -/

/-- The acknowledgement (R24): a STATUS write clears DONE when bit 1 is set, and changes nothing else. -/
theorem writeReg_status (s : State) (v : Word) :
    s.writeReg v .status
      = { s with status := { s.status with done := if v.getLsbD 1 = true then false else s.status.done } } := by
  show (if v.getLsbD 1 = true then s.ackDone else s) = _
  by_cases h : v.getLsbD 1 = true
  · rw [if_pos h, if_pos h]; rfl
  · rw [if_neg h, if_neg h]

@[simp] theorem writeReg_cfg (s : State) (v : Word) (r : RegName) : (s.writeReg v r).cfg = s.cfg := by
  cases r with
  | status => rw [writeReg_status]
  | _ => rfl

theorem route_register (c : Config) (off : Nat) (h : off < 0x1000) (h4 : off % 4 = 0) :
    route c 4 off = .register off := by
  rw [route_regs c 4 off (by decide) h, if_pos ⟨rfl, h4⟩]

theorem route_regOffset (c : Config) (r : RegName) : route c 4 (regOffset r) = .register (regOffset r) :=
  route_register c _ (Nat.lt_trans (regOffset_bounds r).1 (by decide)) (regOffset_bounds r).2

theorem readReg_host (s : State) (r : RegName) : State.readReg { s with host := rest } r = s.readReg r := by
  cases r <;> rfl

/-- A word read at a register's offset while idle (R38, R63). -/
theorem step_read_register (r : RegName) (h : s.idleEvent (.read .word (regOffset r)) rest) :
    step s = .next { s with host := rest, reply := some (s.readReg r) } := by
  rw [step_of_idleEvent s _ _ h]
  simp only [hostIdle, hostRead, State.hostReadValue, widthBytes, route_regOffset, regAt_regOffset, Option.elim,
    readReg_host]

/-- A word write at a register's offset while idle (R63). -/
theorem step_write_register (r : RegName) (v : Word) (h : s.idleEvent (.write .word (regOffset r) v) rest) :
    step s = .next (State.writeReg { s with host := rest } v r) := by
  rw [step_of_idleEvent s _ _ h]
  simp only [hostIdle, hostWrite, widthBytes, route_regOffset, regAt_regOffset, Option.elim]

/-- The statements' register map is the model's (R22, R30). -/
theorem registerValues_eq (s : State) : registerValues s = allRegs.map fun r => (regOffset r, s.readReg r) := rfl

/-- The registers whose write the statements' table gives: all but CMD and STATUS. -/
def plainRegs : List RegName := allRegs.filter fun r => r != .cmd && r != .status

theorem registerWrites_eq (s : State) (v : Word) :
    registerWrites s v = plainRegs.map fun r => (regOffset r, s.writeReg v r) := rfl

/-- A write to any register but CMD and STATUS commutes with the host's list moving on. -/
theorem writeReg_host (s : State) (v : Word) (r : RegName) (rest : List HostEvent) (hr : r ∈ plainRegs) :
    State.writeReg { s with host := rest } v r = { s.writeReg v r with host := rest } := by
  cases r with
  | status => exact absurd hr (by decide)
  | _ => rfl

/-! ### Reserved and unmapped offsets -/

theorem regAt_reserved (off : Nat) (h : 0x48 ≤ off) : regAt off = none := by
  refine List.find?_eq_none.2 fun r _ => ?_
  have := (regOffset_bounds r).1
  simp only [beq_iff_eq]; omega

theorem locate_unmapped (s : State) (off : Nat) (h : Unmapped s off) : locate s.cfg off = none := by
  obtain ⟨h0, hm⟩ := h
  simp only [memoryWindow, List.forall_mem_cons] at hm
  obtain ⟨hrom, hin, hout, -⟩ := hm
  unfold locate
  rw [if_neg (by omega), if_neg (by omega), if_neg (by omega), if_neg (by omega)]

theorem widthBytes_of_mem (w : Width) (n : Nat) (h : (w, n) ∈ accessWidths) : n = widthBytes w := by
  simp only [accessWidths, List.mem_cons, Prod.mk.injEq, List.not_mem_nil, or_false] at h
  rcases h with ⟨rfl, rfl⟩ | ⟨rfl, rfl⟩ | ⟨rfl, rfl⟩ <;> rfl

/-- An access that no register and no memory serves reads 0 and writes nothing (R29, R60). -/
theorem hostAccess_unserved (s : State) (n off : Nat) (v : Word)
    (h : route s.cfg n off = .unmapped ∨ ∃ o, route s.cfg n off = .register o ∧ regAt o = none) :
    hostRead n off s = .next { s with reply := some 0 } ∧ hostWrite n off v s = .next s := by
  unfold hostRead State.hostReadValue hostWrite
  rcases h with h | ⟨o, h, ho⟩
  · rw [h]; exact ⟨rfl, rfl⟩
  · simp only [h, ho]; exact ⟨rfl, rfl⟩

/-! ### STATUS bit by bit -/

/-- The five flags as bits 0 to 4 (R24). -/
def flagBits (t : Status) : Nat :=
  t.busy.toNat + 2 * t.done.toNat + 4 * t.err.toNat + 8 * t.short.toNat + 16 * t.found.toNat

theorem flagBits_lt (t : Status) : flagBits t < 2 ^ 5 := by
  have h := fun b => Bool.toNat_le b
  have := h t.busy; have := h t.done; have := h t.err; have := h t.short; have := h t.found
  unfold flagBits; omega

/-- Bits 7:0 of the word of STATUS are the flags, the bits above them ECODE (R24). -/
theorem statusWord_getLsbD (t : Status) (b : Nat) :
    (statusWord t).getLsbD b = if b < 8 then (flagBits t).testBit b else t.ecode.getLsbD (b - 8) := by
  have hf := flagBits_lt t
  have he := t.ecode.isLt
  have hw : statusWord t = BitVec.ofNat 32 (2 ^ 8 * t.ecode.toNat + flagBits t) := by
    unfold statusWord flagBits; congr 1; omega
  rw [hw, BitVec.getLsbD_ofNat, Nat.testBit_two_pow_mul_add _ (by omega)]
  by_cases hb : b < 32
  · rw [decide_eq_true hb, Bool.true_and]; rfl
  · rw [decide_eq_false hb, Bool.false_and, if_neg (by omega), BitVec.getLsbD_of_ge _ _ (by omega)]

theorem flagBits_testBit (t : Status) :
    (flagBits t).testBit 0 = t.busy ∧ (flagBits t).testBit 1 = t.done ∧ (flagBits t).testBit 2 = t.err ∧
      (flagBits t).testBit 3 = t.short ∧ (flagBits t).testBit 4 = t.found := by
  obtain ⟨busy, done, err, short, found, ecode⟩ := t
  simp only [flagBits]
  clear ecode
  revert busy done err short found
  decide

/-! ### The invariant -/

/-- Parameters that meet R6 and R121 give the invariant right after reset (R58, R280). -/
theorem inv_resetOf (c : Config) (d : Nat) (h : c.wf = true) : (State.resetOf c d).Inv where
  cfgWf := h
  romImage := rfl
  inWf := unspecified_wf d
  outWf := unspecified_wf d
  inWithin := unspecified_within d _
  outWithin := unspecified_within d _
  errIff := rfl
  ecodeLe := Nat.zero_le 9
  busyNotDone _ := rfl
  errNoFlags _ := ⟨rfl, rfl⟩
  ctrlReserved := (by decide : (0 : Word).toNat < 2)
  yccReserved := (by decide : (0 : Word).toNat < 2 ^ 24)
  rgbReserved := (by decide : (0 : Word).toNat < 2 ^ 24)
  unitIdle := rfl
  erasDrawn := ⟨Nat.lt_succ_self d, Nat.lt_succ_self d⟩

/-- A masked register keeps its reserved bits 0 (R27, R37). -/
theorem toNat_and_lt (v m : Word) (n : Nat) (h : m.toNat < n) : (v &&& m).toNat < n := by
  rw [BitVec.toNat_and]
  exact Nat.lt_of_le_of_lt Nat.and_le_right h

/-- The host's own fields are not the block's. -/
theorem inv_host (h : s.Inv) (rest : List HostEvent) (r : Option Word) :
    State.Inv { s with host := rest, reply := r } :=
  { h with }

theorem inv_writeReg (h : s.Inv) (v : Word) (r : RegName) : (s.writeReg v r).Inv := by
  cases r with
  | cmd => exact { h with busyNotDone := fun _ => rfl }
  | status =>
    rw [writeReg_status]
    exact { h with busyNotDone := fun hb => by simp [h.busyNotDone hb] }
  | ctrl => exact { h with ctrlReserved := toNat_and_lt v 1 2 (by decide) }
  | ycc => exact { h with yccReserved := toNat_and_lt v 0x00FFFFFF _ (by decide) }
  | _ => exact { h with }

/-- Whatever the host does, the invariant is kept. -/
theorem inv_hostEffect (h : s.Inv) (he : HostEffect s t) : t.Inv := by
  obtain ⟨hin, hout⟩ := h.erasDrawn
  cases he with
  | heard r => exact inv_host h s.host r
  | wrote r v reg => exact inv_writeReg (inv_host h s.host r) v reg
  | stored r a bs hb =>
    exact { h with
      inWf := putBytes_wf _ _ _ h.inWf
      inWithin := putBytes_within _ _ _ _ h.inWithin hb
      erasDrawn := ⟨by rw [putBytes_era]; exact hin, hout⟩ }
  | polled r => exact { h with erasDrawn := ⟨Nat.lt_succ_of_lt hin, Nat.lt_succ_of_lt hout⟩ }
  | reset => exact { inv_resetOf s.cfg s.draws h.cfgWf with }

/-- STATUS as a command's end writes it meets the invariant's conditions (R24, R25, R241). -/
theorem inv_endStatus (h : s.Inv) (e : BitVec 4) (sh fo : Bool) (he : e.toNat ≤ 9)
    (hflags : e ≠ 0 → sh = false ∧ fo = false) : State.Inv { s with status := endStatus e sh fo } :=
  { h with
    errIff := rfl
    ecodeLe := he
    busyNotDone := fun hb => nomatch hb
    errNoFlags := fun herr => hflags (bne_iff_ne.1 herr) }

/-- No command writes YCC (R30). -/
theorem writtenRegs_ycc (i : Instr) (s t : State) : (writtenRegs i s t).ycc = s.regs.ycc := by cases i <;> rfl

theorem inv_exec {i : Instr} (h : s.Inv) (hx : exec i s = .next t) : t.Inv := by
  obtain ⟨u, e, sh, fo, ends⟩ := exec_ends i s
  obtain ⟨f, ok, rfl, -⟩ := exec_effect hx
  have hout := exec_outKept i s _ hx
  have hstatus : f.status = endStatus e sh fo := by
    have := hx.symm.trans ends.next
    injection this with this
    exact congrArg State.status this
  have hycc : f.regs.ycc = s.regs.ycc := by rw [← ok.regs, writtenRegs_ycc]
  have hkept : State.Inv { f.apply s with status := s.status } :=
    { h with
      outWf := hout.wf h.outWf
      outWithin := hout.within h.outWithin
      yccReserved := (congrArg BitVec.toNat hycc).trans_lt h.yccReserved
      rgbReserved := hout.rgb h.rgbReserved
      unitIdle := rfl
      erasDrawn := ⟨Nat.lt_of_lt_of_le h.erasDrawn.1 hout.draws, hout.era h.erasDrawn.2⟩ }
  have := inv_endStatus hkept e sh fo (Nat.le_succ_of_le ends.code) ends.noFlags
  rwa [← hstatus] at this

theorem inv_runCommand (h : s.Inv) (hr : runCommand s = .next t) : t.Inv := by
  rcases runCommand_cases s with ⟨i, hi⟩ | hi
  · exact inv_exec h (hi.symm.trans hr)
  · cases hi.symm.trans hr
    exact { inv_endStatus h (errorCode .illegalCommand) false false (errorCode_le _) (fun _ => ⟨rfl, rfl⟩) with
      unitIdle := rfl }

theorem hostEffect_cfg (h : HostEffect s t) : t.cfg = s.cfg := by
  cases h with
  | wrote r v reg => rw [writeReg_cfg]
  | _ => rfl

theorem step_cfg (h : step s = .next t) : t.cfg = s.cfg := by
  rcases step_cases h with ⟨-, hr⟩ | ⟨rest, he⟩
  · exact (runCommand_frame hr).1
  · have := hostEffect_cfg he
    exact this

end Steps

/-! ### The statements about steps -/

/-- Settles O52: the engine's turn keeps the invariant, and so does every host event. -/
theorem stepKeepsInvariant : Obligations.StepKeepsInvariant := by
  intro s t h hs
  rcases step_cases hs with ⟨-, hr⟩ | ⟨rest, he⟩
  · exact inv_runCommand h hr
  · exact inv_hostEffect (inv_host h rest s.reply) he

/-- Settles O53: the parameters never change, and the invariant ties the ROM to them before and after. -/
theorem romNeverChanges : Obligations.RomNeverChanges := by
  intro s t h hs
  have hcfg := step_cfg hs
  exact ⟨by rw [(stepKeepsInvariant s t h hs).romImage, h.romImage, hcfg], hcfg⟩

/-- Settles O51: the standard parameters meet R6 and R121. -/
theorem invariantHoldsAtReset : Obligations.InvariantHoldsAtReset :=
  inv_resetOf standardConfig 0 (by decide)

/-- Settles O50: each value of the reset state is the one R58 gives. -/
theorem firstStateIsAfterReset : Obligations.FirstStateIsAfterReset :=
  ⟨rfl, rfl, rfl, rfl, rfl, rfl, rfl, fun _ => ⟨rfl, rfl⟩, rfl, rfl⟩

/-- Settles O4: the engine's turn is the decoded command's. -/
theorem stepRunsDecodedCommand : Obligations.StepRunsDecodedCommand := fun s _ hturn hdec =>
  (step_of_engineTurn s hturn).trans (runCommand_of_decode hdec)

/-- Settles O5: the write is `startCommand`, after which the engine has the turn. -/
theorem cmdWriteStartsCommand : Obligations.CmdWriteStartsCommand := by
  intro s w rest h
  refine ⟨_, step_write_register .cmd w h, rfl, fun i hlate hw => ?_⟩
  refine stepRunsDecodedCommand _ i ?_ (by subst hw; exact decode_encode i)
  cases rest with
  | nil => rfl
  | cons ev tl => exact congrArg (!·) (hlate ev tl rfl)

/-- Settles O36: the table's row is a register's offset and value. -/
theorem hostReadsRegister : Obligations.HostReadsRegister := by
  intro s off v rest hmem h
  rw [registerValues_eq, List.mem_map] at hmem
  obtain ⟨r, -, hr⟩ := hmem
  cases hr
  exact step_read_register r h

/-- Settles O37: the word of STATUS bit by bit, and the number of entries. -/
theorem statusAndNregReadAsSpecified : Obligations.StatusAndNregReadAsSpecified := by
  refine fun s rest => ⟨fun h => ⟨_, step_read_register .status h, ?_, fun b hb => ?_, fun b hb => ?_⟩,
    fun h => step_read_register .nreg h⟩ <;> simp only [State.readReg, statusWord_getLsbD]
  · exact flagBits_testBit s.status
  · rw [if_neg (by omega), Nat.add_sub_cancel_left]
  · by_cases h8 : b < 8
    · rw [if_pos h8]
      exact Nat.testBit_lt_two_pow (Nat.lt_of_lt_of_le (flagBits_lt _) (Nat.pow_le_pow_right (by decide) (by omega)))
    · rw [if_neg h8, BitVec.getLsbD_of_ge _ _ (by omega)]

/-- Settles O38: the table's row is a register's offset and the state its write leaves. -/
theorem hostWritesRegister : Obligations.HostWritesRegister := by
  intro s t off v rest hmem h
  rw [registerWrites_eq, List.mem_map] at hmem
  obtain ⟨r, hplain, hr⟩ := hmem
  cases hr
  rw [step_write_register r v h, writeReg_host s v r rest hplain]

/-- Settles O39: a STATUS write is the acknowledgement or nothing. -/
theorem statusWriteClearsDoneOnly : Obligations.StatusWriteClearsDoneOnly := by
  intro s v rest h
  rw [step_write_register .status v h, writeReg_status]

/-- Settles O40: no register and no memory serves such an access. -/
theorem reservedAndUnmappedOffsets : Obligations.ReservedAndUnmappedOffsets := by
  intro s w n off v rest _ hw hoff
  have hroute : route s.cfg n off = .unmapped ∨ ∃ o, route s.cfg n off = .register o ∧ regAt o = none := by
    rcases hoff with ⟨rfl, hlo, hhi, h4⟩ | hun
    · exact .inr ⟨off, route_register s.cfg off (by omega) h4, regAt_reserved off hlo⟩
    · exact .inl (route_unmapped s.cfg n off fun k hk => locate_unmapped s _ (hun k hk))
  obtain ⟨hread, hwrite⟩ := hostAccess_unserved { s with host := rest } n off v hroute
  obtain rfl := widthBytes_of_mem w n hw
  exact ⟨fun h => (step_of_idleEvent s _ _ h).trans hread, fun h => (step_of_idleEvent s _ _ h).trans hwrite⟩

/-- Settles O47: idle or busy, the reset event is `resetBlock`. -/
theorem resetRestoresInitialState : Obligations.ResetRestoresInitialState := by
  intro s rest h
  have hs : step s = .next (State.resetBlock { s with host := rest }) :=
    h.elim (step_of_idleEvent s _ _) (step_of_busyEvent s _ _)
  exact ⟨_, hs, rfl, rfl, rfl, Bool.and_false _, rfl, rfl, rfl, rfl, fun _ => ⟨rfl, rfl⟩, rfl, rfl⟩

/-- Settles O48: an idle step with no host event is the state itself. -/
theorem idleBlockWaits : Obligations.IdleBlockWaits := fun _ hidle hhost =>
  step_of_waiting hidle hhost

/-- Settles O49: a command's end sets DONE and keeps CTRL; the CMD write and the acknowledgement clear DONE. -/
theorem interruptFollowsCompletion : Obligations.InterruptFollowsCompletion := by
  intro s t rest w h
  refine ⟨fun hturn => ?_, fun hcmd => ?_, fun hack => ?_⟩
  · obtain ⟨-, hctrl, hdone⟩ := runCommand_frame ((step_of_engineTurn s hturn).symm.trans h)
    rw [State.irq, hctrl, hdone, Bool.and_true]
  · cases (step_write_register .cmd w hcmd).symm.trans h
    exact Bool.and_false _
  · cases (step_write_register .status 2 hack).symm.trans h
    exact Bool.and_false _

end Sys2Proof.Machine
end

section
/-! SUPPORT. How the host's accesses to ROM, IN and OUT are served, step by step. Then the statements about them: O41 to
O45. -/

namespace Sys2Proof.Machine

open Spec

section HostMemory

variable {s : State} {rest : List HostEvent} {sp : Space} {off a : Nat}

/-! ### The window of each memory -/

/-- The statements' window is the model's: each row is a space other than REGS (R60). -/
theorem memoryWindow_space {base size : Nat} {rd : Nat → Byte} (h : (base, size, rd) ∈ memoryWindow s) :
    ∃ sp, sp ≠ .regs ∧ spaceWindow s.cfg sp = (base, size) ∧ s.spaceByte sp = rd := by
  have hmap : memoryWindow s = [Space.rom, .input, .output].map fun sp =>
    ((spaceWindow s.cfg sp).1, (spaceWindow s.cfg sp).2, s.spaceByte sp) := rfl
  rw [hmap, List.mem_map] at h
  obtain ⟨sp, hsp, he⟩ := h
  cases he
  exact ⟨sp, fun hr => absurd hsp (by rw [hr]; decide), rfl, rfl⟩

theorem spaceByte_host (sp : Space) : State.spaceByte { s with host := rest } sp = s.spaceByte sp := by
  cases sp <;> rfl

/-- Every space starts at a multiple of every access width, so alignment in it is alignment in the window. -/
theorem spaceWindow_base_aligned (c : Config) (sp : Space) (w : Width) : (spaceWindow c sp).1 % widthBytes w = 0 := by
  have hwidth : widthBytes w ∣ 4 := by cases w <;> decide
  have hbase : 4 ∣ (spaceWindow c sp).1 := by
    cases sp with
    | regs => show 4 ∣ 0; decide
    | rom => show 4 ∣ 0x1000; decide
    | input => show 4 ∣ 0x1000000; decide
    | output => show 4 ∣ 0x2000000; decide
  exact Nat.mod_eq_zero_of_dvd (hwidth.trans hbase)

/-- A naturally aligned access inside ROM, IN or OUT is served by bytes (R64). -/
theorem route_inside {c : Config} (hwf : c.wf = true) (hsp : sp ≠ .regs) (w : Width) (halign : a % widthBytes w = 0)
    (hend : a + widthBytes w ≤ (spaceWindow c sp).2) :
    route c (widthBytes w) ((spaceWindow c sp).1 + a) = .bytes sp a := by
  have hpos := widthBytes_pos w
  rw [route_memory c hwf _ sp a hpos hsp (by omega) (spaceWindow_base_aligned c sp w), if_pos ⟨halign, hend⟩]

/-- An access to ROM, IN or OUT that is misaligned or crosses the end is outside the contract (R64, U9). -/
theorem route_outside {c : Config} (hwf : c.wf = true) (hsp : sp ≠ .regs) (w : Width) (ha : a < (spaceWindow c sp).2)
    (hbad : a % widthBytes w ≠ 0 ∨ (spaceWindow c sp).2 < a + widthBytes w) :
    route c (widthBytes w) ((spaceWindow c sp).1 + a) = .refused .hostWideAccess := by
  rw [route_memory c hwf _ sp a (widthBytes_pos w) hsp ha (spaceWindow_base_aligned c sp w), if_neg (by omega)]

/-! ### One idle step, the route of its access given -/

/-- The word a read of `n` bytes from address `a` of a memory returns (R64). -/
def State.bytesWord (s : State) (sp : Space) (a n : Nat) : Word :=
  leWord ((List.range n).map fun i => s.spaceByte sp (a + i))

theorem hostReadValue_bytes {n : Nat} (hr : route s.cfg n off = .bytes sp a) :
    s.hostReadValue n off = .ok (s.bytesWord sp a n) := by
  unfold State.hostReadValue State.bytesWord; rw [hr]

/-- A write served by bytes stores them in IN; ROM and OUT ignore it (R60). -/
theorem hostWrite_bytes {n : Nat} (v : Word) (hr : route s.cfg n off = .bytes sp a) :
    hostWrite n off v s =
      .next (if sp = .input then { s with inMem := s.inMem.putBytes a (leBytes v n) } else s) := by
  unfold hostWrite
  rw [hr]
  cases sp <;> rfl

theorem step_read_bytes {w : Width} (hr : route s.cfg (widthBytes w) off = .bytes sp a)
    (h : s.idleEvent (.read w off) rest) :
    step s = .next { s with host := rest, reply := some (s.bytesWord sp a (widthBytes w)) } := by
  rw [step_of_idleEvent s _ _ h]
  simp only [hostIdle, hostRead, hostReadValue_bytes (s := { s with host := rest }) hr, State.bytesWord, spaceByte_host]

theorem step_write_bytes {w : Width} {v : Word} (hr : route s.cfg (widthBytes w) off = .bytes sp a)
    (h : s.idleEvent (.write w off v) rest) :
    step s = .next (if sp = .input then
      { s with host := rest, inMem := s.inMem.putBytes a (leBytes v (widthBytes w)) } else { s with host := rest }) :=
  (step_of_idleEvent s _ _ h).trans (hostWrite_bytes (s := { s with host := rest }) v hr)

/-- An access that the route refuses is refused, a read as well as a write (U9). -/
theorem step_refused {w : Width} {why : Refusal} (v : Word) (hr : route s.cfg (widthBytes w) off = .refused why) :
    (s.idleEvent (.read w off) rest → step s = .refused why) ∧
      (s.idleEvent (.write w off v) rest → step s = .refused why) := by
  constructor <;> intro h <;> rw [step_of_idleEvent s _ _ h]
  · simp only [hostIdle, hostRead, State.hostReadValue, hr]
  · simp only [hostIdle, hostWrite, hr]

/-! ### The bytes of a word -/

theorem byteOf_toNat (v : Word) (k : Nat) : (byteOf v k).toNat = v.toNat / 256 ^ k % 256 := by
  rw [byteOf, BitVec.toNat_ofNat, Nat.shiftRight_eq_div_pow, Nat.pow_mul]

/-- Up to four bytes fit a word: it is their little-endian number (R13, R64). -/
theorem leWord_toNat (l : List Byte) (h : l.length ≤ 4) : (leWord l).toNat = leNat l := by
  have hlt : leNat l < 2 ^ 32 := Nat.lt_of_lt_of_le (leNat_lt l) (Nat.pow_le_pow_right (by decide) h)
  rw [leWord, BitVec.toNat_ofNat, Nat.mod_eq_of_lt hlt]

theorem bytesWord_lt (s : State) (sp : Space) (a n : Nat) (hn : n ≤ 4) :
    (s.bytesWord sp a n).toNat < 256 ^ n := by
  have := leNat_lt ((List.range n).map fun i => s.spaceByte sp (a + i))
  rw [List.length_map, List.length_range] at this
  rwa [State.bytesWord, leWord_toNat _ (by simpa using hn)]

/-- Digit `k` to the base 256 of the word read is the byte at `a + k` (R13, R64). -/
theorem bytesWord_digit (s : State) (sp : Space) (a n k : Nat) (hn : n ≤ 4) (hk : k < n) :
    (s.bytesWord sp a n).toNat / 256 ^ k % 256 = (s.spaceByte sp (a + k)).toNat := by
  rw [State.bytesWord, leWord_toNat _ (by simpa using hn), leNat_digit _ k (by simpa using hk)]
  simp [List.getD_eq_getElem?_getD, hk]

/-- A byte read and written back is the same byte: the word is its zero extension (R64). -/
theorem leBytes_bytesWord_one (s : State) (sp : Space) (a : Nat) :
    leBytes (s.bytesWord sp a 1) 1 = [s.spaceByte sp a] := by
  have h := bytesWord_digit s sp a 1 0 (by decide) (by decide)
  rw [← byteOf_toNat] at h
  exact congrArg (fun b => [b]) (BitVec.eq_of_toNat_eq h)

theorem widthBytes_le_four (w : Width) : widthBytes w ≤ 4 := by cases w <;> decide

/-! ### The host's copy -/

theorem hostMove_of_read {dst src : Nat} {v : Word} (h : s.hostReadValue 1 src = .ok v) :
    hostMove dst src s = hostWrite 1 dst v { s with reply := some v } := by
  unfold hostMove; rw [h]

/-- The copy of one byte of OUT into IN, both inside their memories (R78, R101). -/
theorem hostMove_out_in {d x : Nat} (hwf : s.cfg.wf = true) (hd : d < s.cfg.inSize) (hx : x < s.cfg.outSize) :
    hostMove (0x1000000 + d) (0x2000000 + x) s = .next { s with
      reply := some (s.bytesWord .output x 1), inMem := s.inMem.putBytes d [s.outByte x] } := by
  have hsrc : route s.cfg 1 (0x2000000 + x) = .bytes .output x :=
    route_inside hwf (sp := .output) (by decide) .byte (Nat.mod_one x) hx
  have hdst : route s.cfg 1 (0x1000000 + d) = .bytes .input d :=
    route_inside hwf (sp := .input) (by decide) .byte (Nat.mod_one d) hd
  have hwrite := hostWrite_bytes (s := { s with reply := some (s.bytesWord .output x 1) })
    (s.bytesWord .output x 1) hdst
  rw [hostMove_of_read (hostReadValue_bytes hsrc), hwrite, if_pos rfl, leBytes_bytesWord_one]
  rfl

end HostMemory

/-! ### The statements about host accesses to memory -/

/-- Settles O41: the access is served by bytes, and the word read has them as its digits. -/
theorem hostReadsMemoryLittleEndian : Obligations.HostReadsMemoryLittleEndian := by
  intro s w n base size a rd rest hwf hw hmem halign hend h
  obtain rfl := widthBytes_of_mem w n hw
  obtain ⟨sp, hsp, hwin, rfl⟩ := memoryWindow_space hmem
  have hroute := route_inside hwf hsp w halign (by rw [hwin]; exact hend)
  rw [hwin] at hroute
  exact ⟨_, step_read_bytes hroute h, bytesWord_lt s sp a _ (widthBytes_le_four w),
    fun k hk => bytesWord_digit s sp a _ k (widthBytes_le_four w) hk⟩

/-- Settles O42: the access is served by bytes, and IN reads back what was put there. -/
theorem hostWritesInput : Obligations.HostWritesInput := by
  intro s w n a v rest hwf hw halign hend h
  obtain rfl := widthBytes_of_mem w n hw
  have hroute : route s.cfg (widthBytes w) (0x1000000 + a) = .bytes .input a :=
    route_inside hwf (sp := .input) (by decide) w halign hend
  have hin := fun x => inByte_putBytes { s with host := rest } a x (leBytes v (widthBytes w))
  simp only [leBytes_length] at hin
  refine ⟨_, step_write_bytes hroute h, rfl, fun k hk => ?_, fun x hx => ?_⟩
  · refine (congrArg BitVec.toNat (hin (a + k))).trans ?_
    rw [if_pos (by omega), Nat.add_sub_cancel_left, leBytes_getD v _ k hk, byteOf_toNat]
  · exact (hin x).trans (if_neg (by omega))

/-- Settles O43: the access is served by bytes, of a memory that ignores writes. -/
theorem hostWritesToRomAndOutIgnored : Obligations.HostWritesToRomAndOutIgnored := by
  intro s w n base size a v rest hwf hw hmem halign hend h
  obtain rfl := widthBytes_of_mem w n hw
  rcases hmem with ⟨rfl, rfl⟩ | ⟨rfl, rfl⟩
  · exact step_write_bytes (route_inside hwf (sp := .rom) (by decide) w halign hend) h
  · exact step_write_bytes (route_inside hwf (sp := .output) (by decide) w halign hend) h

/-- Settles O44: the byte read from OUT is the byte put into IN. -/
theorem hostCopiesOutToIn : Obligations.HostCopiesOutToIn := by
  intro s d x rest hwf hd hx h
  have hin := fun a => inByte_putBytes { s with host := rest } d a [s.outByte x]
  have hmove := hostMove_out_in (s := { s with host := rest }) hwf hd hx
  refine ⟨_, (step_of_idleEvent s _ _ h).trans hmove, rfl, ?_, fun a ha => ?_⟩
  · refine (hin d).trans ?_
    rw [if_pos (by simp), Nat.sub_self]; rfl
  · exact (hin a).trans (if_neg (by simp only [List.length_singleton]; omega))

/-- Settles O45: both kinds of access are refused by their route. -/
theorem accessesOutsideContractRefused : Obligations.AccessesOutsideContractRefused := by
  intro s w n v rest hwf hw
  obtain rfl := widthBytes_of_mem w n hw
  refine ⟨fun off hoff hbad => step_refused v ?_, fun base size rd a hmem ha hbad => step_refused v ?_⟩
  · rw [route_regs s.cfg _ off (widthBytes_pos w) hoff, if_neg (by omega)]
  · obtain ⟨sp, hsp, hwin, -⟩ := memoryWindow_space hmem
    have hroute := route_outside hwf hsp w (by rw [hwin]; exact ha) (by rw [hwin]; exact hbad)
    rwa [hwin] at hroute

end Sys2Proof.Machine
end

section
/-! SUPPORT. What a command's end owes to IN: another IN that agrees on the bytes the command may read gives the same
end. Then the statement that says so: O34. -/

namespace Sys2Proof.Machine

open Spec

/-- `s` with other contents of IN. -/
def State.withIn (s : State) (m : Memory) : State := { s with inMem := m }

/-- The same end of a step, with other contents of IN. -/
def outcomeWithIn (m : Memory) : Host.Outcome State Fault Refusal → Host.Outcome State Fault Refusal
  | .next t => .next (t.withIn m)
  | .fault r => .fault r
  | .refused r => .refused r

/-- The command `c` ends alike from `s` whether IN is as it is or `m`. -/
def IgnoresIn (m : Memory) (s : State) (c : State → Host.Outcome State Fault Refusal) : Prop :=
  c (s.withIn m) = outcomeWithIn m (c s)

/-- Equal bytes of IN one by one are equal runs of bytes. -/
theorem inBytes_eq_of_inByte_eq (s s' : State) (a n : Nat) (h : ∀ k, k < n → s'.inByte (a + k) = s.inByte (a + k)) :
    s'.inBytes a n = s.inBytes a n := by
  refine List.ext_getElem? fun k => ?_
  rw [inBytes_getElem?, inBytes_getElem?]
  by_cases hk : k < n
  · rw [if_pos hk, if_pos hk, h k hk]
  · rw [if_neg hk, if_neg hk]

section OtherIn

variable {s : State} {m : Memory}

@[simp] theorem withIn_cfg : (s.withIn m).cfg = s.cfg := rfl
@[simp] theorem withIn_regs : (s.withIn m).regs = s.regs := rfl
@[simp] theorem withIn_outMem : (s.withIn m).outMem = s.outMem := rfl
@[simp] theorem withIn_textTooLong : (s.withIn m).textTooLong = s.textTooLong := rfl
@[simp] theorem withIn_geometry (f : Format) : (s.withIn m).geometry f = s.geometry f := rfl

/-! ### The text commands -/

/-- The text lies in the window that the text commands may read (R34, R283). -/
theorem withIn_text
    (h : ∀ a, s.regs.tpos.toNat ≤ a ∧ a < s.regs.tend.toNat → (s.withIn m).inByte a = s.inByte a) :
    (s.withIn m).text = s.text :=
  inBytes_eq_of_inByte_eq s (s.withIn m) _ _ fun k hk => h _ (by simp only [u32, withIn_regs] at hk ⊢; omega)

variable (m) in
theorem ignoresIn_takeNumber (s : State) (t : List Byte) : IgnoresIn m s (takeNumber t) := by
  rw [IgnoresIn, takeNumber_next, takeNumber_next]; rfl

variable (m) in
theorem ignoresIn_takeName (s : State) (t : List Byte) : IgnoresIn m s (takeName t) := by
  have hlook : (s.withIn m).lookupName (nameToken t) = s.lookupName (nameToken t) := rfl
  unfold IgnoresIn takeName
  rw [hlook]
  cases s.lookupName (nameToken t) <;> rfl

theorem ignoresIn_parseToken (onName : List Byte → State → Host.Outcome State Fault Refusal)
    (htext : (s.withIn m).text = s.text) (hname : ∀ t, IgnoresIn m s (onName t)) :
    IgnoresIn m s (parseToken onName) := by
  unfold IgnoresIn parseToken
  rw [htext, withIn_textTooLong]
  cases s.textTooLong with
  | true => rfl
  | false =>
    cases s.text with
    | nil => rfl
    | cons b t =>
      cases hw : isWord b with
      | false => simp only [hw]; rfl
      | true =>
        cases hd : isDigit b with
        | true => simpa [IgnoresIn, hw, hd] using ignoresIn_takeNumber m s (b :: t)
        | false => simpa [IgnoresIn, hw, hd] using hname (b :: t)

theorem ignoresIn_lkname (htext : (s.withIn m).text = s.text) : IgnoresIn m s execLkname := by
  unfold IgnoresIn execLkname
  rw [withIn_textTooLong, htext, apply_ite (outcomeWithIn m)]
  rfl

theorem ignoresIn_hexdec (htext : (s.withIn m).text = s.text) : IgnoresIn m s execHexdec := by
  unfold IgnoresIn execHexdec
  rw [withIn_textTooLong, htext]
  cases s.textTooLong with
  | true => rfl
  | false =>
    simp only [withIn_cfg, withIn_regs, withIn_outMem, setUnit_read_hex]
    cases hexLoop s.cfg.outSize s.text (hexStart (u32 s.regs.tpos)) s.outMem <;> rfl

/-! ### The conditioned source -/

/-- The conditioned read looks at IN below its limit only (R66). -/
theorem withIn_srcRead {lim : Nat} (h : ∀ a, a < lim → (s.withIn m).inByte a = s.inByte a) (a : Nat) :
    (s.withIn m).srcRead lim a = s.srcRead lim a := by
  unfold State.srcRead
  by_cases ha : a < lim
  · rw [if_pos ha, if_pos ha, h a ha]
  · rw [if_neg ha, if_neg ha]

theorem ignoresIn_cond
    (h : ∀ a, a < min s.regs.slen.toNat s.regs.rlen.toNat → (s.withIn m).inByte a = s.inByte a) :
    IgnoresIn m s execCond := by
  have hsrc : (s.withIn m).srcRead (min (u32 s.regs.slen) (u32 s.regs.rlen)) = s.srcRead _ := funext (withIn_srcRead h)
  unfold IgnoresIn execCond
  simp only [withIn_cfg, withIn_regs, withIn_outMem, hsrc, apply_ite (outcomeWithIn m)]
  rfl

theorem ignoresIn_decode
    (h : ∀ f, ({ id := s.regs.fmt, name := formatName f } : Entry) ∈ s.cfg.registry →
      ∀ a, a < min s.regs.slen.toNat (reqOf s f) → (s.withIn m).inByte a = s.inByte a) :
    IgnoresIn m s execDecode := by
  unfold IgnoresIn
  cases hf : formatOf s.cfg s.regs.fmt with
  | none =>
    unfold execDecode
    rw [hf, show formatOf (s.withIn m).cfg (s.withIn m).regs.fmt = none from hf]; rfl
  | some f =>
    have hsrc : ∀ a, (s.withIn m).srcRead (s.geometry f).lim a = s.srcRead (s.geometry f).lim a :=
      withIn_srcRead (by rw [geometry_eq]; exact h f (formatOf_mem _ _ _ hf))
    have hscan : ∀ n out, scanLoop f (s.withIn m) (s.geometry f) n (pxdStart f) out =
        scanLoop f s (s.geometry f) n (pxdStart f) out := fun n out =>
      scanLoop_congr f s (s.withIn m) (s.geometry f) n 0 out fun _ _ _ => pixelOf_congr f s _ _ _ hsrc rfl
    have hframe : scanFrame f (s.withIn m) (s.geometry f) = (scanFrame f s (s.geometry f)).withIn m := by
      simp only [scanFrame, setUnit_read_pxd, withIn_outMem, hscan]; rfl
    rw [execDecode_of_format s f hf, execDecode_of_format (s.withIn m) f hf, withIn_geometry, hframe,
      apply_ite (outcomeWithIn m), apply_ite (outcomeWithIn m)]
    rfl

/-! ### 10-bit samples -/

/-- Both bytes of sample `k` lie in its row of `rw` bytes (R222). -/
theorem sample_bytes_in_row (rw k : Nat) (hk : k < sampleWidth rw) : 10 * k / 8 + 1 < rw := by
  unfold sampleWidth at hk; omega

/-- A sample of a row of the source looks at the bytes of that row only (R222, R283). -/
theorem withIn_sample {rw rc : Nat} (h : ∀ a, a < rw * rc → (s.withIn m).inByte a = s.inByte a) (r k : Nat)
    (hr : r < rc) (hk : k < sampleWidth rw) : (s.withIn m).sample (r * rw) k = s.sample (r * rw) k := by
  have hrow := sample_bytes_in_row rw k hk
  have hend : r * rw + rw ≤ rw * rc := by
    rw [← Nat.succ_mul, Nat.mul_comm rw]; exact Nat.mul_le_mul_right rw hr
  simp only [State.sample, h (r * rw + 10 * k / 8) (by omega), h (r * rw + 10 * k / 8 + 1) (by omega)]

/-- The sample steps of the whole raster look at the source only. -/
theorem withIn_unpkLoop {rw rc : Nat} (h : ∀ a, a < rw * rc → (s.withIn m).inByte a = s.inByte a) (out : Memory) :
    unpkLoop (s.withIn m) rw (sampleWidth rw) (rc * sampleWidth rw) { r := 0, k := 0 } out =
      unpkLoop s rw (sampleWidth rw) (rc * sampleWidth rw) { r := 0, k := 0 } out := by
  rcases Nat.eq_zero_or_pos (sampleWidth rw) with h0 | hpos
  · rw [h0]; rfl
  · have := unpkLoop_congr s (s.withIn m) rw (sampleWidth rw) (rc * sampleWidth rw) 0 out hpos fun k _ hk =>
      withIn_sample h _ _ (Nat.div_lt_of_lt_mul (by rw [Nat.mul_comm]; omega)) (Nat.mod_lt k hpos)
    rwa [unpkAt, Nat.zero_div, Nat.zero_mod] at this

theorem ignoresIn_unpk10
    (h : ∀ a, a < s.regs.roww.toNat * s.regs.rowc.toNat → (s.withIn m).inByte a = s.inByte a) :
    IgnoresIn m s execUnpk10 := by
  have hloop := withIn_unpkLoop (rw := u32 s.regs.roww) (rc := u32 s.regs.rowc) h s.outMem
  unfold IgnoresIn execUnpk10
  simp only [withIn_cfg, withIn_regs, withIn_outMem, setUnit_read_unpk, hloop, apply_ite (outcomeWithIn m)]
  rfl

/-! ### Every command -/

/-- Every command ends alike from two contents of IN that agree on the bytes it may read (R61, R283). -/
theorem exec_ignoresIn (i : Instr) (h : ∀ a, ReadsIn i s a → (s.withIn m).inByte a = s.inByte a) :
    IgnoresIn m s (exec i) := by
  cases i with
  | parseN => exact ignoresIn_parseToken (fun _ t => raise t .numericOnlyExpected) (withIn_text h) fun _ => rfl
  | parseR => exact ignoresIn_parseToken _ (withIn_text h) (ignoresIn_takeName m s)
  | lkname => exact ignoresIn_lkname (withIn_text h)
  | lkid => rfl
  | cond => exact ignoresIn_cond h
  | hexdec => exact ignoresIn_hexdec (withIn_text h)
  | unpk10 => exact ignoresIn_unpk10 h
  | decode => exact ignoresIn_decode fun f hf a ha => h a ⟨f, hf, ha⟩
  | csc => rfl

end OtherIn

/-- Settles O34: the command's end is the same with the other IN in place. -/
theorem commandsReadOnlyTheirSource : Obligations.CommandsReadOnlyTheirSource := by
  intro i s t m h hx
  have := exec_ignoresIn (m := m) i h
  rw [IgnoresIn, hx] at this
  exact this

end Sys2Proof.Machine
end

section
/-! SUPPORT. Command words: the decoder against the encoder, and the words no command has. Then how the engine's turn
ends, and which steps are refused. Settles O1, O2, O3, O6 and O54. -/

namespace Sys2Proof.Machine

open Spec

/-! ### The decoder's table -/

/-- Every row of the command table holds its command's word (R90, R92). -/
theorem commandTable_words : ∀ row ∈ commandTable, row.1 = encode row.2 := by decide

theorem eq_encode_of_decode {w : Word} {i : Instr} (h : decode w = .ok i) : w = encode i := by
  unfold decode at h
  split at h
  next row hrow =>
    cases h
    have hword : (row.1 == w) = true := List.find?_some (p := fun row : Word × Instr => row.1 == w) hrow
    rw [← eq_of_beq hword, commandTable_words row (List.mem_of_find?_eq_some hrow)]
  next => cases h

/-- Settles O2: a row that is found holds its command's word, and every command's word is found. -/
theorem decodeAgreesWithEncode : Obligations.DecodeAgreesWithEncode := fun _ i =>
  ⟨eq_encode_of_decode, fun hw => hw ▸ decode_encode i⟩

/-- Settles O1: the nine words are the encodings of the nine commands. -/
theorem commandWordsDecode : Obligations.CommandWordsDecode :=
  ⟨decode_encode .parseN, decode_encode .parseR, decode_encode .lkname, decode_encode .lkid, decode_encode .cond,
    decode_encode .hexdec, decode_encode .unpk10, decode_encode .decode, decode_encode .csc⟩

/-! ### The fields of a word (R90) -/

/-- The bits R90 reserves: 7:4 and 31:9. -/
abbrev ReservedBit (b : Nat) : Prop := (4 ≤ b ∧ b ≤ 7) ∨ (9 ≤ b ∧ b ≤ 31)

theorem reservedField_getLsbD (w : Word) (b : Nat) :
    (reservedField w).getLsbD b = (w.getLsbD b && decide (ReservedBit b)) := by
  have mask : ∀ b < 32, (0xFFFFFEF0 : Word).getLsbD b = decide (ReservedBit b) := by decide
  rw [reservedField, BitVec.getLsbD_and]
  by_cases hb : b < 32
  · rw [mask b hb]
  · rw [BitVec.getLsbD_of_ge w b (by omega), Bool.false_and, Bool.false_and]

theorem reservedField_eq_zero_iff (w : Word) :
    reservedField w = 0 ↔ ¬ ∃ b, ReservedBit b ∧ w.getLsbD b = true := by
  constructor
  · rintro h0 ⟨b, hres, hbit⟩
    have := reservedField_getLsbD w b
    simp [h0, hres, hbit] at this
  · intro hnone
    refine BitVec.eq_of_getLsbD_eq fun b _ => ?_
    rw [reservedField_getLsbD]
    refine Eq.trans (Bool.eq_false_iff.2 fun hbit => ?_) BitVec.getLsbD_zero.symm
    rw [Bool.and_eq_true, decide_eq_true_iff] at hbit
    exact hnone ⟨b, hbit.2, hbit.1⟩

/-- OP laid out again holds bits 3:0 of its word. -/
theorem opField_getLsbD (w : Word) {b : Nat} (hb : b < 32) :
    (BitVec.ofNat 32 (opField w)).getLsbD b = (decide (b < 4) && w.getLsbD b) := by
  rw [BitVec.getLsbD_ofNat, opField, Nat.testBit_mod_two_pow w.toNat 4 b, decide_eq_true hb, Bool.true_and,
    BitVec.getLsbD]

/-- REG laid out again holds its bit in place 8 only. -/
theorem regField_getLsbD (reg : Bool) (b : Nat) :
    (BitVec.ofNat 32 reg.toNat <<< 8).getLsbD b = (decide (b = 8) && reg) := by
  rw [BitVec.getLsbD_shiftLeft, BitVec.getLsbD_ofNat, Nat.testBit_bool_toNat]
  rcases Nat.lt_trichotomy b 8 with hlow | rfl | hhigh
  · simp [hlow, hlow.ne]
  · simp
  · simp [Nat.sub_ne_zero_of_lt hhigh, hhigh.ne']

/-- A word without reserved bits is its OP and its REG (R90). -/
theorem eq_fields_of_reservedField {w : Word} (h : reservedField w = 0) :
    w = BitVec.ofNat 32 (opField w) ||| (BitVec.ofNat 32 (w.getLsbD 8).toNat <<< 8) := by
  refine BitVec.eq_of_getLsbD_eq fun b hb => ?_
  rw [BitVec.getLsbD_or, opField_getLsbD w hb, regField_getLsbD]
  by_cases hres : ReservedBit b
  · have hclear : w.getLsbD b = false :=
      Bool.eq_false_iff.2 fun hbit => (reservedField_eq_zero_iff w).1 h ⟨b, hres, hbit⟩
    have : ¬ b < 4 ∧ b ≠ 8 := by unfold ReservedBit at hres; omega
    simp [hclear, this]
  · have : b < 4 ∨ b = 8 := by unfold ReservedBit at hres; omega
    rcases this with hlow | rfl
    · have : b ≠ 8 := by omega
      simp [hlow, this]
    · simp

/-- The commands' pairs of OP and REG: OP in 1 to 8, and REG set only beside OP 1 (R92). -/
theorem exists_opReg {op : Nat} {reg : Bool} (hlo : op ≠ 0) (hhi : op ≤ 8) (hreg : reg = true → op = 1) :
    ∃ i, opReg i = (op, reg.toNat) := by
  cases reg with
  | true => obtain rfl := hreg rfl; exact ⟨.parseR, rfl⟩
  | false =>
    have hlo := Nat.pos_of_ne_zero hlo
    interval_cases op
    exacts [⟨.parseN, rfl⟩, ⟨.lkname, rfl⟩, ⟨.lkid, rfl⟩, ⟨.cond, rfl⟩, ⟨.hexdec, rfl⟩, ⟨.unpk10, rfl⟩, ⟨.decode, rfl⟩,
      ⟨.csc, rfl⟩]

theorem encode_fields (i : Instr) : opField (encode i) ≠ 0 ∧ opField (encode i) ≤ 8 ∧ reservedField (encode i) = 0 ∧
    ((encode i).getLsbD 8 = true → opField (encode i) = 1) := by
  cases i <;> decide

/-- The command words, field by field (R90, R92). -/
theorem exists_encode_iff (w : Word) : (∃ i, w = encode i) ↔
    opField w ≠ 0 ∧ opField w ≤ 8 ∧ reservedField w = 0 ∧ (w.getLsbD 8 = true → opField w = 1) := by
  constructor
  · rintro ⟨i, rfl⟩
    exact encode_fields i
  · rintro ⟨hlo, hhi, h0, hreg⟩
    obtain ⟨i, hi⟩ := exists_opReg hlo hhi hreg
    refine ⟨i, ?_⟩
    rw [encode, hi]
    exact eq_fields_of_reservedField h0

/-! ### How the engine's turn ends -/

theorem runCommand_of_illegal {s : State} (h : ∀ i, s.cmd ≠ encode i) : runCommand s = .next (failed s 9) := by
  unfold runCommand
  cases hdec : decode s.cmd with
  | ok i => exact absurd (eq_encode_of_decode hdec) (h i)
  | illegal why => rfl

/-- Settles O3: the four classes are what `exists_encode_iff` leaves over, and the engine refuses such a word. -/
theorem illegalWordsEndWithIllegalCommand : Obligations.IllegalWordsEndWithIllegalCommand := by
  refine ⟨fun w => ?_, fun s hturn hcmd => (step_of_engineTurn s hturn).trans (runCommand_of_illegal hcmd)⟩
  rw [← not_exists, exists_encode_iff, reservedField_eq_zero_iff]
  simp only [not_and_or, not_not, Classical.not_imp, Nat.not_le]
  exact Iff.rfl

/-- Every word in CMD runs to an end: idle and done, nothing left in the units, IN as it was (R25, R94, R97). -/
theorem runCommand_ends (s : State) : ∃ t, runCommand s = .next t ∧
    t.status.busy = false ∧ t.status.done = true ∧ t.unit = .idle ∧ t.inMem = s.inMem := by
  rcases runCommand_cases s with ⟨i, hi⟩ | hillegal
  · obtain ⟨u, e, sh, fo, ends⟩ := exec_ends i s
    exact ⟨_, hi.trans ends.next, rfl, rfl, rfl, ends.kept.inMem⟩
  · exact ⟨_, hillegal, rfl, rfl, rfl, rfl⟩

/-- Settles O6: the engine's turn is `runCommand`. -/
theorem engineTurnAlwaysEnds : Obligations.EngineTurnAlwaysEnds := fun s hturn =>
  step_of_engineTurn s hturn ▸ runCommand_ends s

/-! ### Which steps are refused -/

theorem engineTurn_of_busy {s : State} (hbusy : s.status.busy = true) (hhost : s.host = []) : s.engineTurn = true := by
  unfold State.engineTurn
  rw [hbusy, hhost]; rfl

/-- With no host event to come a step answers a next state: the engine's, or the waiting block's (R282). -/
theorem step_of_no_host {s : State} (hhost : s.host = []) : ∃ t, step s = .next t := by
  cases hb : s.status.busy with
  | true =>
    obtain ⟨t, ht, -⟩ := engineTurnAlwaysEnds s (engineTurn_of_busy hb hhost)
    exact ⟨t, ht⟩
  | false => exact ⟨s, step_of_waiting hb hhost⟩

/-- Settles O54: the engine's turn ends, a block without host events goes on, and there is no fault to end in. -/
theorem onlyHostMovesAreRefused : Obligations.OnlyHostMovesAreRefused := by
  refine fun s => ⟨nofun, fun why hrefused => ⟨Bool.eq_false_iff.2 fun hturn => ?_, fun hhost => ?_⟩⟩
  · obtain ⟨t, ht, -⟩ := engineTurnAlwaysEnds s hturn
    cases ht.symm.trans hrefused
  · obtain ⟨t, ht⟩ := step_of_no_host hhost
    cases ht.symm.trans hrefused

end Sys2Proof.Machine
end

section
/-! SUPPORT. The registry's lookups and the symbol parser in the statements' words: the literal and the name at the start
of a text, and what `fold` leaves alone. Settles O9 to O12 and O14 to O16. -/

namespace Sys2Proof.Machine

open Spec

/-! ### The two lookups -/

theorem execLkid_of_lookup {s : State} {i : Option Nat} (h : s.lookupId s.regs.fmt = i) :
    execLkid s = .next { s with
      regs := { s.regs with ridx := ridxOf i }, status := endStatus 0 false (foundFlag i), unit := .idle } := by
  subst h; rfl

theorem lookupName_eq_some_iff (s : State) (tok : List Byte) (i : Nat) :
    s.lookupName tok = some i ↔ NameMatches tok (s.entryName i) ∧ i < s.cfg.registry.length ∧
      ∀ j, j < i → ¬ NameMatches tok (s.entryName j) := by
  simp only [lookupName_eq_some, ← nameMatches_iff, Bool.not_eq_true, State.nreg]

theorem lookupName_eq_none_iff (s : State) (tok : List Byte) :
    s.lookupName tok = none ↔ ∀ i, i < s.cfg.registry.length → ¬ NameMatches tok (s.entryName i) := by
  simp only [lookupName_eq_none, ← nameMatches_iff, Bool.not_eq_true, State.nreg]

theorem textTooLong_of_not_windowFits {s : State} (h : ¬ WindowFits s) : s.textTooLong = true := by
  rw [State.textTooLong, decide_eq_true_iff]
  rw [WindowFits, Classical.not_imp, Nat.not_le] at h
  exact h

/-- Settles O9: the lookup's answer is the least entry with the id. -/
theorem lkidFindsLeastEntry : Obligations.LkidFindsLeastEntry := fun s =>
  ⟨fun _ hi hid hleast => execLkid_of_lookup ((lookupId_eq_some s _ _).2 ⟨hid, hi, hleast⟩),
    fun hnone => execLkid_of_lookup ((lookupId_eq_none s _).2 hnone)⟩

/-- Settles O10: the lookup's answer is the least entry whose name the whole text matches; the empty text is not looked
up. -/
theorem lknameLooksUpWholeText : Obligations.LknameLooksUpWholeText := by
  refine fun s => ⟨fun hlong => if_pos (textTooLong_of_not_windowFits hlong), fun t hfits htext => ?_⟩
  have hl := textTooLong_of_windowFits s hfits
  obtain rfl := text_of_textIs s t htext
  refine ⟨fun i hne hi hmatch hleast => execLkname_of_lookup s (some i) hl ?_,
    fun hnone => execLkname_of_lookup s none hl ?_⟩
  · rw [if_neg hne, lookupName_eq_some_iff]
    exact ⟨hmatch, hi, hleast⟩
  · rcases hnone with hempty | hnone
    · exact if_pos hempty
    · rw [(lookupName_eq_none_iff s _).2 hnone, ite_self]

/-! ### The registry's own names (R121) -/

section Registry

variable {s : State} {i : Nat} {e : Entry} (hwf : s.cfg.wf = true) (hrom : s.rom = romImage s.cfg.registry)
  (hentry : s.cfg.registry[i]? = some e)

include hrom hentry

/-- An entry's id finds the least entry with that id (R133). -/
theorem exists_lookupId_id : ∃ j e', s.lookupId e.id = some j ∧ s.cfg.registry[j]? = some e' ∧ e'.id = e.id ∧
    ∀ k x, k < j → s.cfg.registry[k]? = some x → x.id ≠ e.id := by
  obtain ⟨hi, -⟩ := List.getElem?_eq_some_iff.1 hentry
  cases hfound : s.lookupId e.id with
  | none => exact absurd (entryId_eq s i e hrom hentry) ((lookupId_eq_none s _).1 hfound i hi)
  | some j =>
    obtain ⟨hid, hj, hleast⟩ := (lookupId_eq_some s _ j).1 hfound
    have hget : s.cfg.registry[j]? = some (s.cfg.registry[j]'hj) := List.getElem?_eq_getElem hj
    refine ⟨j, _, rfl, hget, (entryId_eq s j _ hrom hget).symm.trans hid, fun k x hk hx hxid => hleast k hk ?_⟩
    exact (entryId_eq s k x hrom hx).trans hxid

include hwf

theorem entryName_of_wf : s.entryName i = e.name := by
  obtain ⟨-, hlen, hword⟩ := wf_name s.cfg hwf e (List.mem_of_getElem? hentry)
  exact entryName_eq s i e hrom hentry hlen hword

/-- An entry's own name finds the entry: no other name is equal to it under `fold` (R121 (a), R129). -/
theorem lookupName_name : s.lookupName e.name = some i := by
  rw [lookupName_eq_some]
  obtain ⟨hi, -⟩ := List.getElem?_eq_some_iff.1 hentry
  refine ⟨?_, hi, fun j hj => Bool.eq_false_iff.2 fun hmatch => ?_⟩
  · rw [entryName_of_wf hwf hrom hentry]
    exact beq_self_eq_true _
  · have hget : s.cfg.registry[j]? = some s.cfg.registry[j] := List.getElem?_eq_getElem (hj.trans hi)
    rw [entryName_of_wf hwf hrom hget] at hmatch
    exact hj.ne' (wf_unique s.cfg hwf i j _ _ hentry hget (eq_of_beq hmatch))

end Registry

/-- Settles O16: the id finds the least entry that holds it, and that entry's name finds the entry again. -/
theorem registryRoundTrip : Obligations.RegistryRoundTrip := by
  intro s e hwf hrom hmem hfmt
  obtain ⟨i, hi⟩ := List.getElem?_of_mem hmem
  obtain ⟨j, e', hfound, hj, hid, hleast⟩ := exists_lookupId_id hrom hi
  rw [← hfmt] at hfound
  refine ⟨_, j, e', execLkid_of_lookup hfound, hj, hid, hleast, rfl, rfl, fun u hcfg hurom hfits htext => ?_⟩
  have hwfu : u.cfg.wf = true := hcfg ▸ hwf
  have hromu : u.rom = romImage u.cfg.registry := by rw [hurom, hrom, hcfg]
  have hju : u.cfg.registry[j]? = some e' := hcfg ▸ hj
  obtain ⟨hne, -, -⟩ := wf_name s.cfg hwf e' (List.mem_of_getElem? hj)
  have hlook : (if u.text = [] then none else u.lookupName u.text) = some j := by
    rw [text_of_textIs u _ htext, if_neg hne, lookupName_name hwfu hromu hju]
  exact ⟨_, execLkname_of_lookup u (some j) (textTooLong_of_windowFits u hfits) hlook,
    (entryId_eq u j e' hromu hju).trans hid, rfl, rfl⟩

/-! ### Where a text that starts with a word byte goes (R125) -/

theorem isWord_of_isDigit {b : Byte} (h : isDigit b = true) : isWord b = true := by
  rw [isWord, h, Bool.true_or, Bool.true_or]

section Tokens

variable {s : State} {b : Byte} {t : List Byte} {onName : List Byte → State → Host.Outcome State Fault Refusal}
  (hl : s.textTooLong = false) (ht : s.text = b :: t)

include hl ht

theorem parseToken_of_digit (hd : isDigit b = true) : parseToken onName s = takeNumber (b :: t) s := by
  simp [parseToken, hl, ht, hd, isWord_of_isDigit hd]

theorem parseToken_of_name (hw : isWord b = true) (hd : isDigit b = false) :
    parseToken onName s = onName (b :: t) s := by
  simp [parseToken, hl, ht, hw, hd]

end Tokens

/-- Settles O14: such a text is a name, which `parse.n` refuses. -/
theorem nameWithoutRegistryIsNumericOnlyExpected : Obligations.NameWithoutRegistryIsNumericOnlyExpected := by
  intro s hfits hlt hword hdigit
  obtain ⟨t, ht⟩ := text_cons_of_lt s hlt
  rw [← isDigit_iff, Bool.not_eq_true] at hdigit
  exact parseToken_of_name (onName := fun _ u => raise u .numericOnlyExpected) (textTooLong_of_windowFits s hfits) ht
    ((isWord_iff _).2 hword) hdigit

/-! ### The literals of R126 -/

theorem hasHexPrefix_iff (t : List Byte) : hasHexPrefix t = true ↔
    ∃ x d r, t = 0x30 :: x :: d :: r ∧ (x = 0x78 ∨ x = 0x58) ∧ isHex d = true := by
  rcases t with _ | ⟨a, _ | ⟨x, _ | ⟨d, r⟩⟩⟩ <;> simp [hasHexPrefix, and_assoc]

/-- A digit of base 8 or 10 is worth the same as a hex digit (R15, R126). -/
theorem digitVal_eq_hexVal {c : Byte} (h : isDigit c = true) : digitVal c = hexVal c := by
  rw [hexVal, if_pos h]; rfl

theorem isDigit_of_isOctal {c : Byte} (h : isOctal c = true) : isDigit c = true := by
  simp only [isOctal, isDigit, Bool.and_eq_true, decide_eq_true_eq] at h ⊢
  omega

theorem foldl_eq_literalValue (base : Nat) {val : Byte → Nat} {ds : List Byte} (hval : ∀ d ∈ ds, val d = hexVal d) :
    ds.foldl (fun v d => base * v + val d) 0 = literalValue base ds :=
  List.foldl_ext _ _ _ fun v d hd => congrArg (base * v + ·) (hval d hd)

/-- One radix on a run of its digits, as long as possible: the cursor passes the run, the accumulator holds its value. -/
theorem numLoop_digits {base : Nat} {ok : Byte → Bool} {val : Byte → Nat} {ds rest : List Byte} (p i : Nat)
    (hb : 0 < base) (hok : ∀ d ∈ ds, ok d = true) (hval : ∀ d, ok d = true → val d = hexVal d) (hstop : Stops ok rest) :
    numLoop base ok val (ds ++ rest) { p := p, acc := 0, past32 := false, index := i } =
      { p := p + ds.length, acc := BitVec.ofNat 32 (literalValue base ds),
        past32 := decide (2 ^ 32 ≤ literalValue base ds), index := i } := by
  rw [numLoop_eq base ok val _ _ 0 hb rfl rfl, takeWhile_append_stop ok ds rest hok hstop,
    foldl_eq_literalValue base fun d hd => hval d (hok d hd)]

/-- The parser's registers after a literal (R50, R126). -/
def FrsRegs.afterLiteral (f : FrsRegs) (base : Nat) (pre ds : List Byte) : FrsRegs :=
  { p := f.p + pre.length + ds.length, acc := BitVec.ofNat 32 (literalValue base ds),
    past32 := decide (2 ^ 32 ≤ literalValue base ds), index := f.index }

section Literals

variable {pre ds rest : List Byte} (f : FrsRegs)

theorem numeric_hexadecimal (hpre : pre = [0x30, 0x78] ∨ pre = [0x30, 0x58]) (hne : ds ≠ [])
    (hds : ∀ d ∈ ds, isHex d = true) (hstop : Stops isHex rest) :
    numeric (pre ++ ds ++ rest) f = f.afterLiteral 16 pre ds := by
  have hhex : hasHexPrefix (pre ++ ds ++ rest) = true := by
    obtain ⟨d, r, rfl⟩ := List.exists_cons_of_ne_nil hne
    rw [hasHexPrefix_iff]
    rcases hpre with rfl | rfl
    · exact ⟨_, d, r ++ rest, rfl, .inl rfl, hds d List.mem_cons_self⟩
    · exact ⟨_, d, r ++ rest, rfl, .inr rfl, hds d List.mem_cons_self⟩
  have hlen : pre.length = 2 := by rcases hpre with rfl | rfl <;> rfl
  rw [numeric, if_pos hhex, List.append_assoc, List.drop_left' hlen,
    numLoop_digits _ _ (by decide) hds (fun _ _ => rfl) hstop, FrsRegs.afterLiteral, hlen]

theorem numeric_octal (hds : ∀ d ∈ ds, isOctal d = true) (hstop : Stops isOctal rest)
    (hnot : ¬ (ds = [] ∧ ∃ x d r, rest = x :: d :: r ∧ (x = 0x78 ∨ x = 0x58) ∧ isHex d = true)) :
    numeric ([0x30] ++ ds ++ rest) f = f.afterLiteral 8 [0x30] ds := by
  have hhex : ¬ hasHexPrefix ([0x30] ++ ds ++ rest) = true := by
    rw [hasHexPrefix_iff]
    rintro ⟨x, d, r, heq, hx, hd⟩
    have heq : ds ++ rest = x :: d :: r := List.tail_eq_of_cons_eq heq
    cases ds with
    | nil => exact hnot ⟨rfl, x, d, r, heq, hx, hd⟩
    | cons c ds =>
      obtain rfl : c = x := List.head_eq_of_cons_eq heq
      have hc := hds c List.mem_cons_self
      rcases hx with rfl | rfl <;> revert hc <;> decide
  refine (if_neg hhex).trans ((if_pos rfl).trans ?_)
  exact numLoop_digits _ _ (by decide) hds (fun _ hd => digitVal_eq_hexVal (isDigit_of_isOctal hd)) hstop

theorem numeric_decimal (hne : ds ≠ []) (hhead : ds.head? ≠ some 0x30) (hds : ∀ d ∈ ds, isDigit d = true)
    (hstop : Stops isDigit rest) : numeric ([] ++ ds ++ rest) f = f.afterLiteral 10 [] ds := by
  have hzero : ([] ++ ds ++ rest)[0]? ≠ some 0x30 := by
    rwa [List.nil_append, ← List.head?_eq_getElem?, List.head?_append_of_ne_nil _ hne]
  have hhex : ¬ hasHexPrefix ([] ++ ds ++ rest) = true := by
    rw [hasHexPrefix_iff]
    rintro ⟨x, d, r, heq, -⟩
    exact hzero (by rw [heq]; rfl)
  rw [numeric, if_neg hhex, if_neg (fun h => hzero (eq_of_beq h))]
  exact numLoop_digits _ _ (by decide) hds (fun _ hd => digitVal_eq_hexVal hd) hstop

theorem numeric_literal {base : Nat} (h : LiteralAt base pre ds rest) :
    numeric (pre ++ ds ++ rest) f = f.afterLiteral base pre ds := by
  rcases h with ⟨rfl, hpre, hne, hds, hstop⟩ | ⟨rfl, rfl, hds, hstop, hnot⟩ | ⟨rfl, rfl, hne, hhead, hds, hstop⟩
  · exact numeric_hexadecimal f hpre hne hds hstop
  · exact numeric_octal f hds hstop hnot
  · exact numeric_decimal f hne hhead hds hstop

/-- A literal starts with a decimal digit, in every base (R126). -/
theorem exists_digit_of_literal {base : Nat} (h : LiteralAt base pre ds rest) :
    ∃ b t, pre ++ ds ++ rest = b :: t ∧ isDigit b = true := by
  rcases h with ⟨-, rfl | rfl, -⟩ | ⟨-, rfl, -⟩ | ⟨-, rfl, hne, -, hds, -⟩
  · exact ⟨_, _, rfl, by decide⟩
  · exact ⟨_, _, rfl, by decide⟩
  · exact ⟨_, _, rfl, by decide⟩
  · obtain ⟨d, r, rfl⟩ := List.exists_cons_of_ne_nil hne
    exact ⟨d, r ++ rest, rfl, hds d List.mem_cons_self⟩

end Literals

/-- Both parse commands take the numeric path on a text that starts with a digit (R130, R131). -/
theorem exec_parse_of_digit {i : Instr} {s : State} {b : Byte} {t : List Byte} (hi : i = .parseN ∨ i = .parseR)
    (hl : s.textTooLong = false) (ht : s.text = b :: t) (hd : isDigit b = true) : exec i s = takeNumber s.text s := by
  rw [ht]
  rcases hi with rfl | rfl
  · exact parseToken_of_digit (onName := fun _ u => raise u .numericOnlyExpected) hl ht hd
  · exact parseToken_of_digit (onName := takeName) hl ht hd

/-- Settles O11: `numeric` cuts the literal and holds its value. -/
theorem parseTakesNumericLiteral : Obligations.ParseTakesNumericLiteral := by
  intro i s base pre ds rest hi hfits htext hlit
  have ht := text_of_textIs s _ htext
  obtain ⟨b, t, hcons, hd⟩ := exists_digit_of_literal hlit
  have hexec := exec_parse_of_digit hi (textTooLong_of_windowFits s hfits) (ht.trans hcons) hd
  rw [takeNumber_next, numberRegs, ht, numeric_literal _ hlit] at hexec
  simp only [FrsRegs.afterLiteral, startFrs_read, Nat.add_assoc, tpos_add] at hexec
  refine ⟨_, _, hexec, fun hlt => ?_⟩
  rw [decide_eq_false (Nat.not_le.2 hlt)]
  exact ⟨rfl, rfl⟩

/-! ### The name path of `parse.r` (R131) -/

theorem takeName_of_none {s : State} {t : List Byte} (h : s.lookupName (nameToken t) = none) :
    takeName t s = raise s .symbolNotFound := by
  unfold takeName; rw [h]

theorem takeName_of_some {s : State} {t : List Byte} {i : Nat} (h : s.lookupName (nameToken t) = some i) :
    takeName t s = .next { s with
      regs := { s.regs with
        fmt := s.entryId i, tpos := s.regs.tpos + BitVec.ofNat 32 (nameToken t).length, ridx := BitVec.ofNat 32 i }
      status := endStatus 0 false true
      unit := .idle } := by
  unfold takeName
  rw [h, ← tpos_add]
  rfl

/-- Settles O12: the token cut off is the whole name token, and it is looked up. -/
theorem parseRResolvesName : Obligations.ParseRResolvesName := by
  intro s tok rest hfits htext hname
  obtain ⟨⟨b, t, rfl, hd⟩, hword, hstop⟩ := hname
  have hexec : exec .parseR s = takeName (b :: t ++ rest) s :=
    parseToken_of_name (textTooLong_of_windowFits s hfits) (text_of_textIs s _ htext) (hword b List.mem_cons_self) hd
  have htok : nameToken (b :: t ++ rest) = b :: t := takeWhile_append_stop isWord _ rest hword hstop
  refine ⟨fun i hi hmatch hleast => ?_, fun hnone => ?_⟩
  · have hfound := (lookupName_eq_some_iff s (b :: t) i).2 ⟨hmatch, hi, hleast⟩
    rw [← htok] at hfound ⊢
    exact hexec.trans (takeName_of_some hfound)
  · have hfound := (lookupName_eq_none_iff s (b :: t)).2 hnone
    rw [← htok] at hfound
    exact hexec.trans (takeName_of_none hfound)

/-! ### What letter case does not change (R129) -/

@[simp] theorem isWord_fold (c : Byte) : isWord (fold c) = isWord c := by
  obtain ⟨hc, -⟩ := fold_classes c
  exact hc

@[simp] theorem isDigit_fold (c : Byte) : isDigit (fold c) = isDigit c := by
  obtain ⟨-, hc, -⟩ := fold_classes c
  exact hc

@[simp] theorem isHex_fold (c : Byte) : isHex (fold c) = isHex c := by
  obtain ⟨-, -, hc, -⟩ := fold_classes c
  exact hc

@[simp] theorem isOctal_fold (c : Byte) : isOctal (fold c) = isOctal c := by
  obtain ⟨-, -, -, hc, -⟩ := fold_classes c
  exact hc

theorem hexVal_fold {c : Byte} (h : isHex c = true) : hexVal (fold c) = hexVal c := by
  obtain ⟨-, -, -, -, hc, -⟩ := fold_classes c
  exact hc h

theorem digitVal_fold {c : Byte} (h : isDigit c = true) : digitVal (fold c) = digitVal c := by
  obtain ⟨-, -, -, -, -, hc, -⟩ := fold_classes c
  exact hc h

@[simp] theorem fold_fold (c : Byte) : fold (fold c) = fold c := by
  obtain ⟨-, -, -, -, -, -, hc⟩ := fold_classes c
  exact hc

@[simp] theorem fold_eq_zeroDigit_iff : ∀ c : Byte, fold c = 0x30#8 ↔ c = 0x30#8 := by decide +kernel

/-- `fold` keeps the mark of a hexadecimal literal, an `x` in either case (R126). -/
@[simp] theorem fold_eq_hexMark_iff : ∀ c : Byte, fold c = 0x78#8 ∨ fold c = 0x58#8 ↔ c = 0x78#8 ∨ c = 0x58#8 := by
  decide +kernel

theorem numLoop_map_fold {base : Nat} {ok : Byte → Bool} {val : Byte → Nat} (hok : ∀ c, ok (fold c) = ok c)
    (hval : ∀ c, ok c = true → val (fold c) = val c) (t : List Byte) (f : FrsRegs) :
    numLoop base ok val (t.map fold) f = numLoop base ok val t f := by
  induction t generalizing f with
  | nil => rfl
  | cons c t ih =>
    simp only [List.map_cons, numLoop, hok, ih]
    by_cases h : ok c = true
    · rw [if_pos h, if_pos h, hval c h]
    · rw [if_neg h, if_neg h]

theorem hasHexPrefix_map_fold (t : List Byte) : hasHexPrefix (t.map fold) = hasHexPrefix t := by
  rw [Bool.eq_iff_iff]
  rcases t with _ | ⟨a, _ | ⟨x, _ | ⟨d, r⟩⟩⟩ <;> simp [hasHexPrefix]

theorem numeric_map_fold (t : List Byte) (f : FrsRegs) : numeric (t.map fold) f = numeric t f := by
  have hzero : ((t.map fold)[0]? == some 0x30) = (t[0]? == some 0x30) := by
    cases t with
    | nil => rfl
    | cons c t => rw [Bool.eq_iff_iff]; simp
  have hhex := numLoop_map_fold (base := 16) (ok := isHex) isHex_fold fun _ => hexVal_fold
  have hoct := numLoop_map_fold (base := 8) (ok := isOctal) isOctal_fold fun _ h => digitVal_fold (isDigit_of_isOctal h)
  have hdec := numLoop_map_fold (base := 10) (ok := isDigit) isDigit_fold fun _ => digitVal_fold
  simp only [numeric, hasHexPrefix_map_fold, hzero, ← List.map_drop, hhex, hoct, hdec]

theorem nameToken_map_fold (t : List Byte) : nameToken (t.map fold) = (nameToken t).map fold := by
  rw [nameToken, List.takeWhile_map, nameToken, show isWord ∘ fold = isWord from funext isWord_fold]

theorem lookupName_map_fold (s : State) (tok : List Byte) : s.lookupName (tok.map fold) = s.lookupName tok := by
  have hfold : fold ∘ fold = fold := funext fold_fold
  simp only [State.lookupName, nameMatches, List.map_map, hfold]

/-! ### `parse.r` on two texts equal under `fold` -/

/-- The two ends, if both answer, have the same STATUS and registers; FMT too when the first drew no free value for it
since `s` (R128). -/
def ResolvedAlike (s : State) (o o' : Host.Outcome State Fault Refusal) : Prop :=
  ∀ t t', o = .next t → o' = .next t' →
    t'.status = t.status ∧ t'.regs = { t.regs with fmt := t'.regs.fmt } ∧
      (t.draws = s.draws → t'.regs.fmt = t.regs.fmt)

section TwoTexts

variable {s s' t t' : State} {x x' : List Byte}

theorem resolvedAlike_next (hstatus : t'.status = t.status) (hregs : t'.regs = { t.regs with fmt := t'.regs.fmt })
    (hfmt : t.draws = s.draws → t'.regs.fmt = t.regs.fmt) : ResolvedAlike s (.next t) (.next t') := by
  rintro _ _ ⟨⟩ ⟨⟩
  exact ⟨hstatus, hregs, hfmt⟩

theorem resolvedAlike_of_regs (hstatus : t'.status = t.status) (hregs : t'.regs = t.regs) :
    ResolvedAlike s (.next t) (.next t') :=
  resolvedAlike_next hstatus (by rw [hregs]) fun _ => by rw [hregs]

variable (hregs : s'.regs = s.regs) (hfold : x'.map fold = x.map fold)

include hregs

theorem resolvedAlike_raise (e : Error) : ResolvedAlike s (raise s e) (raise s' e) :=
  resolvedAlike_of_regs rfl hregs

include hfold

theorem resolvedAlike_takeNumber : ResolvedAlike s (takeNumber x s) (takeNumber x' s') := by
  have hnum : numeric x' s'.startFrs.frs = numeric x s.startFrs.frs := by
    rw [startFrs_read, startFrs_read, hregs, ← numeric_map_fold, hfold, numeric_map_fold]
  rw [takeNumber_next, takeNumber_next, numberRegs, numberRegs, hnum, hregs]
  cases (numeric x s.startFrs.frs).past32 with
  | false => exact resolvedAlike_of_regs rfl rfl
  | true => exact resolvedAlike_next rfl rfl fun hdraws => absurd hdraws (Nat.succ_ne_self _)

variable (hcfg : s'.cfg = s.cfg) (hrom : s'.rom = s.rom)

include hcfg hrom

theorem resolvedAlike_takeName : ResolvedAlike s (takeName x s) (takeName x' s') := by
  have htok : (nameToken x').map fold = (nameToken x).map fold := by
    rw [← nameToken_map_fold, hfold, nameToken_map_fold]
  have hlen : (nameToken x').length = (nameToken x).length := by simpa using congrArg List.length htok
  have hlook : s'.lookupName (nameToken x') = s.lookupName (nameToken x) := by
    rw [← lookupName_map_fold, htok, lookupName_map_fold]
    simp only [State.lookupName, State.nreg, State.entryName, State.romByte, hcfg, hrom]
  cases hfound : s.lookupName (nameToken x) with
  | none =>
    rw [takeName_of_none hfound, takeName_of_none (hlook.trans hfound)]
    exact resolvedAlike_raise hregs _
  | some i =>
    have hid : s'.entryId i = s.entryId i := by simp only [State.entryId, State.romByte, hrom]
    rw [takeName_of_some hfound, takeName_of_some (hlook.trans hfound), hregs, hlen, hid]
    exact resolvedAlike_of_regs rfl rfl

theorem resolvedAlike_parseR (hx : s.text = x) (hx' : s'.text = x') :
    ResolvedAlike s (execParseR s) (execParseR s') := by
  have htoo : s'.textTooLong = s.textTooLong := by simp only [State.textTooLong, hregs, hcfg]
  unfold execParseR parseToken
  rw [hx, hx', htoo]
  cases s.textTooLong with
  | true => exact resolvedAlike_raise hregs _
  | false =>
    match x, x', hfold with
    | [], [], _ => exact resolvedAlike_raise hregs _
    | b :: r, b' :: r', hfold =>
      have hhead : fold b' = fold b := List.head_eq_of_cons_eq hfold
      have hword : isWord b' = isWord b := by rw [← isWord_fold, hhead, isWord_fold]
      have hdigit : isDigit b' = isDigit b := by rw [← isDigit_fold, hhead, isDigit_fold]
      simp only [hword, hdigit]
      cases isWord b with
      | false => exact resolvedAlike_raise hregs _
      | true =>
        cases isDigit b with
        | true => exact resolvedAlike_takeNumber hregs hfold
        | false => exact resolvedAlike_takeName hregs hfold hcfg hrom

end TwoTexts

/-- Settles O15: every path of `parse.r` ends alike. -/
theorem parseRIgnoresLetterCase : Obligations.ParseRIgnoresLetterCase :=
  fun s s' t t' x x' hcfg hregs hrom htext htext' hfold =>
    resolvedAlike_parseR hregs hfold hcfg hrom (text_of_textIs s x htext) (text_of_textIs s' x' htext') t t'

end Sys2Proof.Machine
end

section
/-! SUPPORT. The conditioned source: the copy of `cond` read back from OUT, and `decode` from a source that is filled up
with zeros. Settles O19 and O28. -/

namespace Sys2Proof.Machine

open Spec

/-! ### `cond` -/

/-- A byte of OUT after the copy: `rd x` below `n`, what was there from `n` on. -/
theorem outByte_copyLoop (rd : Nat → Byte) (n x : Nat) (m : Memory) :
    (copyLoop rd n 0 m).outByte x = if x < n then rd x else m.outByte x := by
  simp only [Memory.outByte, get?_copyLoop, copyLoop_era, Nat.zero_le, true_and, Nat.zero_add]
  split <;> rfl

/-- The read limit of `cond` is no limit below RLEN (R66, R152). -/
theorem srcRead_min_of_lt (s : State) {d q a : Nat} (ha : a < q) :
    s.srcRead (min d q) a = if a < d then s.inByte a else 0 := by
  simp only [State.srcRead, lt_min_iff, ha, and_true]

/-- `cond` on lengths that fit IN and OUT (R152). -/
theorem execCond_of_fits {s : State} (hin : s.regs.slen.toNat ≤ s.cfg.inSize)
    (hout : s.regs.rlen.toNat ≤ s.cfg.outSize) :
    execCond s = .next { s with
      outMem := copyLoop (s.srcRead (min s.regs.slen.toNat s.regs.rlen.toNat)) s.regs.rlen.toNat 0 s.outMem
      status := okStatus (decide (s.regs.slen.toNat < s.regs.rlen.toNat)) false
      unit := .idle } :=
  if_neg (not_or.2 ⟨Nat.not_lt.2 hin, Nat.not_lt.2 hout⟩)

/-- Settles O19: the copy byte by byte. -/
theorem condCopiesConditionedSource : Obligations.CondCopiesConditionedSource := by
  intro s
  refine ⟨fun hlong => if_pos hlong, fun hin hout => ⟨_, execCond_of_fits hin hout, rfl, fun a ha => ?_, ?_⟩⟩
  · exact (outByte_copyLoop _ _ a s.outMem).trans ((if_pos ha).trans (srcRead_min_of_lt s ha))
  · exact fun a ha => (outByte_copyLoop _ _ a s.outMem).trans (if_neg (Nat.not_lt.2 ha))

/-! ### `decode` on a frame that fits -/

/-- `decode` when it executes normally (R161): the whole scan, SHORT by the lengths, every other field as before. -/
theorem exec_decode_of_fits {s : State} {f : Format} (h : DecodeFits s f) :
    exec .decode s = .next { s with
      outMem := (scanLoop f s (s.geometry f) (hgt s * wid s) (pxdStart f) s.outMem).2
      status := okStatus (decide (s.regs.slen.toNat < reqOf s f)) false
      unit := .idle } := by
  obtain ⟨hfmt, hw, hh, hin, hout⟩ := h
  refine (execDecode_of_format s f (formatOf_of_formatIs s f hfmt)).trans ?_
  rw [if_neg (by simp only [s32]; omega), geometry_eq, if_neg (by simp only [u32]; omega)]
  rfl

/-- A pixel looks at the read limit only through its conditioned reads. -/
theorem pixelOf_otherLimit (f : Format) {s s' : State} {g : Geometry} {l : Nat}
    (hsrc : ∀ a, s'.srcRead l a = s.srcRead g.lim a) (hn : s'.cfg.narrow = s.cfg.narrow) (p : PxdRegs) :
    pixelOf f s' { g with lim := l } p = pixelOf f s g p := by
  cases f <;> simp only [pixelOf, nv12Pixel, greyPixel, bayerPixel, State.bayerSample, State.bayerWord, chromaAddr,
    hsrc, hn]

/-- Two sources that read alike, each up to its own limit, are scanned alike (R66). -/
theorem scanLoop_otherLimit (f : Format) {s s' : State} {g : Geometry} {l : Nat}
    (hsrc : ∀ a, s'.srcRead l a = s.srcRead g.lim a) (hn : s'.cfg.narrow = s.cfg.narrow) (n : Nat) (p : PxdRegs)
    (out : Memory) : scanLoop f s' { g with lim := l } n p out = scanLoop f s g n p out := by
  induction n generalizing p out with
  | zero => rfl
  | succ n ih => simp only [scanLoop, pixelOf_otherLimit f hsrc hn, ih]

/-! ### The zero-filled source -/

/-- `s` with other contents of IN, of which the first `n` bytes are declared. -/
def State.withSource (s : State) (m : Memory) (n : Word) : State :=
  { s with inMem := m, regs := { s.regs with slen := n } }

section ZeroFilled

variable {s : State} {f : Format} {m : Memory} {n : Word}

/-- The required length does not depend on the source (R165). -/
@[simp] theorem withSource_reqOf : reqOf (s.withSource m n) f = reqOf s f := rfl

/-- A frame that fits still fits with another source that lies inside IN. -/
theorem withSource_decodeFits (h : DecodeFits s f) (hn : n.toNat ≤ s.cfg.inSize) :
    DecodeFits (s.withSource m n) f := by
  obtain ⟨hfmt, hw, hh, -, hout⟩ := h
  exact ⟨hfmt, hw, hh, hn, hout⟩

/-- With the whole required length declared, only the read limit of the geometry changes (R161). -/
theorem withSource_geometry (hn : n.toNat = reqOf s f) :
    (s.withSource m n).geometry f = { s.geometry f with lim := reqOf s f } := by
  have hlim : min (s.withSource m n).regs.slen.toNat (reqOf s f) = reqOf s f := by
    rw [← hn]; exact Nat.min_self _
  rw [geometry_eq, geometry_eq, withSource_reqOf, hlim]; rfl

/-- Zeros written out read as the conditioned read supplies them (R66, R150). -/
theorem withSource_srcRead (hslen : s.regs.slen.toNat ≤ reqOf s f)
    (hfill : ∀ a, a < reqOf s f → (s.withSource m n).inByte a = if a < s.regs.slen.toNat then s.inByte a else 0)
    (a : Nat) : (s.withSource m n).srcRead (reqOf s f) a = s.srcRead (s.geometry f).lim a := by
  have hlim : (s.geometry f).lim = s.regs.slen.toNat := by rw [geometry_eq]; exact Nat.min_eq_left hslen
  rw [hlim, State.srcRead, State.srcRead]
  by_cases ha : a < reqOf s f
  · rw [if_pos ha, hfill a ha]
  · rw [if_neg ha, if_neg (by omega)]

/-- The scan of a short source is the scan of the zero-filled one. -/
theorem withSource_scanLoop (hn : n.toNat = reqOf s f) (hslen : s.regs.slen.toNat ≤ reqOf s f)
    (hfill : ∀ a, a < reqOf s f → (s.withSource m n).inByte a = if a < s.regs.slen.toNat then s.inByte a else 0)
    (k : Nat) (p : PxdRegs) (out : Memory) :
    scanLoop f (s.withSource m n) ((s.withSource m n).geometry f) k p out = scanLoop f s (s.geometry f) k p out := by
  rw [withSource_geometry hn]
  exact scanLoop_otherLimit f (withSource_srcRead hslen hfill) rfl k p out

end ZeroFilled

/-- Settles O28: the filled source is scanned as the short one, and declares all that is required. -/
theorem shortSourceDecodesAsZeroFilled : Obligations.ShortSourceDecodesAsZeroFilled := by
  intro s f m n hfits hn hslen hreq hfill
  have hfits' : DecodeFits (s.withSource m n) f := withSource_decodeFits hfits (hn.trans_le hreq)
  have hshort : decide (n.toNat < reqOf s f) = false := decide_eq_false hn.not_lt
  exact ⟨_, _, exec_decode_of_fits hfits, exec_decode_of_fits hfits',
    congrArg Prod.snd (withSource_scanLoop hn hslen hfill _ _ s.outMem), congrArg (okStatus · false) hshort⟩

end Sys2Proof.Machine
end

section
/-! SUPPORT. `decode` pixel by pixel: what each scanner puts out at a place of the raster, and what the hold registers
of a Bayer scan hold. Then the statements about `decode`: O23 to O27 and O29. -/

namespace Sys2Proof.Machine

open Spec

/-! ### The errors of `decode` -/

theorem execDecode_of_no_format {s : State} (h : formatOf s.cfg s.regs.fmt = none) :
    execDecode s = .next (failed s 4) := by
  unfold execDecode
  rw [h]
  rfl

/-- Settles O23: no format, then the geometry, then the capacity, each with the checks before it passed. -/
theorem decodeErrorsInOrder : Obligations.DecodeErrorsInOrder := by
  intro s hwf
  refine ⟨fun hnone => execDecode_of_no_format (formatOf_eq_none _ _ fun f hmem => hnone f ⟨hwf, hmem⟩),
    fun f hfmt => ?_⟩
  have run := execDecode_of_format s f (formatOf_of_formatIs s f hfmt)
  refine ⟨fun hgeo => run.trans (if_pos hgeo), fun hw hh hcap => run.trans ((if_neg ?_).trans (if_pos hcap))⟩
  exact not_or.2 ⟨Int.not_le.2 hw, Int.not_le.2 hh⟩

/-! ### The three bytes of a pixel in OUT (R168) -/

/-- The byte of a pixel that belongs to a channel. -/
def Rgb.channel (px : Rgb) : Channel → Byte
  | .red => px.r
  | .green => px.g
  | .blue => px.b

theorem channelIndex_lt (ch : Channel) : ch.index < 3 := by cases ch <;> decide

theorem exists_channel_of_lt {k : Nat} (hk : k < 3) : ∃ ch : Channel, ch.index = k :=
  match k, hk with
  | 0, _ => ⟨.red, rfl⟩
  | 1, _ => ⟨.green, rfl⟩
  | 2, _ => ⟨.blue, rfl⟩

theorem rgbBytes_channel (px : Rgb) (ch : Channel) : (rgbBytes px)[ch.index]? = some (px.channel ch) := by
  cases ch <;> rfl

/-- OUT after `n` pixel steps holds each channel of each of the `n` pixels. -/
theorem outByte_scanLoop (f : Format) (s : State) {g : Geometry} {n k : Nat} (ch : Channel) (out : Memory)
    (hw : 0 < g.w) (hk : k < n) :
    (scanLoop f s g n (pxdStart f) out).2.outByte (3 * k + ch.index) = (pixelAt f s g k).channel ch := by
  have hch := channelIndex_lt ch
  have hget := get?_scanLoop f s g n 0 (3 * k + ch.index) out hw
  rw [if_pos (by omega), show (3 * k + ch.index) / 3 = k by omega, show (3 * k + ch.index) % 3 = ch.index by omega,
    rgbBytes_channel] at hget
  rw [Memory.outByte, show pxdStart f = pxdAt f s g 0 from rfl, hget]
  rfl

section Frames

variable {s : State} {f : Format}

theorem wid_pos (h : DecodeFits s f) : 0 < wid s := by
  obtain ⟨-, hw, -⟩ := h
  exact Int.pos_iff_toNat_pos.1 hw

/-- `decode` when it executes normally: its end, and every byte of the raster it leaves (R161, R168). -/
theorem decodeEnds_of_fits (h : DecodeFits s f) :
    ∃ t, DecodeEnds s f t ∧ ∀ n ch, n < wid s * hgt s →
      t.outByte (3 * n + ch.index) = (pixelAt f s (s.geometry f) n).channel ch := by
  have hexec := exec_decode_of_fits h
  have ⟨⟨hwf, _⟩, _⟩ := h
  refine ⟨_, ⟨hexec, rfl, fun a ha => outBeyondResultUnchanged .decode s _ hwf hexec rfl a ha⟩, fun n ch hn => ?_⟩
  exact outByte_scanLoop f s ch s.outMem (wid_pos h) (hn.trans_eq (Nat.mul_comm _ _))

/-! ### What the scanners work with, in the statements' words -/

@[simp] theorem geometry_w : (s.geometry f).w = wid s := rfl
@[simp] theorem geometry_h : (s.geometry f).h = hgt s := rfl
@[simp] theorem geometry_stride : (s.geometry f).stride = strideOf s (bpp f) := by rw [geometry_eq]

/-- The scanners' conditioned read is the statements' (R66, R165). -/
@[simp] theorem srcRead_geometry (a : Nat) : s.srcRead (s.geometry f).lim a = source s f a := by
  rw [geometry_eq]; rfl

/-! ### GREY and NV12 -/

/-- Pixel `n` of a GREY frame, at row `r`, column `c` (R170). -/
theorem pixelAt_grey (hw : 0 < wid s) {n r c : Nat} (hr : n / wid s = r) (hc : n % wid s = c) (ch : Channel) :
    (pixelAt .grey s (s.geometry .grey) n).channel ch = source s .grey (r * strideOf s 1 + c) := by
  obtain ⟨hpr, hpc⟩ := pxdAt_position .grey s (s.geometry .grey) n hw
  simp only [pixelAt, pixelOf, greyPixel, hpr, hpc, hr, hc, srcRead_geometry, geometry_w, geometry_stride]
  cases ch <;> rfl

/-- Settles O24: pixel `r * w + c` of the raster is at row `r`, column `c`. -/
theorem greyCopiesLuma : Obligations.GreyCopiesLuma := by
  intro s hfits
  obtain ⟨t, hends, hraster⟩ := decodeEnds_of_fits hfits
  refine ⟨t, hends, fun r c k hr hc hk => ?_⟩
  obtain ⟨hn, hrow, hcol⟩ := raster_index (hgt s) (wid s) r c hr hc
  obtain ⟨ch, rfl⟩ := exists_channel_of_lt hk
  rw [hraster _ ch (hn.trans_eq (Nat.mul_comm _ _)), pixelAt_grey (wid_pos hfits) hrow hcol]

/-- Pixel `n` of an NV12 frame, at row `r`, column `c` (R171). -/
theorem pixelAt_nv12 (hw : 0 < wid s) {n r c : Nat} (hr : n / wid s = r) (hc : n % wid s = c) :
    pixelAt .nv12 s (s.geometry .nv12) n =
      ycbcrToRgb (source s .nv12 (r * strideOf s 1 + c))
        (source s .nv12 (strideOf s 1 * hgt s + r / 2 * strideOf s 1 + 2 * (c / 2)))
        (source s .nv12 (strideOf s 1 * hgt s + r / 2 * strideOf s 1 + 2 * (c / 2) + 1)) := by
  obtain ⟨hpr, hpc⟩ := pxdAt_position .nv12 s (s.geometry .nv12) n hw
  simp only [pixelAt, pixelOf, nv12Pixel, chromaAddr, hpr, hpc, hr, hc, srcRead_geometry, geometry_w, geometry_h,
    geometry_stride]
  rfl

/-- The converter's three channels are the formula of R201. -/
theorem ycbcrToRgb_toNat (y cb cr : Byte) :
    ((ycbcrToRgb y cb cr).r.toNat : Int) = redOf y cr ∧ ((ycbcrToRgb y cb cr).g.toNat : Int) = greenOf y cb cr ∧
      ((ycbcrToRgb y cb cr).b.toNat : Int) = blueOf y cb :=
  ⟨clamp8_toNat _, clamp8_toNat _, clamp8_toNat _⟩

/-- Settles O25: the converter on the pixel's luma and the chroma pair of its block. -/
theorem nv12ConvertsEachPixel : Obligations.Nv12ConvertsEachPixel := by
  intro s hfits
  obtain ⟨t, hends, hraster⟩ := decodeEnds_of_fits hfits
  refine ⟨t, hends, fun r c hr hc => ?_⟩
  obtain ⟨hn, hrow, hcol⟩ := raster_index (hgt s) (wid s) r c hr hc
  have hpixel := fun ch => hraster _ ch (hn.trans_eq (Nat.mul_comm _ _))
  rw [pixelAt_nv12 (wid_pos hfits) hrow hcol] at hpixel
  obtain ⟨hred, hgreen, hblue⟩ := ycbcrToRgb_toNat _ _ _
  exact ⟨hpixel .red ▸ hred, hpixel .green ▸ hgreen, hpixel .blue ▸ hblue⟩

/-! ### The samples of a Bayer frame (R183) -/

/-- `narrow8` as a number (R183). -/
theorem narrow8_toNat (nr : Narrow) (t : Nat) :
    (narrow8 nr t).toNat = if nr = .sat then min t 255 else t % 256 := by
  cases nr with
  | sat => rw [if_pos rfl, narrow8, BitVec.toNat_ofNat]; omega
  | trunc => rw [if_neg (by decide), narrow8, BitVec.toNat_ofNat]; omega

/-- A value of 8 bits is narrowed to itself either way (R183). -/
theorem narrow8_of_le (nr : Narrow) {t : Nat} (ht : t ≤ 255) : narrow8 nr t = BitVec.ofNat 8 t := by
  cases nr with
  | sat => rw [narrow8, Nat.min_eq_left ht]
  | trunc => rw [narrow8, Nat.mod_eq_of_lt (by omega)]

/-- The word of site `n` (R183). -/
theorem bayerWord_eq (hb : bpp f = 2) (n : Nat) :
    s.bayerWord (s.geometry f) (n / wid s) (n % wid s) = wordAt s f n := by
  simp only [State.bayerWord, srcRead_geometry, geometry_stride, hb]
  rfl

/-- The sample of site `n` (R183). -/
theorem bayerSample_toNat (hb : bpp f = 2) (n : Nat) :
    (s.bayerSample (s.geometry f) (n / wid s) (n % wid s)).toNat = sampleAt s f n := by
  rw [State.bayerSample, narrow8_toNat, bayerWord_eq hb, Nat.shiftRight_eq_div_pow]
  rfl

theorem bpp_of_bayer (h1 : f ≠ .nv12) (h2 : f ≠ .grey) : bpp f = 2 := if_neg (not_or.2 ⟨h1, h2⟩)

theorem pixelOf_of_bayer (h1 : f ≠ .nv12) (h2 : f ≠ .grey) : pixelOf f = bayerPixel := by
  cases f with
  | nv12 => exact absurd rfl h1
  | grey => exact absurd rfl h2
  | sbggr10 | sgbrg10 | srggb10 | sgrbg10 => rfl

/-! ### The hold registers of a Bayer scan (R54, R180 to R184) -/

/-- Every scan starts with 0 in the hold registers (R6, R54). -/
theorem holdOf_pxdStart (f : Format) (ch : Channel) : holdOf (pxdStart f) ch = 0 := by cases ch <;> rfl

/-- The move to the next pixel leaves the hold registers (R54). -/
theorem holdOf_pxdNext (f : Format) (w : Nat) (p : PxdRegs) (ch : Channel) :
    holdOf (pxdNext f w p) ch = holdOf p ch := by
  unfold pxdNext
  split <;> cases ch <;> rfl

/-- A Bayer pixel is the hold registers after its site's sample (R184). -/
theorem bayerPixel_channel (s : State) (g : Geometry) (p : PxdRegs) (ch : Channel) :
    (bayerPixel s g p).2.channel ch = holdOf (bayerPixel s g p).1 ch := by cases ch <;> rfl

/-- The hold registers before pixel `n + 1` are pixel `n`. -/
theorem holdOf_pxdAt_succ (h1 : f ≠ .nv12) (h2 : f ≠ .grey) (g : Geometry) (n : Nat) (ch : Channel) :
    holdOf (pxdAt f s g (n + 1)) ch = (pixelAt f s g n).channel ch := by
  rw [pxdAt, holdOf_pxdNext, pixelAt, pixelOf_of_bayer h1 h2, bayerPixel_channel]

/-- The phase of the scan at site `n` is the site's channel (R181, R182, R185). -/
theorem channelAt_eq_phase (h1 : f ≠ .nv12) (h2 : f ≠ .grey) (hw : 0 < wid s) (n : Nat) :
    channelAt s f n = some (phaseChannel (pxdAt f s (s.geometry f) n).oddRow (pxdAt f s (s.geometry f) n).oddPixel) := by
  obtain ⟨hrow, hpixel⟩ := pxdAt_phase f s (s.geometry f) n hw
  rw [channelAt, siteChannel_phase f h1 h2, hrow, hpixel]
  rfl

/-- Channel `ch` of pixel `n`: the site's sample when the site is one of `ch`, else what the hold register held. -/
theorem pixelAt_bayer (h1 : f ≠ .nv12) (h2 : f ≠ .grey) (hw : 0 < wid s) (n : Nat) (ch : Channel) :
    (pixelAt f s (s.geometry f) n).channel ch =
      if channelAt s f n = some ch then s.bayerSample (s.geometry f) (n / wid s) (n % wid s)
      else holdOf (pxdAt f s (s.geometry f) n) ch := by
  obtain ⟨hr, hc⟩ := pxdAt_position f s (s.geometry f) n hw
  rw [pixelAt, pixelOf_of_bayer h1 h2, bayerPixel_channel, bayerPixel, holdOf_holdSample, hr, hc,
    channelAt_eq_phase h1 h2 hw]
  simp only [Option.some.injEq, geometry_w]

/-- Each channel of pixel `n` is the sample of the latest site of the channel at or before `n` (R184). -/
theorem pixelAt_latest (h1 : f ≠ .nv12) (h2 : f ≠ .grey) (hw : 0 < wid s) {ch : Channel} {m n : Nat} (hmn : m ≤ n)
    (hm : channelAt s f m = some ch) (hlast : ∀ k, m < k → k ≤ n → channelAt s f k ≠ some ch) :
    (pixelAt f s (s.geometry f) n).channel ch = s.bayerSample (s.geometry f) (m / wid s) (m % wid s) := by
  induction n, hmn using Nat.le_induction with
  | base => rw [pixelAt_bayer h1 h2 hw, if_pos hm]
  | succ n hmn ih =>
    rw [pixelAt_bayer h1 h2 hw, if_neg (hlast (n + 1) (by omega) (Nat.le_refl _)), holdOf_pxdAt_succ h1 h2]
    exact ih fun k hk hkn => hlast k hk (by omega)

/-- A channel with no site yet is the 0 the hold registers start from (R184). -/
theorem pixelAt_no_site (h1 : f ≠ .nv12) (h2 : f ≠ .grey) (hw : 0 < wid s) {ch : Channel} {n : Nat}
    (hnone : ∀ m, m ≤ n → channelAt s f m ≠ some ch) : (pixelAt f s (s.geometry f) n).channel ch = 0 := by
  rw [pixelAt_bayer h1 h2 hw, if_neg (hnone n (Nat.le_refl n))]
  induction n with
  | zero => exact holdOf_pxdStart f ch
  | succ n ih =>
    rw [holdOf_pxdAt_succ h1 h2, pixelAt_bayer h1 h2 hw, if_neg (hnone n (Nat.le_succ n))]
    exact ih fun m hm => hnone m (Nat.le_succ_of_le hm)

end Frames

/-- Settles O26: by the hold registers, site after site. -/
theorem bayerHoldsLatestSample : Obligations.BayerHoldsLatestSample := by
  intro s f h1 h2 hfits
  obtain ⟨t, hends, hraster⟩ := decodeEnds_of_fits hfits
  refine ⟨t, hends, fun n ch hn => ⟨fun m hmn hm hlast => ?_, fun hnone => ?_⟩⟩
  · rw [hraster n ch hn, pixelAt_latest h1 h2 (wid_pos hfits) hmn hm hlast, bayerSample_toNat (bpp_of_bayer h1 h2)]
  · rw [hraster n ch hn, pixelAt_no_site h1 h2 (wid_pos hfits) hnone]

/-! ### A derived stride (R166) -/

/-- `s` with another STRIDE. -/
def State.withStride (s : State) (v : Word) : State := { s with regs := { s.regs with stride := v } }

/-- The stride written out is the stride derived (R166). -/
theorem withStride_strideOf {s : State} {b : Nat} (hst : s.regs.stride.toInt ≤ 0) (hpos : 0 < wid s * b)
    (hlt : wid s * b < 2 ^ 31) : strideOf (s.withStride (BitVec.ofNat 32 (wid s * b))) b = strideOf s b := by
  have hint : (BitVec.ofNat 32 (wid s * b)).toInt = (wid s * b : Nat) := by
    rw [BitVec.toInt_eq_toNat_of_lt] <;> rw [BitVec.toNat_ofNat, Nat.mod_eq_of_lt] <;> omega
  have hnew : (s.withStride (BitVec.ofNat 32 (wid s * b))).regs.stride.toInt = (wid s * b : Nat) := hint
  rw [strideOf, strideOf, if_neg (Int.not_lt.2 hst), hnew, if_pos (by omega), Int.toNat_natCast]

/-- STRIDE enters the required length through the effective stride only (R165). -/
theorem withStride_reqOf {s : State} {f : Format} {v : Word}
    (h : strideOf (s.withStride v) (bpp f) = strideOf s (bpp f)) : reqOf (s.withStride v) f = reqOf s f := by
  unfold reqOf
  split
  · subst f; rw [show strideOf (s.withStride v) 1 = strideOf s 1 from h]; rfl
  · rw [h]; rfl

/-- STRIDE enters the geometry through the effective stride only (R165). -/
theorem withStride_geometry {s : State} {f : Format} {v : Word}
    (h : strideOf (s.withStride v) (bpp f) = strideOf s (bpp f)) : (s.withStride v).geometry f = s.geometry f := by
  rw [geometry_eq, geometry_eq, h, withStride_reqOf h]
  rfl

/-- A frame fits whatever its STRIDE (R161). -/
theorem withStride_decodeFits {s : State} {f : Format} (h : DecodeFits s f) (v : Word) :
    DecodeFits (s.withStride v) f := h

/-- The scanners do not look at STRIDE. -/
theorem withStride_scanLoop (f : Format) (s : State) (v : Word) (g : Geometry) (n : Nat) (p : PxdRegs) (out : Memory) :
    scanLoop f (s.withStride v) g n p out = scanLoop f s g n p out :=
  scanLoop_otherLimit f (s := s) (s' := s.withStride v) (g := g) (fun _ => rfl) rfl n p out

theorem bpp_pos (f : Format) : 0 < bpp f := by cases f <;> decide

/-- Settles O27: the two strides give one geometry, and the scanners do not look at STRIDE. -/
theorem nonPositiveStrideIsDerived : Obligations.NonPositiveStrideIsDerived := by
  intro s f t hfits hst hlt hexec
  have hstride := withStride_strideOf hst (Nat.mul_pos (wid_pos hfits) (bpp_pos f)) hlt
  have hend := exec_decode_of_fits (withStride_decodeFits hfits (BitVec.ofNat 32 (wid s * bpp f)))
  obtain rfl := Host.Outcome.next.inj ((exec_decode_of_fits hfits).symm.trans hexec)
  rw [withStride_reqOf hstride, withStride_geometry hstride, withStride_scanLoop] at hend
  exact hend

/-! ### The two narrowings (R183) -/

/-- `s` with another setting of BAYER_NARROW. -/
def State.withNarrow (s : State) (nr : Narrow) : State := { s with cfg := { s.cfg with narrow := nr } }

/-- A site whose word is at most 1023 gives the same pixel with either narrowing. -/
theorem withNarrow_pixelOf {s : State} {f : Format} (h1 : f ≠ .nv12) (h2 : f ≠ .grey) (hw : 0 < wid s) (nr : Narrow)
    {n : Nat} (hword : wordAt s f n ≤ 1023) :
    pixelOf f (s.withNarrow nr) (s.geometry f) (pxdAt f s (s.geometry f) n) =
      pixelOf f s (s.geometry f) (pxdAt f s (s.geometry f) n) := by
  obtain ⟨hr, hc⟩ := pxdAt_position f s (s.geometry f) n hw
  have hshift : s.bayerWord (s.geometry f) (n / wid s) (n % wid s) >>> 2 ≤ 255 := by
    rw [bayerWord_eq (bpp_of_bayer h1 h2), Nat.shiftRight_eq_div_pow]; omega
  have hsample : (s.withNarrow nr).bayerSample (s.geometry f) (n / wid s) (n % wid s) =
      s.bayerSample (s.geometry f) (n / wid s) (n % wid s) :=
    (narrow8_of_le nr hshift).trans (narrow8_of_le s.cfg.narrow hshift).symm
  rw [geometry_w] at hr hc
  simp only [pixelOf_of_bayer h1 h2, bayerPixel, hr, hc, hsample]

/-- The scan of sites whose words are at most 1023 is the same with either narrowing. -/
theorem withNarrow_scanLoop {s : State} {f : Format} (h1 : f ≠ .nv12) (h2 : f ≠ .grey) (hw : 0 < wid s) (nr : Narrow)
    {n : Nat} (hwords : ∀ k, k < n → wordAt s f k ≤ 1023) (out : Memory) :
    scanLoop f (s.withNarrow nr) (s.geometry f) n (pxdStart f) out =
      scanLoop f s (s.geometry f) n (pxdStart f) out :=
  scanLoop_congr f s (s.withNarrow nr) (s.geometry f) n 0 out fun k _ hk =>
    withNarrow_pixelOf h1 h2 hw nr (hwords k (by omega))

/-- A frame fits with either narrowing (R161). -/
theorem withNarrow_decodeFits {s : State} {f : Format} (h : DecodeFits s f) (nr : Narrow) :
    DecodeFits (s.withNarrow nr) f := h

/-! BAYER_NARROW is no part of the geometry (R165). -/

theorem withNarrow_wid (s : State) (nr : Narrow) : wid (s.withNarrow nr) = wid s := rfl
theorem withNarrow_hgt (s : State) (nr : Narrow) : hgt (s.withNarrow nr) = hgt s := rfl
theorem withNarrow_geometry (s : State) (nr : Narrow) (f : Format) :
    (s.withNarrow nr).geometry f = s.geometry f := rfl

/-- Settles O29: the scan is the same with either narrowing, and nothing else looks at it. -/
theorem narrowingIrrelevantForTenBitWords : Obligations.NarrowingIrrelevantForTenBitWords := by
  intro s f nr t h1 h2 hfits hwords hexec
  have hend := exec_decode_of_fits (withNarrow_decodeFits hfits nr)
  obtain rfl := Host.Outcome.next.inj ((exec_decode_of_fits hfits).symm.trans hexec)
  rw [withNarrow_wid, withNarrow_hgt, withNarrow_geometry, withNarrow_scanLoop h1 h2 (wid_pos hfits) nr fun k hk =>
    hwords k (hk.trans_eq (Nat.mul_comm _ _))] at hend
  exact hend

end Sys2Proof.Machine
end

section
/-! SUPPORT. `csc` in the statement's words: the fields of YCC, and RGB as an integer. Then the statement about it: O8. -/

namespace Sys2Proof.Machine

open Spec

/-- A byte of a word is a quotient of its number, cut to eight bits (R13). -/
theorem byteOf_eq_ofNat_div (v : Word) (k : Nat) : byteOf v k = BitVec.ofNat 8 (v.toNat / 256 ^ k) := by
  rw [byteOf, Nat.shiftRight_eq_div_pow, Nat.pow_mul]

/-! The fields of YCC (R37). -/

theorem yccY_eq (v : Word) : yccY v = BitVec.ofNat 8 v.toNat := rfl
theorem yccCb_eq (v : Word) : yccCb v = BitVec.ofNat 8 (v.toNat / 256) := byteOf_eq_ofNat_div v 1
theorem yccCr_eq (v : Word) : yccCr v = BitVec.ofNat 8 (v.toNat / 65536) := byteOf_eq_ofNat_div v 2

/-- The word of a pixel as an integer (R202). -/
theorem rgbWord_eq_ofInt (px : Rgb) :
    rgbWord px = BitVec.ofInt 32 (px.r.toNat + 256 * px.g.toNat + 65536 * px.b.toNat) :=
  (BitVec.ofInt_natCast 32 (px.r.toNat + 256 * px.g.toNat + 65536 * px.b.toNat)).symm

/-- The word of a converted pixel is made of the three channels of R201. -/
theorem rgbWord_ycbcrToRgb (y cb cr : Byte) :
    rgbWord (ycbcrToRgb y cb cr) = BitVec.ofInt 32 (redOf y cr + 256 * greenOf y cb cr + 65536 * blueOf y cb) := by
  obtain ⟨hred, hgreen, hblue⟩ := ycbcrToRgb_toNat y cb cr
  rw [rgbWord_eq_ofInt, hred, hgreen, hblue]

/-- `csc` always ends without error, with the converted pixel's word in RGB (R202). -/
theorem exec_csc (s : State) :
    exec .csc s = .next { s with
      regs := { s.regs with rgb := rgbWord (ycbcrToRgb (yccY s.regs.ycc) (yccCb s.regs.ycc) (yccCr s.regs.ycc)) }
      status := okStatus false false
      unit := .idle } := rfl

/-- Settles O8: the converter on the three fields of YCC, its channels put together as an integer. -/
theorem cscConvertsOnePixel : Obligations.CscConvertsOnePixel := by
  intro s y cb cr
  rw [exec_csc, rgbWord_ycbcrToRgb, yccY_eq, yccCb_eq, yccCr_eq]

end Sys2Proof.Machine
end

section
/-! SUPPORT. `unpk10` in the statements' words: the bits of a sample, and the words the sample steps leave in OUT. Then
the statements about it: O21 and O22. -/

namespace Sys2Proof.Machine

open Spec

/-! ### A sample and the bits of the stream (R222) -/

/-- A sample is the ten stream bits of its place: they lie in two adjacent bytes, since `10k mod 8` is at most 6. -/
theorem isSample_sample (s : State) (base k : Nat) : IsSample s base k (s.sample base k) := by
  refine ⟨Nat.and_lt_two_pow (n := 10) _ (by decide), fun j hj => ?_⟩
  have hmask : Nat.testBit 0x3FF (9 - j) = true := by
    rw [show 0x3FF = 2 ^ 10 - 1 from rfl, Nat.testBit_two_pow_sub_one, decide_eq_true (by omega)]
  rw [State.sample, Nat.testBit_and, hmask, Bool.and_true, Nat.testBit_shiftRight, testBit_pair, streamBit]
  by_cases hlo : 6 - 10 * k % 8 + (9 - j) < 8
  · rw [if_pos hlo, show (10 * k + j) / 8 = 10 * k / 8 + 1 by omega,
      show 7 - (10 * k + j) % 8 = 6 - 10 * k % 8 + (9 - j) by omega]; rfl
  · rw [if_neg hlo, show (10 * k + j) / 8 = 10 * k / 8 by omega,
      show 7 - (10 * k + j) % 8 = 6 - 10 * k % 8 + (9 - j) - 8 by omega]

/-- The ten bits determine the sample. -/
theorem IsSample.unique {s : State} {base k v v' : Nat} (h : IsSample s base k v) (h' : IsSample s base k v') :
    v = v' := by
  obtain ⟨hlt, hbits⟩ := h
  obtain ⟨hlt', hbits'⟩ := h'
  refine Nat.eq_of_testBit_eq fun i => ?_
  by_cases hi : i < 10
  · have hplace : 9 - (9 - i) = i := by omega
    have := (hbits (9 - i) (by omega)).trans (hbits' (9 - i) (by omega)).symm
    rwa [hplace] at this
  · have hpow : 2 ^ 10 ≤ 2 ^ i := Nat.pow_le_pow_right (by decide) (by omega)
    rw [Nat.testBit_lt_two_pow (by omega), Nat.testBit_lt_two_pow (by omega)]

/-- A 10-bit value whose bits stand in the stream, most significant first, is the sample there (R222, R226). -/
theorem isSample_toNat {s : State} {base k : Nat} {v : BitVec 10}
    (h : ∀ j, j < 10 → v.getLsbD (9 - j) = streamBit s base (10 * k + j)) : IsSample s base k v.toNat :=
  ⟨v.isLt, h⟩

/-! ### The words in OUT (R224) -/

/-- The two bytes of a sample, low byte first, make the sample. -/
theorem sample_eq_of_bytes (s : State) (base k : Nat) :
    (BitVec.ofNat 8 (s.sample base k % 256)).toNat + 256 * (BitVec.ofNat 8 (s.sample base k >>> 8)).toNat =
      s.sample base k := by
  obtain ⟨hlt, -⟩ := isSample_sample s base k
  rw [BitVec.toNat_ofNat, BitVec.toNat_ofNat, Nat.shiftRight_eq_div_pow]
  omega

/-- The 16-bit little-endian word `m` of OUT. -/
def Memory.outWord16 (out : Memory) (m : Nat) : Nat :=
  (out.outByte (2 * m)).toNat + 256 * (out.outByte (2 * m + 1)).toNat

/-- Word `m` of the raster, after its sample steps, is the sample at row `m / sw` and place `m % sw`. -/
theorem outWord16_unpkLoop (s : State) {rw sw n m : Nat} (out : Memory) (hsw : 0 < sw) (hm : m < n) :
    (unpkLoop s rw sw n (unpkAt sw 0) out).2.outWord16 m = s.sample (m / sw * rw) (m % sw) := by
  have hlow := get?_unpkLoop s rw sw n 0 (2 * m) out hsw
  have hhigh := get?_unpkLoop s rw sw n 0 (2 * m + 1) out hsw
  rw [if_pos (by omega), show 2 * m / 2 = m by omega, show 2 * m % 2 = 0 by omega] at hlow
  rw [if_pos (by omega), show (2 * m + 1) / 2 = m by omega, show (2 * m + 1) % 2 = 1 by omega] at hhigh
  rw [Memory.outWord16, Memory.outByte, Memory.outByte, hlow, hhigh]
  exact sample_eq_of_bytes s _ _

/-- Past the raster the sample steps leave OUT alone; a row may hold no sample. -/
theorem outByte_unpkLoop_of_le (s : State) {rw sw rc a : Nat} (out : Memory) (ha : 2 * sw * rc ≤ a) :
    (unpkLoop s rw sw (rc * sw) { r := 0, k := 0 } out).2.outByte a = out.outByte a := by
  rcases writesWithin_unpk s rw sw rc a with ⟨hlt, -⟩ | hleft
  · exact absurd hlt (Nat.not_lt.2 ha)
  · exact hleft out

/-- `unpk10` on rows that fit IN and samples that fit OUT (R224). -/
theorem execUnpk10_of_fits {s : State} (hin : s.regs.roww.toNat * s.regs.rowc.toNat ≤ s.cfg.inSize)
    (hout : 2 * (8 * s.regs.roww.toNat / 10) * s.regs.rowc.toNat ≤ s.cfg.outSize) :
    execUnpk10 s = .next { s with
      outMem := (unpkLoop s s.regs.roww.toNat (8 * s.regs.roww.toNat / 10)
        (s.regs.rowc.toNat * (8 * s.regs.roww.toNat / 10)) { r := 0, k := 0 } s.outMem).2
      regs := { s.regs with sampw := BitVec.ofNat 32 (8 * s.regs.roww.toNat / 10) }
      status := okStatus false false
      unit := .idle } :=
  if_neg (not_or.2 ⟨Nat.not_lt.2 hin, Nat.not_lt.2 hout⟩)

/-- Settles O21: the capacity test, then the raster word by word. -/
theorem unpk10UnpacksBitstream : Obligations.Unpk10UnpacksBitstream := by
  intro s
  refine ⟨fun hlong => if_pos hlong, fun hin hout => ⟨_, execUnpk10_of_fits hin hout, rfl, fun r k hr hk => ?_, ?_⟩⟩
  · obtain ⟨hm, hrow, hplace⟩ := raster_index _ _ r k hr hk
    have hword := outWord16_unpkLoop s (rw := s.regs.roww.toNat) s.outMem (Nat.zero_lt_of_lt hk) hm
    rw [hrow, hplace, unpkAt, Nat.zero_div, Nat.zero_mod] at hword
    exact (congrArg (IsSample s _ k) hword).mpr (isSample_sample s _ k)
  · exact fun a ha => outByte_unpkLoop_of_le s s.outMem ha

/-! ### The round trip (R226) -/

/-- Settles O22: each word is the sample of its place, and the packed value is that sample too. -/
theorem unpk10RecoversPackedValues : Obligations.Unpk10RecoversPackedValues := by
  intro s n vals hlen hrowc hroww hin hout hbits
  have hsw : 8 * s.regs.roww.toNat / 10 = n := by omega
  obtain ⟨t, hexec, ht, hsamples, -⟩ := (unpk10UnpacksBitstream s).2 hin (by rwa [hsw, hrowc])
  rw [hsw, hrowc] at hsamples
  refine ⟨t, hexec, by rw [ht, hsw], by rw [ht], fun r row k v hr hk => ?_⟩
  obtain ⟨hrlt, -⟩ := List.getElem?_eq_some_iff.1 hr
  obtain ⟨hklt, -⟩ := List.getElem?_eq_some_iff.1 hk
  rw [hlen row (List.mem_of_getElem? hr)] at hklt
  have hword := IsSample.unique (hsamples r k hrlt hklt) (isSample_toNat fun j hj => hbits r row k v j hr hk hj)
  omega

end Sys2Proof.Machine
end

section
/-! SUPPORT. `hexdec` in the statement's words: the decoder's walk over the bytes of the text is a walk over its rows
and runs, and that walk meets the verdict of the rows. Then the statement about it: O20. -/

namespace Sys2Proof.Machine

open Spec

/-! ### The walk over runs and rows -/

/-- What closing the run `run` does: two digits put their byte, any other number is an error (R212, R213). -/
def putRun (outSize : Nat) (run : List Byte) (h : HexRegs) (out : Memory) : HexRun :=
  if run.length ≠ 2 then .failed .invalidValueWidth
  else if outSize ≤ h.outPtr then .failed .allocationFailed
  else .going { h with outPtr := h.outPtr + 1, rowBytes := h.rowBytes + 1 } (out.put h.outPtr (runByte run))

section PutRun

variable {n : Nat} {run : List Byte} {h : HexRegs} (out : Memory)

theorem putRun_of_ne_two (hl : run.length ≠ 2) : putRun n run h out = .failed .invalidValueWidth := if_pos hl

theorem putRun_of_full (hl : run.length = 2) (hfull : n ≤ h.outPtr) :
    putRun n run h out = .failed .allocationFailed :=
  (if_neg (not_not.2 hl)).trans (if_pos hfull)

theorem putRun_of_two (hl : run.length = 2) (hroom : h.outPtr < n) :
    putRun n run h out =
      .going { h with outPtr := h.outPtr + 1, rowBytes := h.rowBytes + 1 } (out.put h.outPtr (runByte run)) :=
  (if_neg (not_not.2 hl)).trans (if_neg (Nat.not_le.2 hroom))

end PutRun

/-- The walk over the runs of one row, up to its closing. -/
def walkRuns (outSize : Nat) : List (List Byte) → HexRegs → Memory → HexRun
  | [], h, out => .going h out
  | run :: rest, h, out => (putRun outSize run h out).andThen (walkRuns outSize rest)

/-- The walk over whole rows. -/
def walkRows (outSize : Nat) : List (List (List Byte)) → HexRegs → Memory → HexRun
  | [], h, out => .going h out
  | row :: rest, h, out =>
    (walkRuns outSize row h out).andThen fun h1 out1 => (closeRow h1 out1).andThen (walkRows outSize rest)

/-! ### Going on -/

@[simp] theorem going_andThen (h : HexRegs) (out : Memory) (k : HexRegs → Memory → HexRun) :
    (HexRun.going h out).andThen k = k h out := rfl

theorem andThen_assoc (r : HexRun) (k l : HexRegs → Memory → HexRun) :
    (r.andThen k).andThen l = r.andThen fun h out => (k h out).andThen l := by
  cases r <;> rfl

theorem walkRuns_append (n : Nat) (a b : List (List Byte)) (h : HexRegs) (out : Memory) :
    walkRuns n (a ++ b) h out = (walkRuns n a h out).andThen (walkRuns n b) := by
  induction a generalizing h out with
  | nil => rfl
  | cons run a ih =>
    rw [List.cons_append, walkRuns, walkRuns, andThen_assoc]
    exact congrArg _ (funext₂ ih)

theorem walkRows_append_cons (n : Nat) (a row : List (List Byte)) (rest : List (List (List Byte))) (h : HexRegs)
    (out : Memory) :
    walkRows n ((a ++ row) :: rest) h out = (walkRuns n a h out).andThen (walkRows n (row :: rest)) := by
  simp only [walkRows, walkRuns_append, andThen_assoc]

/-! ### The registers between two runs -/

/-- The registers without the cursor and the digits pending: what outlasts a run. -/
def HexRegs.settled (h : HexRegs) : HexRegs := { h with p := 0, runLen := 0, runVal := 0 }

/-- A point of the walk, without the cursor and the digits pending. -/
def HexRun.settled : HexRun → HexRun
  | .going h out => .going h.settled out
  | .failed e => .failed e

/-- No digits are pending. -/
def HexRegs.NoDigits (h : HexRegs) : Prop := h.runLen = 0 ∧ h.runVal = 0

theorem going_of_settled {r : HexRun} {h : HexRegs} {out : Memory} (e : r.settled = .going h out) :
    ∃ h', r = .going h' out ∧ h'.settled = h := by
  cases r with
  | going h' out' => cases e; exact ⟨h', rfl, rfl⟩
  | failed e' => cases e

theorem failed_of_settled {r : HexRun} {e : Error} (h : r.settled = .failed e) : r = .failed e := by
  cases r with
  | going h' out' => cases h
  | failed e' => exact h

theorem HexRegs.NoDigits.pending {h : HexRegs} (hn : h.NoDigits) : Pending h [] := Pending.nil h hn.1 hn.2

/-- Two walks that agree up to the cursor and the digits pending, so far and from there on. -/
theorem settled_andThen {r r' : HexRun} {k k' : HexRegs → Memory → HexRun} (hr : r.settled = r')
    (hk : ∀ h out, r = .going h out → (k h out).settled = k' h.settled out) :
    (r.andThen k).settled = r'.andThen k' := by
  subst hr
  cases r with
  | going h out => exact hk h out rfl
  | failed e => rfl

theorem closeRun_noDigits {n : Nat} {h h' : HexRegs} {out out' : Memory}
    (e : closeRun n h out = .going h' out') : h'.NoDigits := by
  rcases closeRun_cases n h out with ⟨-, c⟩ | ⟨-, -, c⟩ | ⟨-, -, c⟩ | ⟨-, -, c⟩ <;> rw [c] at e <;> cases e
  · exact ⟨rfl, rfl⟩
  · exact ⟨rfl, rfl⟩

/-- Closing the pending run is a step of the walk over runs, if there is a run at all (R213). -/
theorem settled_closeRun {n : Nat} {h : HexRegs} {r : List Byte} (out : Memory) (hp : Pending h r) :
    (closeRun n h out).settled = walkRuns n (runsOf r) h.settled out := by
  rw [runsOf_hex r hp.hex]
  rcases closeRun_pending n h r out hp with ⟨hr, c⟩ | ⟨hr, hlt, c⟩ | ⟨hr, hle, c⟩ | ⟨hr, hl, c⟩
  · rw [c, if_pos hr]; rfl
  · rw [c, if_neg (List.ne_nil_of_length_eq_add_one hr), walkRuns, putRun_of_two (h := h.settled) out hr hlt]; rfl
  · rw [c, if_neg (List.ne_nil_of_length_eq_add_one hr), walkRuns, putRun_of_full (h := h.settled) out hr hle]; rfl
  · rw [c, if_neg hr, walkRuns, putRun_of_ne_two out hl]; rfl

theorem closeRow_noDigits {h h' : HexRegs} {out out' : Memory} (hn : h.NoDigits)
    (e : closeRow h out = .going h' out') : h'.NoDigits := by
  rcases closeRow_cases h out with ⟨-, c⟩ | ⟨-, -, c⟩ | ⟨-, -, -, c⟩ | ⟨-, -, -, c⟩ <;> rw [c] at e <;> cases e
  all_goals exact hn

/-- Closing a row looks neither at the cursor nor at the digits. -/
theorem settled_closeRow (h : HexRegs) (out : Memory) : (closeRow h out).settled = closeRow h.settled out := by
  unfold closeRow HexRegs.settled
  split
  · rfl
  · split
    · rfl
    · split <;> rfl

/-- A row closer closes the pending run, then the row (R213); the walk goes on from there. -/
theorem settled_closeBoth {n : Nat} {h : HexRegs} {r : List Byte} (out : Memory) (hp : Pending h r)
    {k : HexRegs → Memory → HexRun} {rest : List (List (List Byte))}
    (hk : ∀ (h1 : HexRegs) (out1 : Memory), h1.NoDigits → (k h1 out1).settled = walkRows n rest h1.settled out1) :
    ((closeBoth n h out).andThen k).settled = walkRows n (runsOf r :: rest) h.settled out := by
  rw [closeBoth_eq, andThen_assoc, walkRows]
  refine settled_andThen (settled_closeRun out hp) fun h1 out1 e1 => ?_
  exact settled_andThen (settled_closeRow h1 out1) fun h2 out2 e2 =>
    hk h2 out2 (closeRow_noDigits (closeRun_noDigits e1) e2)

/-- The walk over the text, with the digits `r` pending, is the walk over the rows `r` and the text are cut into. -/
theorem settled_hexLoop (n : Nat) (t : List Byte) {h : HexRegs} {r : List Byte} (out : Memory) (hp : Pending h r) :
    (hexLoop n t h out).settled = walkRows n (hexRows (r ++ t)) h.settled out := by
  induction t generalizing h r out with
  | nil =>
    rw [List.append_nil, hexRows_hex r hp.hex, hexLoop, ← settled_closeBoth out hp (k := .going) fun _ _ _ => rfl]
    cases closeBoth n h out <;> rfl
  | cons c t ih =>
    rw [hexLoop_cons, hexChar]
    have next : ∀ (h1 : HexRegs) (out1 : Memory), h1.NoDigits →
        (hexLoop n t { h1 with p := h1.p + 1 } out1).settled = walkRows n (hexRows t) h1.settled out1 :=
      fun h1 out1 hn => ih out1 (r := []) (HexRegs.NoDigits.pending (h := { h1 with p := h1.p + 1 }) hn)
    by_cases hc : isHex c = true
    · rw [if_pos hc, going_andThen, ih out (hp.digit h r c hc), List.append_assoc, List.singleton_append]
      rfl
    · rw [if_neg hc]
      by_cases hnl : c = newline
      · rw [if_pos hnl, hnl, hexRows_newline r t hp.hex]
        exact settled_closeBoth out hp next
      · rw [if_neg hnl]
        obtain ⟨row, rest, hrows, hcut⟩ := hexRows_separator r t c hp.hex (Bool.not_eq_true _ ▸ hc) hnl
        rw [hcut, walkRows_append_cons, ← hrows]
        exact settled_andThen (settled_closeRun out hp) fun h1 out1 e => next h1 out1 (closeRun_noDigits e)

/-! ### The walk meets the verdict (R213, R251) -/

/-- A walk as the verdict says: to `h` and `out` when there is no fault, else to the error of that code. -/
def HexRun.Meets (r : HexRun) (verdict : Option (BitVec 4)) (h : HexRegs) (out : Memory) : Prop :=
  (verdict = none ∧ r = .going h out) ∨ ∃ e, verdict = some (errorCode e) ∧ r = .failed e

/-- Runs of writes one after the other. -/
theorem putBytes_append (m : Memory) (a : Nat) (bs cs : List Byte) :
    m.putBytes a (bs ++ cs) = (m.putBytes a bs).putBytes (a + bs.length) cs := by
  induction bs generalizing m a with
  | nil => rfl
  | cons b bs ih =>
    rw [List.cons_append, Memory.putBytes, ih, Nat.add_right_comm]; rfl

/-- The registers when `m` more bytes of the row are out. -/
def HexRegs.afterRuns (h : HexRegs) (m : Nat) : HexRegs :=
  { h with outPtr := h.outPtr + m, rowBytes := h.rowBytes + m }

/-- A row's runs put their bytes, or the first fault ends the walk. -/
theorem walkRuns_meets (n : Nat) (row : List (List Byte)) (h : HexRegs) (out : Memory) :
    (walkRuns n row h out).Meets (runsVerdict n h.outPtr row) (h.afterRuns row.length)
      (out.putBytes h.outPtr (row.map runByte)) := by
  induction row generalizing h out with
  | nil => exact .inl ⟨rfl, rfl⟩
  | cons run rest ih =>
    rw [walkRuns, runsVerdict]
    by_cases hl : run.length = 2
    · rw [if_neg (not_not.2 hl)]
      by_cases hfull : n ≤ h.outPtr
      · rw [if_pos hfull, putRun_of_full out hl hfull]
        exact .inr ⟨.allocationFailed, rfl, rfl⟩
      · rw [if_neg hfull, putRun_of_two out hl (Nat.not_le.1 hfull), going_andThen]
        have := ih { h with outPtr := h.outPtr + 1, rowBytes := h.rowBytes + 1 } (out.put h.outPtr (runByte run))
        simpa only [HexRegs.afterRuns, List.length_cons, List.map_cons, Memory.putBytes, Nat.add_assoc,
          Nat.add_comm 1] using this
    · rw [if_pos hl, putRun_of_ne_two out hl]
      exact .inr ⟨.invalidValueWidth, rfl, rfl⟩

/-- The registers when a row of `m` bytes is closed: it is counted, and `m` is the width expected from now on. -/
def HexRegs.afterRow (h : HexRegs) (m : Nat) : HexRegs :=
  { h with outPtr := h.outPtr + m, firstW := m, rows := h.rows + 1 }

/-- The registers when these rows are closed. -/
def HexRegs.afterRows (h : HexRegs) (rows : List (List (List Byte))) : HexRegs :=
  { h with
    outPtr := h.outPtr + rows.flatten.length
    firstW := if h.firstW = 0 then rowWidth rows else h.firstW
    rows := h.rows + rowCount rows }

/-- Between two rows: no byte in the open row, and no row counted while the width is unknown (R214). -/
structure HexRegs.AtRowStart (h : HexRegs) : Prop where
  noBytes : h.rowBytes = 0
  noRows : h.firstW = 0 → h.rows = 0

theorem HexRegs.AtRowStart.afterRow {h : HexRegs} (hs : h.AtRowStart) {m : Nat} (hm : m ≠ 0) :
    (h.afterRow m).AtRowStart :=
  ⟨hs.noBytes, fun h0 => absurd h0 hm⟩

/-- A row without a byte is skipped (R215). -/
theorem closeRow_atRowStart {h : HexRegs} (out : Memory) (hs : h.AtRowStart) : closeRow h out = .going h out := by
  rw [closeRow, if_pos hs.noBytes, ← hs.noBytes]

/-- A row that is the first, or as long as the first, is counted (R213). -/
theorem closeRow_of_fits {h : HexRegs} {m : Nat} (out : Memory) (hs : h.AtRowStart) (hm : m ≠ 0)
    (hw : h.firstW = 0 ∨ m = h.firstW) : closeRow (h.afterRuns m) out = .going (h.afterRow m) out := by
  obtain ⟨hbytes, hrows⟩ := hs
  by_cases h0 : h.firstW = 0
  · simp [closeRow, HexRegs.afterRuns, HexRegs.afterRow, hbytes, hm, h0, hrows h0]
  · have hm' : m = h.firstW := hw.resolve_left h0
    simp [closeRow, HexRegs.afterRuns, HexRegs.afterRow, hbytes, hm', h0]

/-- A row of another width is an error (R213). -/
theorem closeRow_of_differs {h : HexRegs} {m : Nat} (out : Memory) (hs : h.AtRowStart) (hm : m ≠ 0)
    (hw : ¬ (h.firstW = 0 ∨ m = h.firstW)) : closeRow (h.afterRuns m) out = .failed .inconsistentRowWidth := by
  obtain ⟨h0, h1⟩ := not_or.1 hw
  simp [closeRow, HexRegs.afterRuns, hs.noBytes, hm, h0, h1]

/-- A row that is counted, then the others. -/
theorem afterRow_afterRows {h : HexRegs} {row : List (List Byte)} (rest : List (List (List Byte))) (hrow : row ≠ [])
    (hw : h.firstW = 0 ∨ row.length = h.firstW) :
    (h.afterRow row.length).afterRows rest = h.afterRows (row :: rest) := by
  have hfirst : (if h.firstW = 0 then row.length else h.firstW) = row.length := by
    split
    · rfl
    · rename_i h0; exact (hw.resolve_left h0).symm
  simp [HexRegs.afterRow, HexRegs.afterRows, rowWidth_cons, rowCount_cons, hrow, hfirst, Nat.add_assoc]

/-- The rows put their bytes and are counted, or the first fault ends the walk. -/
theorem walkRows_meets (n : Nat) (rows : List (List (List Byte))) {h : HexRegs} (out : Memory) (hs : h.AtRowStart) :
    (walkRows n rows h out).Meets (rowsVerdict n h.firstW h.outPtr rows) (h.afterRows rows)
      (out.putBytes h.outPtr (rows.flatten.map runByte)) := by
  induction rows generalizing h out with
  | nil => exact .inl ⟨rfl, by cases h; simp [walkRows, HexRegs.afterRows, rowWidth, rowCount, Memory.putBytes]⟩
  | cons row rest ih =>
    rw [walkRows, rowsVerdict]
    by_cases hrow : row = []
    · have hskip : h.afterRows ([] :: rest) = h.afterRows rest := by
        simp [HexRegs.afterRows, rowWidth_cons, rowCount_cons]
      subst hrow
      rw [walkRuns, going_andThen, closeRow_atRowStart out hs, going_andThen, hskip]
      exact ih out hs
    · rcases walkRuns_meets n row h out with ⟨hv, hwalk⟩ | ⟨e, hv, hwalk⟩
      · have hl : row.length ≠ 0 := mt List.length_eq_zero_iff.1 hrow
        rw [hv, hwalk, going_andThen]
        dsimp only
        rw [if_neg hrow]
        by_cases hw : h.firstW = 0 ∨ row.length = h.firstW
        · rw [if_pos hw, closeRow_of_fits _ hs hl hw, going_andThen, ← afterRow_afterRows rest hrow hw,
            List.flatten_cons, List.map_append, putBytes_append, List.length_map]
          exact ih _ (hs.afterRow hl)
        · rw [if_neg hw, closeRow_of_differs _ hs hl hw]
          exact .inr ⟨.inconsistentRowWidth, rfl, rfl⟩
      · rw [hv, hwalk]
        exact .inr ⟨e, rfl, rfl⟩

/-! ### `hexdec` -/

/-- The walk of `hexdec` over the text `x`, by the verdict of its rows (R214). -/
theorem hexLoop_meets (n p : Nat) (x : List Byte) (out : Memory) :
    (hexLoop n x (hexStart p) out).settled.Meets (rowsVerdict n 0 0 (hexRows x))
      ((hexStart 0).afterRows (hexRows x)) (out.putBytes 0 ((hexRows x).flatten.map runByte)) := by
  rw [settled_hexLoop n x out (HexRegs.NoDigits.pending ⟨rfl, rfl⟩), List.nil_append]
  exact walkRows_meets n (hexRows x) out ⟨rfl, fun _ => rfl⟩

/-- `hexdec` on a text whose rows have a fault: the fault's code, OUT unspecified (R217). -/
theorem execHexdec_of_fault {s : State} {e : Error} (hfit : WindowFits s)
    (hloop : hexLoop s.cfg.outSize s.text (hexStart (u32 s.regs.tpos)) s.outMem = .failed e) :
    ∃ t, exec .hexdec s = .next t ∧ t = { failed s (errorCode e) with outMem := t.outMem, draws := t.draws } := by
  refine ⟨_, execHexdec_of_failed s e (textTooLong_of_windowFits s hfit) hloop, ?_⟩
  have herr : endStatus (errorCode e) false false = errStatus (errorCode e) := by
    simp only [endStatus, errStatus, errorCode_bne]
  exact congrArg (fun st => { s.spoilOut with status := st, unit := .idle }) herr

/-- `hexdec` on a text whose rows have no fault: their bytes in OUT, their shape in ROWW and ROWC (R214). -/
theorem execHexdec_of_rows {s : State} {rows : List (List (List Byte))} {bs : List Byte} (hfit : WindowFits s)
    (hloop : (hexLoop s.cfg.outSize s.text (hexStart (u32 s.regs.tpos)) s.outMem).settled =
      .going ((hexStart 0).afterRows rows) (s.outMem.putBytes 0 bs)) :
    exec .hexdec s = .next { s with
      outMem := s.outMem.putBytes 0 bs
      regs := { s.regs with roww := BitVec.ofNat 32 (rowWidth rows), rowc := BitVec.ofNat 32 (rowCount rows) }
      status := okStatus false false
      unit := .idle } := by
  obtain ⟨h, hgoing, hregs⟩ := going_of_settled hloop
  have hwidth : h.firstW = rowWidth rows := congrArg HexRegs.firstW hregs
  have hcount : h.rows = rowCount rows := (congrArg HexRegs.rows hregs).trans (Nat.zero_add _)
  rw [← hwidth, ← hcount]
  exact execHexdec_of_going s h _ (textTooLong_of_windowFits s hfit) hgoing

/-- Settles O20: the walk meets the verdict, and without a fault the bytes in OUT are the runs' bytes in one go. -/
theorem hexdecDecodesRows : Obligations.HexdecDecodesRows := by
  intro s x hfit htext
  have hmeets := hexLoop_meets s.cfg.outSize (u32 s.regs.tpos) x s.outMem
  obtain rfl := text_of_textIs s x htext
  rcases hmeets with ⟨hnone, hend⟩ | ⟨e, hsome, hend⟩
  · have hout := outByte_putBytes s 0 (bs := (hexRows s.text).flatten.map runByte)
    refine ⟨fun _ => ⟨_, execHexdec_of_rows hfit hend, rfl, fun k b hk => ?_, fun a ha => ?_⟩,
      fun code hcode => absurd (hnone.symm.trans hcode) (Option.some_ne_none code).symm⟩
    · obtain ⟨hlt, -⟩ := List.getElem?_eq_some_iff.1 hk
      refine (hout k).trans ((if_pos ⟨Nat.zero_le k, by rwa [Nat.zero_add]⟩).trans ?_)
      rw [Nat.sub_zero, List.getD_eq_getElem?_getD, hk]; rfl
    · exact (hout a).trans (if_neg fun hlt => by rw [List.length_map] at hlt; omega)
  · refine ⟨fun hnone => absurd (hnone.symm.trans hsome) (Option.some_ne_none _).symm, fun code hcode => ?_⟩
    obtain rfl := Option.some.inj (hsome.symm.trans hcode)
    exact execHexdec_of_fault hfit (failed_of_settled hend)

end Sys2Proof.Machine
end

section
/-! SUPPORT. What an error leaves of the state before it, and when the errors of the empty symbol and of the capacity
are raised. Settles O13, O17, O18 and O32. -/

namespace Sys2Proof.Machine

open Spec

section Errors

variable {s t : State}

/-! ### What an error leaves -/

/-- A command's end keeps what the command has kept. -/
theorem Kept.finish {u : State} (h : Kept s u) (e : BitVec 4) (sh fo : Bool) : Kept s (u.finish e sh fo) :=
  { h with }

/-- Whatever word CMD holds, running it leaves the parameters, the ROM and IN alone (R252 (e)). -/
theorem runCommand_kept (h : runCommand s = .next t) : Kept s t := by
  rcases runCommand_cases s with ⟨i, hi⟩ | hillegal
  · obtain ⟨u, e, sh, fo, ends⟩ := exec_ends i s
    cases (hi.trans ends.next).symm.trans h
    exact ends.kept.finish e sh fo
  · cases hillegal.symm.trans h
    exact ⟨rfl, rfl, rfl, rfl, rfl, rfl, rfl⟩

/-- The end with an error over a state that has kept the registers: only STATUS, OUT and the draws can differ. -/
theorem finish_error_eq {u : State} (h : Kept s u) (hregs : u.regs = s.regs) {e : BitVec 4} (he : e ≠ 0) :
    u.finish e false false = { failed s e with outMem := u.outMem, draws := u.draws } := by
  obtain ⟨hcfg, hcmd, hctrl, hrom, hin, hhost, hreply⟩ := h
  have hstatus : endStatus e false false = errStatus e := by rw [endStatus, bne_iff_ne.2 he]; rfl
  simp only [State.finish, failed, hstatus, hcfg, hcmd, hctrl, hregs, hrom, hin, hhost, hreply]

/-- A command that ends with an error (R252): the state before it with STATUS updated, and after `hexdec` other contents
of OUT (R217). -/
theorem exec_error {i : Instr} (h : exec i s = .next t) (herr : t.status.err = true) :
    t = { failed s t.status.ecode with outMem := t.outMem, draws := t.draws } ∧
      (i ≠ .hexdec → t = failed s t.status.ecode) := by
  obtain ⟨u, e, sh, fo, ends⟩ := exec_ends i s
  cases ends.next.symm.trans h
  have he : e ≠ 0 := bne_iff_ne.1 herr
  obtain ⟨rfl, rfl⟩ := ends.noFlags he
  have hend := finish_error_eq ends.kept (ends.regs he) he
  refine ⟨hend, fun hi => hend.trans ?_⟩
  obtain ⟨hout, hdraws⟩ := ends.out he hi
  rw [hout, hdraws]; rfl

/-- Whatever word CMD holds, an error is precise (R252). -/
theorem runCommand_error (h : runCommand s = .next t) (herr : t.status.err = true) :
    t = { failed s t.status.ecode with outMem := t.outMem, draws := t.draws } ∧
      (s.cmd ≠ encode .hexdec → t = failed s t.status.ecode) := by
  cases hdec : decode s.cmd with
  | ok i =>
    obtain ⟨hend, hkept⟩ := exec_error ((runCommand_of_decode hdec).symm.trans h) herr
    exact ⟨hend, fun hcmd => hkept fun hi => hcmd (hi ▸ eq_encode_of_decode hdec)⟩
  | illegal why =>
    have hill : runCommand s = .next (failed s 9) := by rw [runCommand, hdec]; rfl
    cases hill.symm.trans h
    exact ⟨rfl, fun _ => rfl⟩

/-! ### The empty symbol and the text beyond IN -/

/-- Both parse commands are `parseToken`, each with its own name path (R130, R131). -/
theorem exists_exec_eq_parseToken {i : Instr} (hi : i = .parseN ∨ i = .parseR) (s : State) :
    ∃ onName, exec i s = parseToken onName s := by
  rcases hi with rfl | rfl
  · exact ⟨fun _ u => raise u .numericOnlyExpected, rfl⟩
  · exact ⟨takeName, rfl⟩

theorem exec_parse_of_textTooLong {i : Instr} (hi : i = .parseN ∨ i = .parseR) (hl : s.textTooLong = true) :
    exec i s = .next (failed s 8) := by
  obtain ⟨onName, hexec⟩ := exists_exec_eq_parseToken hi s
  exact hexec.trans (if_pos hl)

/-- The empty text, and one whose first byte is no word character, have no word byte at their start (R15, R34). -/
theorem isWord_head_text (h : s.regs.tend.toNat ≤ s.regs.tpos.toNat ∨ ¬ WordByte (s.inByte s.regs.tpos.toNat)) :
    ∀ b, s.text.head? = some b → isWord b = false := by
  intro b hb
  rcases Nat.lt_or_ge s.regs.tpos.toNat s.regs.tend.toNat with hlt | hempty
  · obtain ⟨t, ht⟩ := text_cons_of_lt s hlt
    rw [ht] at hb
    cases hb
    rw [Bool.eq_false_iff, ne_eq, isWord_iff]
    exact h.resolve_left (Nat.not_le.2 hlt)
  · rw [text_nil_of_le s hempty] at hb
    cases hb

/-- On a text inside IN that does not start with a word byte there is no symbol (R125, R244). -/
theorem exec_parse_of_no_symbol {i : Instr} (hi : i = .parseN ∨ i = .parseR) (hl : s.textTooLong = false)
    (hhead : ∀ b, s.text.head? = some b → isWord b = false) : exec i s = .next (failed s 1) := by
  obtain ⟨onName, hexec⟩ := exists_exec_eq_parseToken hi s
  rw [hexec, parseToken, if_neg (by simp [hl])]
  cases ht : s.text with
  | nil => rfl
  | cons b t =>
    have hw : isWord b = false := hhead b (by rw [ht]; rfl)
    simp only [hw]; rfl

theorem execHexdec_of_textTooLong (hl : s.textTooLong = true) :
    execHexdec s = .next { failed s 8 with outMem := Memory.unspecified s.draws, draws := s.draws + 1 } :=
  if_pos hl

/-! ### Capacity -/

/-- Exactness from the two outcomes: code 8 when `P`, else an end without error. -/
theorem exists_ecode_eight_iff {P : Prop} {o : Host.Outcome State Fault Refusal} (hfail : P → o = .next (failed s 8))
    (hok : ¬ P → ∃ t, o = .next t ∧ t.status.ecode = 0) : ∃ t, o = .next t ∧ (t.status.ecode = 8 ↔ P) := by
  by_cases h : P
  · exact ⟨_, hfail h, iff_of_true rfl h⟩
  · obtain ⟨t, ht, hcode⟩ := hok h
    exact ⟨t, ht, iff_of_false (by rw [hcode]; decide) h⟩

/-- The size of the raster of a frame with positive sides, in exact integers (R10, R168). -/
theorem rasterSize_eq (hw : 0 < s.regs.width.toInt) (hh : 0 < s.regs.height.toInt) :
    3 * s.regs.width.toInt * s.regs.height.toInt = (3 * wid s * hgt s : Nat) := by
  rw [Nat.cast_mul, Nat.cast_mul, wid, hgt, Int.toNat_of_nonneg hw.le, Int.toNat_of_nonneg hh.le]; rfl

end Errors

/-- Settles O32: the engine's turn is `runCommand`, whose errors keep everything but STATUS and what `hexdec` leaves. -/
theorem errorsArePrecise : Obligations.ErrorsArePrecise := by
  intro s t hturn hstep
  have hrun := (step_of_engineTurn s hturn).symm.trans hstep
  have hkept := runCommand_kept hrun
  refine ⟨⟨hkept.inMem, hkept.rom⟩, fun herr => ?_⟩
  obtain ⟨hend, hother⟩ := runCommand_error hrun herr
  exact ⟨congrArg State.status hend, (congrArg State.regs hend :), hother, fun _ => hend⟩

/-- Settles O13: such a text has no word byte at its start, and `lkname` does not look the empty text up. -/
theorem emptySymbolWhenNothingConsumable : Obligations.EmptySymbolWhenNothingConsumable := by
  intro s hfits
  have hl := textTooLong_of_windowFits s hfits
  refine ⟨fun hnone => ?_, fun hempty => ?_⟩
  · have hhead := isWord_head_text hnone
    exact ⟨exec_parse_of_no_symbol (.inl rfl) hl hhead, exec_parse_of_no_symbol (.inr rfl) hl hhead⟩
  · exact ((lknameLooksUpWholeText s).2 s.text hfits (textIs_text s)).2 (.inl (text_nil_of_le s hempty))

/-- Settles O17: each text command checks its text before anything else. -/
theorem textBeyondInIsAllocationFailed : Obligations.TextBeyondInIsAllocationFailed := by
  intro s hlt hbeyond
  have hl : s.textTooLong = true := decide_eq_true ⟨hlt, hbeyond⟩
  exact ⟨exec_parse_of_textTooLong (.inl rfl) hl, exec_parse_of_textTooLong (.inr rfl) hl, if_pos hl, _,
    execHexdec_of_textTooLong hl, rfl⟩

/-- Settles O18: what does not fit ends with code 8, what fits without error. -/
theorem capacityChecksAreExact : Obligations.CapacityChecksAreExact := by
  intro s
  refine ⟨exists_ecode_eight_iff (condCopiesConditionedSource s).1 fun hfits => ?_,
    exists_ecode_eight_iff (unpk10UnpacksBitstream s).1 fun hfits => ?_, fun f hfmt hw hh => ?_⟩
  · rw [not_or, Nat.not_lt, Nat.not_lt] at hfits
    exact ⟨_, execCond_of_fits hfits.1 hfits.2, rfl⟩
  · rw [not_or, Nat.not_lt, Nat.not_lt] at hfits
    exact ⟨_, execUnpk10_of_fits hfits.1 hfits.2, rfl⟩
  · rw [rasterSize_eq hw hh, Nat.cast_lt]
    refine exists_ecode_eight_iff (((decodeErrorsInOrder s hfmt.1).2 f hfmt).2 hw hh) fun hfits => ?_
    rw [not_or, Nat.not_lt, Nat.not_lt] at hfits
    exact ⟨_, exec_decode_of_fits ⟨hfmt, hw, hh, hfits⟩, rfl⟩

end Sys2Proof.Machine
end

section
/-! SUPPORT. The busy rule (R286): what the host may do while a command runs, and what it is answered. Settles O46. -/

namespace Sys2Proof.Machine

/-- A STATUS read while a command runs shows BUSY = 1, whatever is drawn for the other bits. -/
theorem busyStatus_getLsbD_zero (s : State) : s.busyStatus.getLsbD 0 = true := by
  have hone : (1 : Word).getLsbD 0 = true := by decide
  rw [State.busyStatus, BitVec.getLsbD_or, hone, Bool.or_true]

/-- Only the STATUS read and the reset are inside the contract while a command runs. -/
theorem hostBusy_refused (op : HostOp) (s : State) (hread : op ≠ .read .word 0x04) (hreset : op ≠ .reset) :
    hostBusy op s = .refused .hostWhileBusy := by
  unfold hostBusy
  split
  case h_1 => exact absurd rfl hread
  case h_2 => exact absurd rfl hreset
  case h_3 => rfl

/-- Settles O46: the event is served by `hostBusy`, which polls STATUS or refuses. -/
theorem busyRule : Obligations.BusyRule := by
  intro s op rest hbusy
  have hstep := step_of_busyEvent s op rest hbusy
  refine ⟨?_, fun hread hreset => hstep.trans (hostBusy_refused op _ hread hreset)⟩
  rintro rfl
  exact ⟨_, _, hstep, busyStatus_getLsbD_zero _⟩

end Sys2Proof.Machine
end
